-- ==== Sys2Proof/Word.lean ====
section
/-! DEFINITION. The widths of the machine's words: the plain types every other file uses (00_scope.md R4, R6; 10_state.md R10).
Bits are numbered here from 0 at the least significant end, the spec's second notation `v[hi:lo]` (00_scope.md R4). -/

namespace Sys2Proof

/-- A general register, an offset, an absolute or physical address: 64 bits (R10, R23). -/
abbrev Word := BitVec 64

/-- One byte of memory, the addressable unit (R6, R23). -/
abbrev Byte := BitVec 8

/-- One instruction word: every instruction is 32 bits (R48). -/
abbrev InstrWord := BitVec 32

/-- The number of a general register: a 5-bit instruction field (R10, R12). -/
abbrev Reg := BitVec 5

/-- The size of the entity transferred: "a doubleword, word, halfword, or a byte" (R6, R45). -/
inductive Size where
  | byte | half | word | double
  deriving DecidableEq, Repr

/-- The size in bytes (R6). -/
def Size.bytes : Size → Nat
  | .byte => 1
  | .half => 2
  | .word => 4
  | .double => 8

/-- The base-2 logarithm of the size in bytes, the shift "by data size" of an index (R108). -/
def Size.log2 : Size → Nat
  | .byte => 0
  | .half => 1
  | .word => 2
  | .double => 3

end Sys2Proof
end

