-- ==== Sys2Proof/Config.lean ====
section
/-! DEFINITION. What one implementation fixes and the spec leaves open, and the free value: constants with no body, so that
nothing in Lean can evaluate them or prove a value of them. A claim that mentions one holds whatever it is. -/

namespace Sys2Proof

/-- `PDC_BITS_W1`: bits 8..9 of the physical address of a PDC access with PSW W-bit 1, "processor-specific" (R36; I1). -/
opaque Config.pdcBitsW1 : BitVec 2

/-- `PDC_BITS_W0`: bits 8..39 of the physical address of a PDC access with PSW W-bit 0, "processor-specific" (R39; I2).
No relation to `Config.pdcBitsW1` is assumed. -/
opaque Config.pdcBitsW0 : BitVec 32

/-- `PHYS_IMPL_BITS`: how many physical address bits the implementation has. Like the spec's, no definition of this model
reads it: physical addresses keep 64 bits (R42; I6). -/
opaque Config.physImplBits : Nat

/-- A packing of the long byte displacement under PSW W-bit 1 other than the spec's default: the 15 bits below the sign
(R3, R57; D2). A launch takes it by `Assembly.other`. -/
opaque Config.otherAssemble16 : BitVec 2 → BitVec 14 → BitVec 15

/-- A packing of the long word displacement under PSW W-bit 1 other than the default: the 13 bits below the sign, in words
(R3, R58; D2). -/
opaque Config.otherAssemble16aWord : BitVec 2 → BitVec 11 → BitVec 1 → BitVec 13

/-- A packing of the long doubleword displacement under PSW W-bit 1 other than the default: the 12 bits below the sign, in
doublewords (R3, R58; D2). -/
opaque Config.otherAssemble16aDouble : BitVec 2 → BitVec 10 → BitVec 1 → BitVec 12

/-- The free value of the machine: what a base register holds after an instruction whose modified base the spec does not
state (assumption 3). The machine applies it to the counter `State.freeCount`, which each use advances. -/
opaque Config.freeBase : Nat → Word

end Sys2Proof
end

