-- ==== Sys2Proof/Syntax.lean ====
section
/-! DEFINITION. The instructions: one constructor for each of the 30 rows of spec/opcode_table.json, in the table's order.
A constructor's name is its mnemonic and its format (R49 to R54). Displacement fields stay as the instruction holds them,
because what they denote depends on PSW W-bit when the instruction executes (R60); the completer bits are read here, by the
three completer tables (R61 to R63). -/

namespace Sys2Proof

/-- The completer of a short displacement load or store: Table H-1 (R61). -/
inductive ShortCmplt where
  /-- No completer: the base is not modified. -/
  | plain
  /-- `MA`, modify base register after. -/
  | ma
  /-- `MB`, modify base register before. -/
  | mb
  /-- `O`, ordered access. -/
  | o
  deriving DecidableEq, Repr

/-- The completer of STORE BYTES and STORE DOUBLEWORD BYTES: Table H-2 (R62). -/
inductive BytesCmplt where
  /-- `B` or none: beginning case, base not modified. -/
  | b
  /-- `B,M`: beginning case, base modified. -/
  | bm
  /-- `E`: ending case, base not modified. -/
  | e
  /-- `E,M`: ending case, base modified. -/
  | em
  deriving DecidableEq, Repr

/-- The completer of an indexed load: Table H-3 (R63). -/
inductive IndexCmplt where
  /-- No completer: no index shift, base not modified. -/
  | plain
  /-- `M`: no index shift, base modified. -/
  | m
  /-- `S`: index shifted by data size, base not modified. -/
  | s
  /-- `SM` or `S,M`: index shifted by data size, base modified. -/
  | sm
  deriving DecidableEq, Repr

/-- The instructions. `b` is the base register, `t` the target of a load, `r` the source of a store, `x` the index
register, `sp` the 2-bit s-field and `cc` the cache control hint (R12, R49 to R54, R60, R64). -/
inductive Instr where
  /-- LDB, load byte, long displacement (R77). -/
  | ldbL14 (b t : Reg) (sp : BitVec 2) (im14 : BitVec 14)
  /-- LDH, load halfword, long displacement (R78). -/
  | ldhL14 (b t : Reg) (sp : BitVec 2) (im14 : BitVec 14)
  /-- LDW, load word, long displacement (R79). -/
  | ldwL14 (b t : Reg) (sp : BitVec 2) (im14 : BitVec 14)
  /-- LDW with base modification, opcode 13 (R80). -/
  | ldwModL14 (b t : Reg) (sp : BitVec 2) (im14 : BitVec 14)
  /-- STB, store byte, long displacement (R81). -/
  | stbL14 (b r : Reg) (sp : BitVec 2) (im14 : BitVec 14)
  /-- STH, store halfword, long displacement (R82). -/
  | sthL14 (b r : Reg) (sp : BitVec 2) (im14 : BitVec 14)
  /-- STW, store word, long displacement (R83). -/
  | stwL14 (b r : Reg) (sp : BitVec 2) (im14 : BitVec 14)
  /-- STW with base modification, opcode 1B (R84). -/
  | stwModL14 (b r : Reg) (sp : BitVec 2) (im14 : BitVec 14)
  /-- LDW with base modification, opcode 17 (R85). -/
  | ldwModL11 (b t : Reg) (sp : BitVec 2) (im11a : BitVec 11) (i : BitVec 1)
  /-- STW with base modification, opcode 1F (R86). -/
  | stwModL11 (b r : Reg) (sp : BitVec 2) (im11a : BitVec 11) (i : BitVec 1)
  /-- LDD, load doubleword, long displacement, no modification (R87). -/
  | lddL10 (b t : Reg) (sp : BitVec 2) (im10a : BitVec 10) (i : BitVec 1)
  /-- LDD,MA, long displacement (R87). -/
  | lddMaL10 (b t : Reg) (sp : BitVec 2) (im10a : BitVec 10) (i : BitVec 1)
  /-- LDD,MB, long displacement (R87). -/
  | lddMbL10 (b t : Reg) (sp : BitVec 2) (im10a : BitVec 10) (i : BitVec 1)
  /-- STD, store doubleword, long displacement, no modification (R88). -/
  | stdL10 (b r : Reg) (sp : BitVec 2) (im10a : BitVec 10) (i : BitVec 1)
  /-- STD,MA, long displacement (R88). -/
  | stdMaL10 (b r : Reg) (sp : BitVec 2) (im10a : BitVec 10) (i : BitVec 1)
  /-- STD,MB, long displacement (R88). -/
  | stdMbL10 (b r : Reg) (sp : BitVec 2) (im10a : BitVec 10) (i : BitVec 1)
  /-- LDB, load byte, short displacement (R92). -/
  | ldbSl (b t : Reg) (sp : BitVec 2) (c : ShortCmplt) (cc : BitVec 2) (im5 : BitVec 5)
  /-- LDH, load halfword, short displacement (R93). -/
  | ldhSl (b t : Reg) (sp : BitVec 2) (c : ShortCmplt) (cc : BitVec 2) (im5 : BitVec 5)
  /-- LDW, load word, short displacement (R94). -/
  | ldwSl (b t : Reg) (sp : BitVec 2) (c : ShortCmplt) (cc : BitVec 2) (im5 : BitVec 5)
  /-- LDD, load doubleword, short displacement (R95). -/
  | lddSl (b t : Reg) (sp : BitVec 2) (c : ShortCmplt) (cc : BitVec 2) (im5 : BitVec 5)
  /-- STB, store byte, short displacement (R96). -/
  | stbSs (b r : Reg) (sp : BitVec 2) (c : ShortCmplt) (cc : BitVec 2) (im5 : BitVec 5)
  /-- STH, store halfword, short displacement (R97). -/
  | sthSs (b r : Reg) (sp : BitVec 2) (c : ShortCmplt) (cc : BitVec 2) (im5 : BitVec 5)
  /-- STW, store word, short displacement (R98). -/
  | stwSs (b r : Reg) (sp : BitVec 2) (c : ShortCmplt) (cc : BitVec 2) (im5 : BitVec 5)
  /-- STD, store doubleword, short displacement (R99). -/
  | stdSs (b r : Reg) (sp : BitVec 2) (c : ShortCmplt) (cc : BitVec 2) (im5 : BitVec 5)
  /-- STBY, STORE BYTES (R105). -/
  | stbySs (b r : Reg) (sp : BitVec 2) (c : BytesCmplt) (cc : BitVec 2) (im5 : BitVec 5)
  /-- STDBY, STORE DOUBLEWORD BYTES (R106). -/
  | stdbySs (b r : Reg) (sp : BitVec 2) (c : BytesCmplt) (cc : BitVec 2) (im5 : BitVec 5)
  /-- LDB, load byte, indexed (R110). -/
  | ldbIx (b x t : Reg) (sp : BitVec 2) (c : IndexCmplt) (cc : BitVec 2)
  /-- LDH, load halfword, indexed (R111). -/
  | ldhIx (b x t : Reg) (sp : BitVec 2) (c : IndexCmplt) (cc : BitVec 2)
  /-- LDW, load word, indexed (R112). -/
  | ldwIx (b x t : Reg) (sp : BitVec 2) (c : IndexCmplt) (cc : BitVec 2)
  /-- LDD, load doubleword, indexed (R113). -/
  | lddIx (b x t : Reg) (sp : BitVec 2) (c : IndexCmplt) (cc : BitVec 2)
  deriving DecidableEq, Repr

end Sys2Proof
end

