-- ==== Sys2Proof/WellFormed.lean ====
section
/-! DEFINITION. The check an instruction term meets exactly when some instruction word stands for it. Field widths are in
the types, so what is left is Table H-1: `MA` needs a non-zero short displacement field and `O` a zero one (R61); "`MA` with
`d = 0` cannot be encoded, since that bit pattern is `O`" (R72). -/

namespace Sys2Proof

/-- Table H-1's condition on a short displacement completer and its field `im5` (R61, R72). -/
def ShortCmplt.admits : ShortCmplt → BitVec 5 → Bool
  | .plain, _ => true
  | .mb, _ => true
  | .ma, im5 => im5 != 0
  | .o, im5 => im5 == 0

/-- The instruction has an encoding (R61, R72). -/
def WellFormed : Instr → Bool
  | .ldbL14 .. | .ldhL14 .. | .ldwL14 .. | .ldwModL14 .. => true
  | .stbL14 .. | .sthL14 .. | .stwL14 .. | .stwModL14 .. => true
  | .ldwModL11 .. | .stwModL11 .. => true
  | .lddL10 .. | .lddMaL10 .. | .lddMbL10 .. => true
  | .stdL10 .. | .stdMaL10 .. | .stdMbL10 .. => true
  | .ldbSl _ _ _ c _ im5 => c.admits im5
  | .ldhSl _ _ _ c _ im5 => c.admits im5
  | .ldwSl _ _ _ c _ im5 => c.admits im5
  | .lddSl _ _ _ c _ im5 => c.admits im5
  | .stbSs _ _ _ c _ im5 => c.admits im5
  | .sthSs _ _ _ c _ im5 => c.admits im5
  | .stwSs _ _ _ c _ im5 => c.admits im5
  | .stdSs _ _ _ c _ im5 => c.admits im5
  | .stbySs .. | .stdbySs .. => true
  | .ldbIx .. | .ldhIx .. | .ldwIx .. | .lddIx .. => true

end Sys2Proof
end

