-- ==== Sys2Proof/Decode.lean ====
section
/-! DEFINITION. Decoding and encoding (30_encoding.md R48 to R54, R61 to R69). The decoder is total on 32-bit words: it
answers an instruction or rejects the word by name. The opcode and `ext4` numbers are the spec's, which marks them general
knowledge (R66, R67; assumption 7): `decode` is its procedure with those numbers, and `decodeWith` takes the table as a
parameter, as R3 has it. -/

namespace Sys2Proof

/-- Why the decoder gives no instruction. -/
inductive Reject where
  /-- `NotInScope(inst)`: the word matches no row of the opcode table (R68). -/
  | notInScope (w : InstrWord)
  deriving DecidableEq, Repr

/-! ### The fields of an instruction word (R49 to R54) -/

/-- `op`, bits 31:26. -/
def fieldOp (w : InstrWord) : BitVec 6 := w.extractLsb' 26 6
/-- `b`, bits 25:21. -/
def fieldB (w : InstrWord) : Reg := w.extractLsb' 21 5
/-- Bits 20:16: `t/r` of the long formats, `im5` of `SL`, `r` of `SS`, `x` of `IX`. -/
def fieldMid (w : InstrWord) : BitVec 5 := w.extractLsb' 16 5
/-- `s`, bits 15:14. -/
def fieldS (w : InstrWord) : BitVec 2 := w.extractLsb' 14 2
/-- `im14`, bits 13:0. -/
def fieldIm14 (w : InstrWord) : BitVec 14 := w.extractLsb' 0 14
/-- `im11a`, bits 13:3. -/
def fieldIm11a (w : InstrWord) : BitVec 11 := w.extractLsb' 3 11
/-- `op2`, bits 2:1 of the `L11` and `L10` formats. -/
def fieldOp2 (w : InstrWord) : BitVec 2 := w.extractLsb' 1 2
/-- `i`, bit 0: the sign of the displacement. -/
def fieldI (w : InstrWord) : BitVec 1 := w.extractLsb' 0 1
/-- `im10a`, bits 13:4. -/
def fieldIm10a (w : InstrWord) : BitVec 10 := w.extractLsb' 4 10
/-- `m`, bit 3, and `op2`, bits 2:1, of the `L10` format, as one 3-bit number. -/
def fieldMOp2 (w : InstrWord) : BitVec 3 := w.extractLsb' 1 3
/-- `a` of `SL` and `SS`, `u` of `IX`: bit 13. -/
def fieldA (w : InstrWord) : BitVec 1 := w.extractLsb' 13 1
/-- Bit 12 (the source's bit 19): 1 in `SL` and `SS`, 0 in `IX` (R65). -/
def fieldShort (w : InstrWord) : BitVec 1 := w.extractLsb' 12 1
/-- `cc`, bits 11:10. -/
def fieldCc (w : InstrWord) : BitVec 2 := w.extractLsb' 10 2
/-- `ext4`, bits 9:6. -/
def fieldExt4 (w : InstrWord) : BitVec 4 := w.extractLsb' 6 4
/-- `m` of `SL`, `SS` and `IX`: bit 5. -/
def fieldM (w : InstrWord) : BitVec 1 := w.extractLsb' 5 1
/-- Bits 4:0: `t` of `SL` and `IX`, `im5` of `SS`. -/
def fieldLow (w : InstrWord) : BitVec 5 := w.extractLsb' 0 5

/-! ### The completer tables, read (R61 to R63) -/

/-- Table H-1: `a` is ignored when `m = 0` (R61). -/
def shortCompleter (a m : BitVec 1) (im5 : BitVec 5) : ShortCmplt :=
  if m = 0#1 then .plain
  else if a = 1#1 then .mb
  else if im5 = 0#5 then .o
  else .ma

/-- Table H-2 (R62). -/
def bytesCompleter (a m : BitVec 1) : BytesCmplt :=
  if a = 0#1 then (if m = 0#1 then .b else .bm) else (if m = 0#1 then .e else .em)

/-- Table H-3 (R63). -/
def indexCompleter (u m : BitVec 1) : IndexCmplt :=
  if u = 0#1 then (if m = 0#1 then .plain else .m) else (if m = 0#1 then .s else .sm)

/-! ### The decoder (R69) -/

/-- Opcode 03, bit 12 = 1, `ext4` 0 to 3: format `SL` (R52, R66). -/
def decodeShortLoad (w : InstrWord)
    (k : Reg → Reg → BitVec 2 → ShortCmplt → BitVec 2 → BitVec 5 → Instr) : Instr :=
  k (fieldB w) (fieldLow w) (fieldS w)
    (shortCompleter (fieldA w) (fieldM w) (fieldMid w)) (fieldCc w) (fieldMid w)

/-- Opcode 03, bit 12 = 1, `ext4` 8 to B: format `SS` (R53, R66). -/
def decodeShortStore (w : InstrWord)
    (k : Reg → Reg → BitVec 2 → ShortCmplt → BitVec 2 → BitVec 5 → Instr) : Instr :=
  k (fieldB w) (fieldMid w) (fieldS w)
    (shortCompleter (fieldA w) (fieldM w) (fieldLow w)) (fieldCc w) (fieldLow w)

/-- Opcode 03, bit 12 = 1, `ext4` C or D: format `SS` with Table H-2 (R53, R62, R101). -/
def decodeStoreBytes (w : InstrWord)
    (k : Reg → Reg → BitVec 2 → BytesCmplt → BitVec 2 → BitVec 5 → Instr) : Instr :=
  k (fieldB w) (fieldMid w) (fieldS w)
    (bytesCompleter (fieldA w) (fieldM w)) (fieldCc w) (fieldLow w)

/-- Opcode 03, bit 12 = 0, `ext4` 0 to 3: format `IX` (R54, R66). -/
def decodeIndexed (w : InstrWord)
    (k : Reg → Reg → Reg → BitVec 2 → IndexCmplt → BitVec 2 → Instr) : Instr :=
  k (fieldB w) (fieldMid w) (fieldLow w) (fieldS w)
    (indexCompleter (fieldA w) (fieldM w)) (fieldCc w)

/-- The words of opcode 03: `ext4` and bit 12 choose the row, and `cc` is not tested (R66, R68, R69). -/
def decodeOp03 (w : InstrWord) : Except Reject Instr :=
  let e := fieldExt4 w
  if fieldShort w = 1#1 then
    if e = 0x0#4 then .ok (decodeShortLoad w .ldbSl)
    else if e = 0x1#4 then .ok (decodeShortLoad w .ldhSl)
    else if e = 0x2#4 then .ok (decodeShortLoad w .ldwSl)
    else if e = 0x3#4 then .ok (decodeShortLoad w .lddSl)
    else if e = 0x8#4 then .ok (decodeShortStore w .stbSs)
    else if e = 0x9#4 then .ok (decodeShortStore w .sthSs)
    else if e = 0xA#4 then .ok (decodeShortStore w .stwSs)
    else if e = 0xB#4 then .ok (decodeShortStore w .stdSs)
    else if e = 0xC#4 then .ok (decodeStoreBytes w .stbySs)
    else if e = 0xD#4 then .ok (decodeStoreBytes w .stdbySs)
    else .error (.notInScope w)
  else
    if e = 0x0#4 then .ok (decodeIndexed w .ldbIx)
    else if e = 0x1#4 then .ok (decodeIndexed w .ldhIx)
    else if e = 0x2#4 then .ok (decodeIndexed w .ldwIx)
    else if e = 0x3#4 then .ok (decodeIndexed w .lddIx)
    else .error (.notInScope w)

/-- Format `L14` (R49). -/
def decodeL14 (w : InstrWord) (k : Reg → Reg → BitVec 2 → BitVec 14 → Instr) : Instr :=
  k (fieldB w) (fieldMid w) (fieldS w) (fieldIm14 w)

/-- Format `L11` (R50): only `op2` = 10 is a general-register access (R67). -/
def decodeL11 (w : InstrWord) (k : Reg → Reg → BitVec 2 → BitVec 11 → BitVec 1 → Instr) :
    Except Reject Instr :=
  if fieldOp2 w = 0b10#2 then .ok (k (fieldB w) (fieldMid w) (fieldS w) (fieldIm11a w) (fieldI w))
  else .error (.notInScope w)

/-- Format `L10` (R51): bit 1 is 0; `m` and the before/after bit 2 choose the row, and `m = 0` with bit 2 = 1 is
rejected (R67, R68). -/
def decodeL10 (w : InstrWord) (plain ma mb : Reg → Reg → BitVec 2 → BitVec 10 → BitVec 1 → Instr) :
    Except Reject Instr :=
  let f := fieldMOp2 w
  if f = 0b000#3 then .ok (plain (fieldB w) (fieldMid w) (fieldS w) (fieldIm10a w) (fieldI w))
  else if f = 0b100#3 then .ok (ma (fieldB w) (fieldMid w) (fieldS w) (fieldIm10a w) (fieldI w))
  else if f = 0b110#3 then .ok (mb (fieldB w) (fieldMid w) (fieldS w) (fieldIm10a w) (fieldI w))
  else .error (.notInScope w)

/-- `Decode(inst)` (R69). -/
def decode (w : InstrWord) : Except Reject Instr :=
  let op := fieldOp w
  if op = 0x03#6 then decodeOp03 w
  else if op = 0x10#6 then .ok (decodeL14 w .ldbL14)
  else if op = 0x11#6 then .ok (decodeL14 w .ldhL14)
  else if op = 0x12#6 then .ok (decodeL14 w .ldwL14)
  else if op = 0x13#6 then .ok (decodeL14 w .ldwModL14)
  else if op = 0x14#6 then decodeL10 w .lddL10 .lddMaL10 .lddMbL10
  else if op = 0x17#6 then decodeL11 w .ldwModL11
  else if op = 0x18#6 then .ok (decodeL14 w .stbL14)
  else if op = 0x19#6 then .ok (decodeL14 w .sthL14)
  else if op = 0x1A#6 then .ok (decodeL14 w .stwL14)
  else if op = 0x1B#6 then .ok (decodeL14 w .stwModL14)
  else if op = 0x1C#6 then decodeL10 w .stdL10 .stdMaL10 .stdMbL10
  else if op = 0x1F#6 then decodeL11 w .stwModL11
  else .error (.notInScope w)

/-! ### The encoder (R49 to R54, R61 to R63, R66, R67) -/

/-- Format `L14` (R49). -/
def encodeL14 (op : BitVec 6) (b t : Reg) (sp : BitVec 2) (im14 : BitVec 14) : InstrWord :=
  op ++ b ++ t ++ sp ++ im14

/-- Format `L11` with `op2` = 10 (R50, R67). -/
def encodeL11 (op : BitVec 6) (b t : Reg) (sp : BitVec 2) (im11a : BitVec 11) (i : BitVec 1) : InstrWord :=
  op ++ b ++ t ++ sp ++ im11a ++ 0b10#2 ++ i

/-- Format `L10`, `mop2` the bit `m` and the two bits `op2` (R51, R67). -/
def encodeL10 (op : BitVec 6) (b t : Reg) (sp : BitVec 2) (im10a : BitVec 10) (mop2 : BitVec 3)
    (i : BitVec 1) : InstrWord :=
  op ++ b ++ t ++ sp ++ im10a ++ mop2 ++ i

/-- The formats of opcode 03 (R52 to R54): `mid` and `low` are the two 5-bit fields, whose roles differ. -/
def encodeOp03 (b mid : Reg) (sp : BitVec 2) (a short : BitVec 1) (cc : BitVec 2) (ext4 : BitVec 4)
    (m : BitVec 1) (low : BitVec 5) : InstrWord :=
  0x03#6 ++ b ++ mid ++ sp ++ a ++ short ++ cc ++ ext4 ++ m ++ low

/-- The bit `a` of a short completer; 0 where Table H-1 has "don't care" (R61; I5). -/
def ShortCmplt.aBit : ShortCmplt → BitVec 1
  | .mb => 1#1
  | .plain | .ma | .o => 0#1

/-- The bit `m` of a short completer (R61). -/
def ShortCmplt.mBit : ShortCmplt → BitVec 1
  | .plain => 0#1
  | .ma | .mb | .o => 1#1

/-- The bit `a` of a store bytes completer: 1 in the ending case (R62). -/
def BytesCmplt.aBit : BytesCmplt → BitVec 1
  | .b | .bm => 0#1
  | .e | .em => 1#1

/-- The bit `m` of a store bytes completer (R62). -/
def BytesCmplt.mBit : BytesCmplt → BitVec 1
  | .b | .e => 0#1
  | .bm | .em => 1#1

/-- The bit `u` of an indexed completer: 1 when the index is shifted (R63). -/
def IndexCmplt.uBit : IndexCmplt → BitVec 1
  | .plain | .m => 0#1
  | .s | .sm => 1#1

/-- The bit `m` of an indexed completer (R63). -/
def IndexCmplt.mBit : IndexCmplt → BitVec 1
  | .plain | .s => 0#1
  | .m | .sm => 1#1

/-- Format `SL` (R52). -/
def encodeShortLoad (ext4 : BitVec 4) (b t : Reg) (sp : BitVec 2) (c : ShortCmplt) (cc : BitVec 2)
    (im5 : BitVec 5) : InstrWord :=
  encodeOp03 b im5 sp c.aBit 1#1 cc ext4 c.mBit t

/-- Format `SS` (R53). -/
def encodeShortStore (ext4 : BitVec 4) (b r : Reg) (sp : BitVec 2) (c : ShortCmplt) (cc : BitVec 2)
    (im5 : BitVec 5) : InstrWord :=
  encodeOp03 b r sp c.aBit 1#1 cc ext4 c.mBit im5

/-- Format `SS` of the store bytes instructions (R53, R101). -/
def encodeStoreBytes (ext4 : BitVec 4) (b r : Reg) (sp : BitVec 2) (c : BytesCmplt) (cc : BitVec 2)
    (im5 : BitVec 5) : InstrWord :=
  encodeOp03 b r sp c.aBit 1#1 cc ext4 c.mBit im5

/-- Format `IX` (R54). -/
def encodeIndexed (ext4 : BitVec 4) (b x t : Reg) (sp : BitVec 2) (c : IndexCmplt) (cc : BitVec 2) : InstrWord :=
  encodeOp03 b x sp c.uBit 0#1 cc ext4 c.mBit t

/-- The word of an instruction. -/
def encode : Instr → InstrWord
  | .ldbL14 b t sp d => encodeL14 0x10#6 b t sp d
  | .ldhL14 b t sp d => encodeL14 0x11#6 b t sp d
  | .ldwL14 b t sp d => encodeL14 0x12#6 b t sp d
  | .ldwModL14 b t sp d => encodeL14 0x13#6 b t sp d
  | .stbL14 b r sp d => encodeL14 0x18#6 b r sp d
  | .sthL14 b r sp d => encodeL14 0x19#6 b r sp d
  | .stwL14 b r sp d => encodeL14 0x1A#6 b r sp d
  | .stwModL14 b r sp d => encodeL14 0x1B#6 b r sp d
  | .ldwModL11 b t sp d i => encodeL11 0x17#6 b t sp d i
  | .stwModL11 b r sp d i => encodeL11 0x1F#6 b r sp d i
  | .lddL10 b t sp d i => encodeL10 0x14#6 b t sp d 0b000#3 i
  | .lddMaL10 b t sp d i => encodeL10 0x14#6 b t sp d 0b100#3 i
  | .lddMbL10 b t sp d i => encodeL10 0x14#6 b t sp d 0b110#3 i
  | .stdL10 b r sp d i => encodeL10 0x1C#6 b r sp d 0b000#3 i
  | .stdMaL10 b r sp d i => encodeL10 0x1C#6 b r sp d 0b100#3 i
  | .stdMbL10 b r sp d i => encodeL10 0x1C#6 b r sp d 0b110#3 i
  | .ldbSl b t sp c cc d => encodeShortLoad 0x0#4 b t sp c cc d
  | .ldhSl b t sp c cc d => encodeShortLoad 0x1#4 b t sp c cc d
  | .ldwSl b t sp c cc d => encodeShortLoad 0x2#4 b t sp c cc d
  | .lddSl b t sp c cc d => encodeShortLoad 0x3#4 b t sp c cc d
  | .stbSs b r sp c cc d => encodeShortStore 0x8#4 b r sp c cc d
  | .sthSs b r sp c cc d => encodeShortStore 0x9#4 b r sp c cc d
  | .stwSs b r sp c cc d => encodeShortStore 0xA#4 b r sp c cc d
  | .stdSs b r sp c cc d => encodeShortStore 0xB#4 b r sp c cc d
  | .stbySs b r sp c cc d => encodeStoreBytes 0xC#4 b r sp c cc d
  | .stdbySs b r sp c cc d => encodeStoreBytes 0xD#4 b r sp c cc d
  | .ldbIx b x t sp c cc => encodeIndexed 0x0#4 b x t sp c cc
  | .ldhIx b x t sp c cc => encodeIndexed 0x1#4 b x t sp c cc
  | .ldwIx b x t sp c cc => encodeIndexed 0x2#4 b x t sp c cc
  | .lddIx b x t sp c cc => encodeIndexed 0x3#4 b x t sp c cc

/-! ### The opcode table's rows -/

/-- A row of spec/opcode_table.json: a word `w` is the row's instruction when `w AND mask = pattern` (INDEX.md, "Reading
opcode_table.json"). -/
structure OpcodeRow where
  mask : InstrWord
  pattern : InstrWord
  deriving DecidableEq, Repr

/-- A word is one of a row's. -/
def OpcodeRow.matchesWord (row : OpcodeRow) (w : InstrWord) : Bool := w &&& row.mask == row.pattern

/-- The row of the opcode table an instruction stands for. -/
def opcodeRow : Instr → OpcodeRow
  | .ldbL14 .. => ⟨0xFC000000#32, 0x40000000#32⟩
  | .ldhL14 .. => ⟨0xFC000000#32, 0x44000000#32⟩
  | .ldwL14 .. => ⟨0xFC000000#32, 0x48000000#32⟩
  | .ldwModL14 .. => ⟨0xFC000000#32, 0x4C000000#32⟩
  | .stbL14 .. => ⟨0xFC000000#32, 0x60000000#32⟩
  | .sthL14 .. => ⟨0xFC000000#32, 0x64000000#32⟩
  | .stwL14 .. => ⟨0xFC000000#32, 0x68000000#32⟩
  | .stwModL14 .. => ⟨0xFC000000#32, 0x6C000000#32⟩
  | .ldwModL11 .. => ⟨0xFC000006#32, 0x5C000004#32⟩
  | .stwModL11 .. => ⟨0xFC000006#32, 0x7C000004#32⟩
  | .lddL10 .. => ⟨0xFC00000E#32, 0x50000000#32⟩
  | .lddMaL10 .. => ⟨0xFC00000E#32, 0x50000008#32⟩
  | .lddMbL10 .. => ⟨0xFC00000E#32, 0x5000000C#32⟩
  | .stdL10 .. => ⟨0xFC00000E#32, 0x70000000#32⟩
  | .stdMaL10 .. => ⟨0xFC00000E#32, 0x70000008#32⟩
  | .stdMbL10 .. => ⟨0xFC00000E#32, 0x7000000C#32⟩
  | .ldbSl .. => ⟨0xFC0013C0#32, 0x0C001000#32⟩
  | .ldhSl .. => ⟨0xFC0013C0#32, 0x0C001040#32⟩
  | .ldwSl .. => ⟨0xFC0013C0#32, 0x0C001080#32⟩
  | .lddSl .. => ⟨0xFC0013C0#32, 0x0C0010C0#32⟩
  | .stbSs .. => ⟨0xFC0013C0#32, 0x0C001200#32⟩
  | .sthSs .. => ⟨0xFC0013C0#32, 0x0C001240#32⟩
  | .stwSs .. => ⟨0xFC0013C0#32, 0x0C001280#32⟩
  | .stdSs .. => ⟨0xFC0013C0#32, 0x0C0012C0#32⟩
  | .stbySs .. => ⟨0xFC0013C0#32, 0x0C001300#32⟩
  | .stdbySs .. => ⟨0xFC0013C0#32, 0x0C001340#32⟩
  | .ldbIx .. => ⟨0xFC0013C0#32, 0x0C000000#32⟩
  | .ldhIx .. => ⟨0xFC0013C0#32, 0x0C000040#32⟩
  | .ldwIx .. => ⟨0xFC0013C0#32, 0x0C000080#32⟩
  | .lddIx .. => ⟨0xFC0013C0#32, 0x0C0000C0#32⟩

/-- The name of a row of the opcode table: that of its constructor of `Instr`. -/
inductive RowName where
  | ldbL14 | ldhL14 | ldwL14 | ldwModL14
  | stbL14 | sthL14 | stwL14 | stwModL14
  | ldwModL11 | stwModL11 | lddL10 | lddMaL10
  | lddMbL10 | stdL10 | stdMaL10 | stdMbL10
  | ldbSl | ldhSl | ldwSl | lddSl
  | stbSs | sthSs | stwSs | stdSs
  | stbySs | stdbySs | ldbIx | ldhIx
  | ldwIx | lddIx
  deriving DecidableEq, Repr

/-- The instruction of a row with the operands of a word, read by the row's format (R49 to R54). -/
def RowName.read (w : InstrWord) : RowName → Instr
  | .ldbL14 => decodeL14 w .ldbL14
  | .ldhL14 => decodeL14 w .ldhL14
  | .ldwL14 => decodeL14 w .ldwL14
  | .ldwModL14 => decodeL14 w .ldwModL14
  | .stbL14 => decodeL14 w .stbL14
  | .sthL14 => decodeL14 w .sthL14
  | .stwL14 => decodeL14 w .stwL14
  | .stwModL14 => decodeL14 w .stwModL14
  | .ldwModL11 => .ldwModL11 (fieldB w) (fieldMid w) (fieldS w) (fieldIm11a w) (fieldI w)
  | .stwModL11 => .stwModL11 (fieldB w) (fieldMid w) (fieldS w) (fieldIm11a w) (fieldI w)
  | .lddL10 => .lddL10 (fieldB w) (fieldMid w) (fieldS w) (fieldIm10a w) (fieldI w)
  | .lddMaL10 => .lddMaL10 (fieldB w) (fieldMid w) (fieldS w) (fieldIm10a w) (fieldI w)
  | .lddMbL10 => .lddMbL10 (fieldB w) (fieldMid w) (fieldS w) (fieldIm10a w) (fieldI w)
  | .stdL10 => .stdL10 (fieldB w) (fieldMid w) (fieldS w) (fieldIm10a w) (fieldI w)
  | .stdMaL10 => .stdMaL10 (fieldB w) (fieldMid w) (fieldS w) (fieldIm10a w) (fieldI w)
  | .stdMbL10 => .stdMbL10 (fieldB w) (fieldMid w) (fieldS w) (fieldIm10a w) (fieldI w)
  | .ldbSl => decodeShortLoad w .ldbSl
  | .ldhSl => decodeShortLoad w .ldhSl
  | .ldwSl => decodeShortLoad w .ldwSl
  | .lddSl => decodeShortLoad w .lddSl
  | .stbSs => decodeShortStore w .stbSs
  | .sthSs => decodeShortStore w .sthSs
  | .stwSs => decodeShortStore w .stwSs
  | .stdSs => decodeShortStore w .stdSs
  | .stbySs => decodeStoreBytes w .stbySs
  | .stdbySs => decodeStoreBytes w .stdbySs
  | .ldbIx => decodeIndexed w .ldbIx
  | .ldhIx => decodeIndexed w .ldhIx
  | .ldwIx => decodeIndexed w .ldwIx
  | .lddIx => decodeIndexed w .lddIx

/-- A row of a decode table: its name and the words it matches. -/
structure DecodeRow where
  name : RowName
  words : OpcodeRow
  deriving DecidableEq, Repr

/-- The 16 rows of the long displacement formats, in the order of spec/opcode_table.json. -/
def longTable : List DecodeRow :=
  [⟨.ldbL14, ⟨0xFC000000#32, 0x40000000#32⟩⟩,
   ⟨.ldhL14, ⟨0xFC000000#32, 0x44000000#32⟩⟩,
   ⟨.ldwL14, ⟨0xFC000000#32, 0x48000000#32⟩⟩,
   ⟨.ldwModL14, ⟨0xFC000000#32, 0x4C000000#32⟩⟩,
   ⟨.stbL14, ⟨0xFC000000#32, 0x60000000#32⟩⟩,
   ⟨.sthL14, ⟨0xFC000000#32, 0x64000000#32⟩⟩,
   ⟨.stwL14, ⟨0xFC000000#32, 0x68000000#32⟩⟩,
   ⟨.stwModL14, ⟨0xFC000000#32, 0x6C000000#32⟩⟩,
   ⟨.ldwModL11, ⟨0xFC000006#32, 0x5C000004#32⟩⟩,
   ⟨.stwModL11, ⟨0xFC000006#32, 0x7C000004#32⟩⟩,
   ⟨.lddL10, ⟨0xFC00000E#32, 0x50000000#32⟩⟩,
   ⟨.lddMaL10, ⟨0xFC00000E#32, 0x50000008#32⟩⟩,
   ⟨.lddMbL10, ⟨0xFC00000E#32, 0x5000000C#32⟩⟩,
   ⟨.stdL10, ⟨0xFC00000E#32, 0x70000000#32⟩⟩,
   ⟨.stdMaL10, ⟨0xFC00000E#32, 0x70000008#32⟩⟩,
   ⟨.stdMbL10, ⟨0xFC00000E#32, 0x7000000C#32⟩⟩]

/-- The 14 rows of opcode 03, in the order of spec/opcode_table.json. -/
def op03Table : List DecodeRow :=
  [⟨.ldbSl, ⟨0xFC0013C0#32, 0x0C001000#32⟩⟩,
   ⟨.ldhSl, ⟨0xFC0013C0#32, 0x0C001040#32⟩⟩,
   ⟨.ldwSl, ⟨0xFC0013C0#32, 0x0C001080#32⟩⟩,
   ⟨.lddSl, ⟨0xFC0013C0#32, 0x0C0010C0#32⟩⟩,
   ⟨.stbSs, ⟨0xFC0013C0#32, 0x0C001200#32⟩⟩,
   ⟨.sthSs, ⟨0xFC0013C0#32, 0x0C001240#32⟩⟩,
   ⟨.stwSs, ⟨0xFC0013C0#32, 0x0C001280#32⟩⟩,
   ⟨.stdSs, ⟨0xFC0013C0#32, 0x0C0012C0#32⟩⟩,
   ⟨.stbySs, ⟨0xFC0013C0#32, 0x0C001300#32⟩⟩,
   ⟨.stdbySs, ⟨0xFC0013C0#32, 0x0C001340#32⟩⟩,
   ⟨.ldbIx, ⟨0xFC0013C0#32, 0x0C000000#32⟩⟩,
   ⟨.ldhIx, ⟨0xFC0013C0#32, 0x0C000040#32⟩⟩,
   ⟨.ldwIx, ⟨0xFC0013C0#32, 0x0C000080#32⟩⟩,
   ⟨.lddIx, ⟨0xFC0013C0#32, 0x0C0000C0#32⟩⟩]

/-- The default of the parameter `DecodeTable`: the 30 rows of spec/opcode_table.json (R3, R66, R67; D21). -/
def opcodeTable : List DecodeRow := longTable ++ op03Table

/-- What the rows of the opcode table match. -/
def opcodeRows : List OpcodeRow := opcodeTable.map DecodeRow.words

/-- Decoding by a table: the first row that matches the word reads it, and a word no row matches is rejected (R68; INDEX.md,
"Reading opcode_table.json"). For the default table this is `decode`, the procedure of R69. -/
def decodeWith : List DecodeRow → InstrWord → Except Reject Instr
  | [], w => .error (.notInScope w)
  | r :: rs, w => if r.words.matchesWord w then .ok (r.name.read w) else decodeWith rs w

/-- The instruction the decoder reads from a word whose low `nbits` bits are `w` and whose other bits are 0; an
instruction has 32 bits, so none has more (R48). -/
def decodeTableWord (nbits w : Nat) : Option Instr :=
  if nbits ≤ 32 then
    match decode (BitVec.ofNat 32 (w % 2 ^ nbits)) with
    | .ok i => some i
    | .error _ => none
  else none

end Sys2Proof
end

