-- ==== Sys2Proof/Machine/Launch.lean ====
section
/-! DEFINITION. What a launch fixes for a run beside the registers, the mode bits, the program and memory: the parameters of
00_scope.md R3 that 70_reset_and_hazards.md R125 lists, as plain data, and their defaults. The defaults of R3 are the spec's;
where R3 leaves a parameter `OPEN` the value at reset is the model's (assumptions 1 and 5). -/

namespace Sys2Proof.Machine

/-- The kind of a data access, which translation may tell apart (R32). -/
inductive Access where
  | read | write
  deriving DecidableEq, Repr

/-- One row of the launch's `Translate`: accesses of kind `access` to the `size` virtual addresses from `va` on reach
consecutive physical addresses from `pa` on (R32). A virtual address is a number, since the source does not say how wide
one is (R30). -/
structure Translation where
  access : Access
  va : Nat
  size : Nat
  pa : Word
  deriving DecidableEq, Repr

/-- A field of the virtual address: `width` bits, each "the OR of at most one space bit and at most one offset bit" (R30).
`space` and `offset` name the lowest of the consecutive bits of the space identifier and of the offset that stand there, from
0 at the least significant end, or none. -/
structure VaField where
  width : Nat
  space : Option Nat
  offset : Option Nat
  deriving DecidableEq, Repr

/-- The parameters `assemble_16` and `assemble_16a`: how the s-field extends a long displacement under PSW W-bit 1
(R3, R57, R58; D2). -/
inductive Assembly where
  /-- The default: the two s-field bits, each exclusive-ORed with the sign, stand below the sign. -/
  | signXor
  /-- Any other packing that keeps what the source fixes (R57): a function of `Config` that nothing is known of. -/
  | other
  deriving DecidableEq, Repr

/-- The parameters of R3 that a launch fixes (R125), but for the mode bits and the constants of `Config`. -/
structure Params where
  /-- `SPACE_BITS`, the width of a space register (R3, R13). -/
  spaceBits : Nat
  /-- `VaCombine`: the fields of a virtual address, the least significant first (R3, R30, R31). -/
  vaLayout : List VaField
  /-- `assemble_16`, for the long byte displacement (R3, R57). -/
  assemble16 : Assembly
  /-- `assemble_16a`, for the long word and doubleword displacements (R3, R58). -/
  assemble16a : Assembly
  /-- `DecodeTable` (R3, R66, R67). -/
  decodeTable : List DecodeRow
  /-- `Translate`, as data; the first row that covers an address answers for it (R3, R32). -/
  translations : List Translation
  /-- `EXPLICIT_SPACE_W1` (R3, R26). -/
  explicitSpaceW1 : Bool
  /-- `STORE_BYTES_MODELLED` (R3, R104). -/
  storeBytesModelled : Bool
  /-- MODEL'S OWN switch (assumption 2). False: the forms that decisions D11, D19 and D20 refuse for want of a source (`cc`
  not 0, a modifying load with `t = b`, the `,M` store bytes) are refused, as the rules say. True: they execute, with a free
  value where no value is stated. -/
  runOpenForms : Bool
  deriving DecidableEq, Repr

/-- The default of `VaCombine`, 96 bits: offset bits 0 to 31 alone, offset bits 32 to 61 ORed with space bits 0 to 29, and
space bits 30 to 63 alone (R31). -/
def defaultVaLayout : List VaField :=
  [{ width := 32, space := none, offset := some 0 },
   { width := 30, space := some 0, offset := some 32 },
   { width := 34, space := some 30, offset := none }]

/-- The width of a space register that the default of `VaCombine` is given for (R31); `SPACE_BITS` is `OPEN`
(assumption 5: DESIGN CHOICE). -/
def defaultSpaceBits : Nat := 64

/-- The default of `EXPLICIT_SPACE_W1` (R3; D1). -/
def defaultExplicitSpaceW1 : Bool := true

/-- The default of `STORE_BYTES_MODELLED` (R3, R104; D20). -/
def defaultStoreBytesModelled : Bool := false

/-- The model's own switch is off, so that a launch keeps to decisions D11, D19 and D20 unless it says otherwise
(assumption 2). -/
def defaultRunOpenForms : Bool := false

/-- R3's parameters at their defaults, with no translation (assumption 1). -/
def defaultParams : Params where
  spaceBits := defaultSpaceBits
  vaLayout := defaultVaLayout
  assemble16 := .signXor
  assemble16a := .signXor
  decodeTable := opcodeTable
  translations := []
  explicitSpaceW1 := defaultExplicitSpaceW1
  storeBytesModelled := defaultStoreBytesModelled
  runOpenForms := defaultRunOpenForms

end Sys2Proof.Machine
end

