-- ==== Sys2Proof/Machine/State.lean ====
section
/-! DEFINITION. The machine's state, the reasons a step can stop, and the state before a launch places anything
(10_state.md; 60_exceptions.md R116; 70_reset_and_hazards.md R125). State is plain data and holds everything the spec gives
the machine: the registers, the two mode bits, the pc, data memory, and what a launch fixes for the run. -/

namespace Sys2Proof.Machine

/-- A range of physical byte addresses, `base` to `base + size - 1`, that the launch allocates (R41, R125). -/
structure Region where
  base : Nat
  size : Nat
  deriving DecidableEq, Repr

/-- Why the machine stops in a fault. -/
inductive Fault where
  /-- `UnalignedDataReference(off)`: raised by every 2, 4 or 8-byte load and store of files 40, 41 and 43 whose offset
  `off` is not a multiple of its size (R44, R116). Safe: the machine stops where the hardware might go on in a handler. -/
  | unalignedDataReference (off : Word)
  /-- `DataTranslationFault(va)`: raised by address formation when data translation is enabled and the launch's
  translation has no answer for the virtual address and access kind (R32, R116). Safe. -/
  | dataTranslationFault (va : Nat) (access : Access)
  /-- The run's normal end: the pc stands after the last word of the program text, so there is no instruction to execute
  (R128). Raised by the fetch only. Safe: nothing runs. -/
  | endOfProgram
  /-- The pc is neither the place of a word of the program text nor its end; no run reaches such a pc (R17, R125, R128).
  Raised by the fetch only. Safe: nothing runs. -/
  | noInstruction (pc : Word)
  deriving DecidableEq, Repr

/-- Why the model gives a step no meaning. -/
inductive Refusal where
  /-- An arm of `exec` that has no meaning yet. No arm answers it: every instruction of the table has its meaning. Safe. -/
  | notModelled (mnemonic : String)
  /-- `NotInScope(inst)`: the decoder rejects the word (R68, R116). Raised by `step`. Safe. -/
  | notInScope (w : InstrWord)
  /-- `CacheHintNotModelled`: an instruction with `cc` not 0, unless the launch runs the open forms (R47, R116; D11;
  assumption 2). Raised by the short displacement, store bytes and indexed families. Safe. -/
  | cacheHintNotModelled
  /-- `LoadModifySameRegister`: a load that modifies its base with `t = b`, unless the launch runs the open forms (R76,
  R116; D19; assumption 2). Raised by every modifying load. Safe. -/
  | loadModifySameRegister
  /-- `StoreBytesNotModelled`: STBY or STDBY while `STORE_BYTES_MODELLED` is false, or in an `,M` form unless the launch
  runs the open forms (R104, R116; D20; assumption 2). Safe. -/
  | storeBytesNotModelled
  /-- `UnmodelledAddressSpace`: an access to the physical address `pa`, which the launch does not allocate or which lies
  outside the Memory Address Space (R41, R116). Raised by `memRead` and `memWrite`. Safe. -/
  | unmodelledAddressSpace (pa : Word)
  deriving DecidableEq, Repr

/-- The state of the machine. -/
structure State where
  /-- `GR[0]` to `GR[31]` (R10). Entry 0 is never read or written: `GR[0]` reads as zero (R11). -/
  gr : Vector Word 32
  /-- `SR[0]` to `SR[7]` (R13), space identifiers as numbers: their width `SPACE_BITS` is a parameter of the
  launch, and a register is read at that width. No instruction writes one. -/
  sr : Vector Nat 8
  /-- PSW W-bit: true for a 64-bit program, false for a 32-bit program (R7, R14). -/
  pswW : Bool
  /-- The data translation enable (R15). -/
  dataTranslation : Bool
  /-- The program counter, a byte offset into the program text (R17). -/
  pc : Word
  /-- The program text: word `i` stands at `pc = 4 * i`; separate from data memory (R47, R125). -/
  text : List InstrWord
  /-- The bytes of physical memory that differ from `unlistedByte`, by rising address (R19). -/
  mem : List Host.Cell
  /-- The physical addresses the launch allocates (R41, R125). -/
  alloc : List Region
  /-- The parameters of the launch (R3, R125). -/
  params : Params
  /-- MODEL'S OWN: how many free values the run has drawn from `Config.freeBase` (assumption 3). -/
  freeCount : Nat
  deriving DecidableEq, Repr

/-- What a byte of memory that nothing has written reads as (assumption 4: DESIGN CHOICE). -/
def unlistedByte : Byte := 0#8

/-- The first physical address past the Memory Address Space, as R40's table for PSW W-bit 1 ends it. R40's table for W-bit 0
ends it at `0xEFFF_FFFF`, and R41 and R125 do not say which of the two bounds the allocation: the model takes this one under
both values of W (assumption 31: DESIGN CHOICE). -/
def memorySpaceEnd : Nat := 0x3C00000000000000

/-- The machine before a launch places a program: the pc at 0 and `GR[0]` zero are the spec's (R21, R125), and so are the
defaults of R3's parameters; every other value is the model's (assumptions 1 to 5), since the spec leaves each
unspecified. -/
def State.reset : State where
  gr := Vector.replicate 32 0#64
  sr := Vector.replicate 8 0
  pswW := false
  dataTranslation := false
  pc := 0#64
  text := []
  mem := []
  alloc := [{ base := 0, size := memorySpaceEnd }]
  params := defaultParams
  freeCount := 0

end Sys2Proof.Machine
end

