-- ==== Sys2Proof/Machine/Flags.lean ====
section
/-! DEFINITION. Flag computations: the spec names none. "The source names no status flag, condition code, carry/borrow bit or
nullification bit, and no rule of this spec reads or writes one" (10_state.md R18), so what stands here is the sum that sets
no flag, and what the mode bit PSW W decides about a sum used as an offset. -/

namespace Sys2Proof.Machine

/-- The sum of a base and a displacement or index: modulo 2^64, no flag, no overflow trap (R18, R73, R89, R107). -/
def addOffset (base d : Word) : Word := base + d

/-- The offset that forms the address: with PSW W-bit 0 "the upper 32 bits are forced to 0", with PSW W-bit 1 all 64 bits
(R29). -/
def narrowOffset (w : Bool) (offset64 : Word) : Word :=
  if w then offset64 else (offset64.extractLsb' 0 32).setWidth 64

end Sys2Proof.Machine
end

