-- ==== Sys2Proof/Machine/Operands.lean ====
section
/-! DEFINITION. The operand forms: the displacements of the six formats (30_encoding.md R55 to R59), what each completer makes
of base and sum (R75, R89, R108), and the choice of the space register (20_memory.md R25, R26). -/

namespace Sys2Proof.Machine

/-! ### Displacements, as 64-bit two's complement values -/

/-- `low_sign_ext(F, n)` for the 14-bit field: the sign is the rightmost bit (R55, R56). -/
def lowSignExt14 (f : BitVec 14) : Word := (f.extractLsb' 0 1 ++ f.extractLsb' 1 13).signExtend 64

/-- `low_sign_ext(F, n)` for the 5-bit field: the short displacement, -16 to 15, not scaled (R55, R59). -/
def lowSignExt5 (f : BitVec 5) : Word := (f.extractLsb' 0 1 ++ f.extractLsb' 1 4).signExtend 64

/-- The three leading bits of a long displacement with PSW W-bit 1 in the default packing: the sign, then each s-field bit
exclusive-ORed with the sign (R57, R58; assumption 7). -/
def wideTop (sign : BitVec 1) (sp : BitVec 2) : BitVec 3 :=
  sign ++ (sign ^^^ sp.extractLsb' 1 1) ++ (sign ^^^ sp.extractLsb' 0 1)

/-- The byte displacement of format `L11` with PSW W-bit 0, a multiple of 4 (R58). -/
def narrowL11 (im11a : BitVec 11) (i : BitVec 1) : Word := (i ++ im11a ++ 0b00#2).signExtend 64

/-- The byte displacement of format `L10` with PSW W-bit 0, a multiple of 8 (R58). -/
def narrowL10 (im10a : BitVec 10) (i : BitVec 1) : Word := (i ++ im10a ++ 0b000#3).signExtend 64

/-- The byte displacement of format `L14`: 14 bits with PSW W-bit 0 (R56), `assemble_16` with PSW W-bit 1 (R57). A packing
other than the default keeps the sign in `im14[0]`, and with `s = 0` it is the displacement of a 32-bit program, as the
source requires of every instance (R57; D2). -/
def dispL14 (a : Assembly) (w : Bool) (sp : BitVec 2) (im14 : BitVec 14) : Word :=
  if w then
    match a with
    | .signXor => (wideTop (im14.extractLsb' 0 1) sp ++ im14.extractLsb' 1 13).signExtend 64
    | .other =>
      if sp = 0#2 then lowSignExt14 im14
      else (im14.extractLsb' 0 1 ++ Config.otherAssemble16 sp im14).signExtend 64
  else lowSignExt14 im14

/-- The byte displacement of format `L11`, a multiple of 4 under either W and in every packing (R58). -/
def dispL11 (a : Assembly) (w : Bool) (sp : BitVec 2) (im11a : BitVec 11) (i : BitVec 1) : Word :=
  if w then
    match a with
    | .signXor => (wideTop i sp ++ im11a ++ 0b00#2).signExtend 64
    | .other =>
      if sp = 0#2 then narrowL11 im11a i
      else (i ++ Config.otherAssemble16aWord sp im11a i ++ 0b00#2).signExtend 64
  else narrowL11 im11a i

/-- The byte displacement of format `L10`, a multiple of 8 under either W and in every packing (R58). -/
def dispL10 (a : Assembly) (w : Bool) (sp : BitVec 2) (im10a : BitVec 10) (i : BitVec 1) : Word :=
  if w then
    match a with
    | .signXor => (wideTop i sp ++ im10a ++ 0b000#3).signExtend 64
    | .other =>
      if sp = 0#2 then narrowL10 im10a i
      else (i ++ Config.otherAssemble16aDouble sp im10a i ++ 0b000#3).signExtend 64
  else narrowL10 im10a i

/-! ### Base register modification -/

/-- `mod` of the long displacement procedures: none, after or before (R75). -/
inductive Modify where
  | none | ma | mb
  deriving DecidableEq, Repr

/-- The direction of opcodes 13 and 1B: `MA` if `d >= 0`, `MB` if `d < 0` (R80, R84). -/
def modifyByte (d : Word) : Modify := if d.msb then .mb else .ma

/-- The direction of opcodes 17 and 1F: `MB` if `d >= 0`, `MA` if `d < 0` (R85, R86). -/
def modifyWord (d : Word) : Modify := if d.msb then .ma else .mb

/-- The offset used for the address (R75). -/
def longOffset (m : Modify) (base sum : Word) : Word :=
  match m with
  | .ma => base
  | .none | .mb => sum

/-- What is written to the base register, if anything: the full 64-bit sum under either W (R29, R75). -/
def longNewBase (m : Modify) (sum : Word) : Option Word :=
  match m with
  | .none => Option.none
  | .ma | .mb => some sum

/-- The offset used for the address by a short displacement form (R89). -/
def shortOffset (c : ShortCmplt) (base sum : Word) : Word :=
  match c with
  | .ma | .o => base
  | .plain | .mb => sum

/-- What a short displacement form writes to the base register: `O` writes nothing (R89, R90). -/
def shortNewBase (c : ShortCmplt) (sum : Word) : Option Word :=
  match c with
  | .plain | .o => Option.none
  | .ma | .mb => some sum

/-- The index value: shifted left by the logarithm of the size when the completer says so; bits shifted out are lost
(R108, R109). -/
def indexValue (c : IndexCmplt) (n : Size) (x : Word) : Word :=
  match c with
  | .plain | .m => x
  | .s | .sm => x <<< n.log2

/-- The offset used for the address by an indexed form: modification is after the access (R108). -/
def indexOffset (c : IndexCmplt) (base sum : Word) : Word :=
  match c with
  | .m | .sm => base
  | .plain | .s => sum

/-- What an indexed form writes to the base register (R108). -/
def indexNewBase (c : IndexCmplt) (sum : Word) : Option Word :=
  match c with
  | .plain | .s => Option.none
  | .m | .sm => some sum

/-- The forms of the store bytes instructions that modify the base register (R62, R102). -/
def bytesModifies (c : BytesCmplt) : Bool :=
  match c with
  | .b | .e => false
  | .bm | .em => true

/-- The ending case of the store bytes instructions (R62, R102). -/
def bytesEnding (c : BytesCmplt) : Bool :=
  match c with
  | .b | .bm => false
  | .e | .em => true

/-! ### Space selection -/

/-- The kind of format an address comes from; store bytes are `short` (R24). -/
inductive Fmt where
  | long | short | indexed
  deriving DecidableEq, Repr

/-- 4 plus the two bits of the base register that choose an implicit pointer: bits 32..33 for a 32-bit program
(`base[31:30]`), bits 0..1 for a 64-bit program (`base[63:62]`) (R25, R27). -/
def implicitSpace (w : Bool) (base : Word) : BitVec 3 :=
  1#1 ++ (if w then base.extractLsb' 62 2 else base.extractLsb' 30 2)

/-- Whether a non-zero s-field names the space register itself: always with PSW W-bit 0; with PSW W-bit 1 never for a long
displacement, and as `EXPLICIT_SPACE_W1` says for the other formats (R25, R26). -/
def explicitAllowed (w explicitSpaceW1 : Bool) (fmt : Fmt) : Bool :=
  match fmt with
  | .long => !w
  | .short | .indexed => !w || explicitSpaceW1

/-- `SpaceSelect(fmt, s, base)`: the number of the space register, 1 to 7 (R25, R26). -/
def spaceSelect (w explicitSpaceW1 : Bool) (fmt : Fmt) (sp : BitVec 2) (base : Word) : BitVec 3 :=
  if sp ≠ 0#2 ∧ explicitAllowed w explicitSpaceW1 fmt = true then sp.setWidth 3
  else implicitSpace w base

end Sys2Proof.Machine
end

