-- ==== Sys2Proof/Machine/Ops.lean ====
section
/-! DEFINITION. The named operations over registers, addresses and memory, the fetch, and the four procedures every
instruction is made of: a load, a store, a store of bytes, and the test of the cache control hint.

TAKING AN EXCEPTION. The spec has no trap entry and no return from one: `raise` "ends the instruction with no write at all
... and the machine stops in the named fault" (60_exceptions.md R114, R119, R120). So raising is an outcome, `.fault`, of
the procedures below, reached before anything is written. -/

namespace Sys2Proof.Machine

/-- What a step answers. -/
abbrev Result := Host.Outcome State Fault Refusal

/-! ### Registers -/

/-- `GR[i]`: register 0 reads as zero (R10, R11). -/
def readGr (s : State) (i : Reg) : Word :=
  if i = 0#5 then 0#64 else s.gr[i.toNat]'i.isLt

/-- `GR[i] <- v`: a write to register 0 is discarded (R10, R11). -/
def writeGr (s : State) (i : Reg) (v : Word) : State :=
  if i = 0#5 then s else { s with gr := s.gr.set i.toNat v i.isLt }

/-- `SR[n]`, `SPACE_BITS` wide (R5, R13). -/
def readSr (s : State) (n : BitVec 3) : Nat := s.sr[n.toNat]'n.isLt % 2 ^ s.params.spaceBits

/-- `pc <- pc + 4`, how every instruction ends (R17). -/
def advance (s : State) : State := { s with pc := s.pc + 4#64 }

/-- Writes an optional new value to a base register (R76). -/
def writeBase (s : State) (b : Reg) : Option Word → State
  | none => s
  | some v => writeGr s b v

/-- Writes a value the spec does not state to a base register: the next free value, which is then used up (assumption 3). -/
def writeFreeBase (s : State) (b : Reg) : State :=
  { writeGr s b (Config.freeBase s.freeCount) with freeCount := s.freeCount + 1 }

/-! ### Memory as a list of bytes in canonical form (R19) -/

/-- The byte at an address. -/
def lookupByte : List Host.Cell → Nat → Byte
  | [], _ => unlistedByte
  | c :: m, a => if c.1 = a then c.2 else lookupByte m a

/-- The list without the cells of an address. -/
def eraseByte : List Host.Cell → Nat → List Host.Cell
  | [], _ => []
  | c :: m, a => if c.1 = a then eraseByte m a else c :: eraseByte m a

/-- The list with a cell put at an address, in rising order. -/
def insertByte : List Host.Cell → Nat → Byte → List Host.Cell
  | [], a, v => [(a, v)]
  | c :: m, a, v =>
    if a < c.1 then (a, v) :: c :: m
    else if c.1 = a then (a, v) :: m
    else c :: insertByte m a v

/-- Writes one byte; writing what an unlisted address reads as removes the cell. -/
def storeByte (m : List Host.Cell) (a : Nat) (v : Byte) : List Host.Cell :=
  if v = unlistedByte then eraseByte m a else insertByte m a v

/-- The canonical form: addresses strictly rising, and no cell equal to what an unlisted address reads as. -/
def Memory.wf : List Host.Cell → Bool
  | [] => true
  | [c] => c.2 != unlistedByte
  | c :: d :: m => c.2 != unlistedByte && decide (c.1 < d.1) && Memory.wf (d :: m)

/-- The `n` bytes from address `a` on, most significant byte at `a`, zeros above them (R43, R74). -/
def readBytes (m : List Host.Cell) (a : Nat) : Nat → Word
  | 0 => 0#64
  | n + 1 => (readBytes m a n <<< 8) ||| (lookupByte m (a + n)).setWidth 64

/-- Stores the `n` low-order bytes of `v` from address `a` on, most significant byte at `a` (R43, R74). -/
def writeBytes (m : List Host.Cell) (a : Nat) : Nat → Word → List Host.Cell
  | 0, _ => m
  | n + 1, v => storeByte (writeBytes m a n (v >>> 8)) (a + n) (v.setWidth 8)

/-- The physical address is allocated by the launch and lies in the Memory Address Space, whose bound is the same under both
values of PSW W-bit (R40, R41; assumption 31). -/
def allocated (regions : List Region) (a : Nat) : Bool :=
  decide (a < memorySpaceEnd) && regions.any (fun r => decide (r.base ≤ a) && decide (a < r.base + r.size))

/-- The first of the `n` addresses from `a` on that is not allocated (R41). -/
def firstUnallocated (regions : List Region) (a : Nat) : Nat → Option Nat
  | 0 => none
  | n + 1 =>
    match firstUnallocated regions a n with
    | some x => some x
    | none => if allocated regions (a + n) then none else some (a + n)

/-- `MemRead(pa, n)`: zero-extended to 64 bits, or refused at the first address that is not allocated (R41, R43, R74). -/
def memRead (s : State) (pa : Word) (n : Nat) : Except Refusal Word :=
  match firstUnallocated s.alloc pa.toNat n with
  | some x => .error (.unmodelledAddressSpace (BitVec.ofNat 64 x))
  | none => .ok (readBytes s.mem pa.toNat n)

/-- `MemWrite(pa, n, v)`: all of its bytes or, where one of them is not allocated, none (R41, R43, R115). -/
def memWrite (s : State) (pa : Word) (n : Nat) (v : Word) : Except Refusal State :=
  match firstUnallocated s.alloc pa.toNat n with
  | some x => .error (.unmodelledAddressSpace (BitVec.ofNat 64 x))
  | none => .ok { s with mem := writeBytes s.mem pa.toNat n v }

/-! ### From an offset to a physical address (20_memory.md) -/

/-- The three address spaces an absolute address falls in (R40). -/
inductive Space where
  | memory | io | pdc
  deriving DecidableEq, Repr

/-- The address space of an absolute address with PSW W-bit 1: bits 61:54 and 61:58 decide, bits 63:62 are ignored
(R34, R36, R40). -/
def spaceOfW1 (a : Word) : Space :=
  if a.extractLsb' 54 8 ≠ 0xF0#8 then (if a.extractLsb' 58 4 = 0xF#4 then .io else .memory) else .pdc

/-- `AbsToPhysW1(a)`, the processor-specific bits given (R36). -/
def absToPhysW1 (pdcBits : BitVec 2) (a : Word) : Word :=
  match spaceOfW1 a with
  | .io => 0b11#2 ++ a.extractLsb' 0 62
  | .memory => 0b00#2 ++ a.extractLsb' 0 62
  | .pdc => 0xF0#8 ++ pdcBits ++ a.extractLsb' 0 54

/-- The address space of an absolute address with PSW W-bit 0: bits 31:24 and 31:28 decide (R39, R40). -/
def spaceOfW0 (a : Word) : Space :=
  if a.extractLsb' 24 8 ≠ 0xF0#8 then (if a.extractLsb' 28 4 = 0xF#4 then .io else .memory) else .pdc

/-- `AbsToPhysW0(a)`, the processor-specific bits given (R39). -/
def absToPhysW0 (pdcBits : BitVec 32) (a : Word) : Word :=
  match spaceOfW0 a with
  | .io => 0xFFFFFFFF#32 ++ a.extractLsb' 0 32
  | .memory => 0x00000000#32 ++ a.extractLsb' 0 32
  | .pdc => 0xF0#8 ++ pdcBits ++ a.extractLsb' 0 24

/-- The physical address of an absolute address (R28, R36, R39). -/
def absToPhys (w : Bool) (a : Word) : Word :=
  if w then absToPhysW1 Config.pdcBitsW1 a else absToPhysW0 Config.pdcBitsW0 a

/-- `width` bits of a number from the bit named on, or zeros where none is named. -/
def bitsFrom (x width : Nat) : Option Nat → Nat
  | none => 0
  | some k => x >>> k % 2 ^ width

/-- `VaCombine(space, off)` in the launch's layout: field by field, least significant first, space and offset bit-wise ORed
(R30; D3). -/
def vaCombine : List VaField → Nat → Word → Nat
  | [], _, _ => 0
  | e :: es, space, off =>
    2 ^ e.width * vaCombine es space off + (bitsFrom space e.width e.space ||| bitsFrom off.toNat e.width e.offset)

/-- One row of the launch's translation covers an access. -/
def Translation.covers (e : Translation) (k : Access) (va : Nat) : Bool :=
  decide (e.access = k) && decide (e.va ≤ va) && decide (va < e.va + e.size)

/-- The physical address a row gives; its low three bits are those of the offset, as D4 has it of every `Translate` (R32,
R44). -/
def Translation.target (e : Translation) (va : Nat) (off : Word) : Word :=
  (e.pa + BitVec.ofNat 64 (va - e.va)).extractLsb' 3 61 ++ off.extractLsb' 0 3

/-- `Translate(va)`, fixed by the launch for each virtual address and access kind: `none` is its fault (R32). -/
def translateVa : List Translation → Access → Nat → Word → Option Word
  | [], _, _, _ => none
  | e :: es, k, va, off => if e.covers k va then some (e.target va off) else translateVa es k va off

/-- The virtual address of a data reference: the space chosen and the narrowed offset, combined (R24, R25, R26, R30). -/
def dataVa (s : State) (fmt : Fmt) (sp : BitVec 2) (base off : Word) : Nat :=
  vaCombine s.params.vaLayout (readSr s (spaceSelect s.pswW s.params.explicitSpaceW1 fmt sp base)) off

/-- `DataAddress(fmt, s, base, offset64)`: the narrowed offset and the physical address, or `DataTranslationFault`
(R24). -/
def dataAddress (s : State) (k : Access) (fmt : Fmt) (sp : BitVec 2) (base offset64 : Word) :
    Except Fault (Word × Word) :=
  let off := narrowOffset s.pswW offset64
  if s.dataTranslation then
    let va := dataVa s fmt sp base off
    match translateVa s.params.translations k va off with
    | some pa => .ok (off, pa)
    | none => .error (.dataTranslationFault va k)
  else .ok (off, absToPhys s.pswW off)

/-! ### The procedures (40_long_displacement.md R76, 41_short_displacement.md R91, 42_store_bytes.md R105, 43_indexed.md R109) -/

/-- The register writes of a load: the base, then the target, then the pc (R76). With `t = b` and a modified base the spec
states no result, and the register takes a free value (assumption 3). -/
def finishLoad (s : State) (b t : Reg) (newBase : Option Word) (v : Word) : State :=
  match newBase with
  | none => advance (writeGr s t v)
  | some sum =>
    if t = b then advance (writeFreeBase s b)
    else advance (writeGr (writeGr s b sum) t v)

/-- A load of `n` bytes: `LongLoad`, `ShortLoad` and `IndexedLoad` from the offset on, in their order of causes
(R76, R91, R109, R117). -/
def load (s : State) (n : Size) (fmt : Fmt) (sp : BitVec 2) (b t : Reg) (offset64 : Word)
    (newBase : Option Word) : Result :=
  if newBase.isSome ∧ t = b ∧ s.params.runOpenForms = false then .refused .loadModifySameRegister
  else
    match dataAddress s .read fmt sp (readGr s b) offset64 with
    | .error f => .fault f
    | .ok (off, pa) =>
      if off.toNat % n.bytes ≠ 0 then .fault (.unalignedDataReference off)
      else
        match memRead s pa n.bytes with
        | .error r => .refused r
        | .ok v => .next (finishLoad s b t newBase v)

/-- A store of `n` bytes: `LongStore` and `ShortStore` from the offset on. The data are read before any modification, also
when `r = b` (R76, R91, R117). -/
def store (s : State) (n : Size) (fmt : Fmt) (sp : BitVec 2) (b r : Reg) (offset64 : Word)
    (newBase : Option Word) : Result :=
  match dataAddress s .write fmt sp (readGr s b) offset64 with
  | .error f => .fault f
  | .ok (off, pa) =>
    if off.toNat % n.bytes ≠ 0 then .fault (.unalignedDataReference off)
    else
      match memWrite s pa n.bytes (readGr s r) with
      | .error e => .refused e
      | .ok s' => .next (advance (writeBase s' b newBase))

/-- The position of the effective byte in its word or doubleword of `n` bytes: `off mod n` (R105, R106). -/
def lane (n : Size) (off : Word) : Nat := off.toNat % n.bytes

/-- The first address the store bytes instructions store to: the effective byte in the beginning case, byte 0 of the word
or doubleword in the ending case (R105, R106). -/
def bytesStart (n : Size) (c : BytesCmplt) (off pa : Word) : Word :=
  if bytesEnding c then pa - BitVec.ofNat 64 (lane n off) else pa

/-- How many bytes the store bytes instructions store: `n - k` in the beginning case, `k` in the ending case (R105, R106). -/
def bytesCount (n : Size) (c : BytesCmplt) (off : Word) : Nat :=
  if bytesEnding c then lane n off else n.bytes - lane n off

/-- The register value whose `bytesCount` low-order bytes are stored: bytes `k` to `n - 1` are the low-order ones already,
bytes `0` to `k - 1` are brought down (R105, R106). -/
def bytesData (n : Size) (c : BytesCmplt) (off data : Word) : Word :=
  if bytesEnding c then data >>> (8 * (n.bytes - lane n off)) else data

/-- STBY and STDBY (R105, R106). An unaligned effective address is no fault. The `,M` forms leave a free value in the base
register, since the value they write is not known to the spec (R104; assumption 3). -/
def storeBytes (s : State) (n : Size) (sp : BitVec 2) (b r : Reg) (c : BytesCmplt) (cc : BitVec 2)
    (im5 : BitVec 5) : Result :=
  if cc ≠ 0#2 ∧ s.params.runOpenForms = false then .refused .cacheHintNotModelled
  else if s.params.storeBytesModelled = false ∨ (bytesModifies c = true ∧ s.params.runOpenForms = false) then
    .refused .storeBytesNotModelled
  else
    match dataAddress s .write .short sp (readGr s b) (addOffset (readGr s b) (lowSignExt5 im5)) with
    | .error f => .fault f
    | .ok (off, pa) =>
      match memWrite s (bytesStart n c off pa) (bytesCount n c off) (bytesData n c off (readGr s r)) with
      | .error e => .refused e
      | .ok s' => .next (advance (if bytesModifies c then writeFreeBase s' b else s'))

/-- `LongLoad(n, b, t, s, d, mod)` (R76). -/
def longLoad (s : State) (n : Size) (b t : Reg) (sp : BitVec 2) (d : Word) (m : Modify) : Result :=
  let base := readGr s b
  let sum := addOffset base d
  load s n .long sp b t (longOffset m base sum) (longNewBase m sum)

/-- `LongStore(n, b, r, s, d, mod)` (R76). -/
def longStore (s : State) (n : Size) (b r : Reg) (sp : BitVec 2) (d : Word) (m : Modify) : Result :=
  let base := readGr s b
  let sum := addOffset base d
  store s n .long sp b r (longOffset m base sum) (longNewBase m sum)

/-- `ShortLoad(n, b, t, s, a, m, im5, cc)` (R91). -/
def shortLoad (s : State) (n : Size) (b t : Reg) (sp : BitVec 2) (c : ShortCmplt) (cc : BitVec 2)
    (im5 : BitVec 5) : Result :=
  if cc ≠ 0#2 ∧ s.params.runOpenForms = false then .refused .cacheHintNotModelled
  else
    let base := readGr s b
    let sum := addOffset base (lowSignExt5 im5)
    load s n .short sp b t (shortOffset c base sum) (shortNewBase c sum)

/-- `ShortStore(n, b, r, s, a, m, im5, cc)` (R91). -/
def shortStore (s : State) (n : Size) (b r : Reg) (sp : BitVec 2) (c : ShortCmplt) (cc : BitVec 2)
    (im5 : BitVec 5) : Result :=
  if cc ≠ 0#2 ∧ s.params.runOpenForms = false then .refused .cacheHintNotModelled
  else
    let base := readGr s b
    let sum := addOffset base (lowSignExt5 im5)
    store s n .short sp b r (shortOffset c base sum) (shortNewBase c sum)

/-- `IndexedLoad(n, b, x, t, s, u, m, cc)` (R109). -/
def indexedLoad (s : State) (n : Size) (b x t : Reg) (sp : BitVec 2) (c : IndexCmplt) (cc : BitVec 2) : Result :=
  if cc ≠ 0#2 ∧ s.params.runOpenForms = false then .refused .cacheHintNotModelled
  else
    let base := readGr s b
    let sum := addOffset base (indexValue c n (readGr s x))
    load s n .indexed sp b t (indexOffset c base sum) (indexNewBase c sum)

/-! ### The program text (R17, R125, R128) -/

/-- The word at the pc: word `i` stands at `pc = 4 * i`, and the end of the text ends the run (R125, R128). -/
def fetch (s : State) : Except Fault InstrWord :=
  if s.pc.toNat % 4 = 0 then
    match s.text[s.pc.toNat / 4]? with
    | some w => .ok w
    | none => .error (if s.pc.toNat / 4 = s.text.length then .endOfProgram else .noInstruction s.pc)
  else .error (.noInstruction s.pc)

/-- A program text with one word replaced; places before it that the text lacks become zero words. -/
def setWord : List InstrWord → Nat → InstrWord → List InstrWord
  | [], 0, w => [w]
  | _ :: ws, 0, w => w :: ws
  | [], n + 1, w => 0#32 :: setWord [] n w
  | v :: ws, n + 1, w => v :: setWord ws n w

end Sys2Proof.Machine
end

