-- ==== Sys2Proof/Machine/Indexed.lean ====
section
/-! DEFINITION. Indexed loads: format `IX` (43_indexed.md R110 to R113). -/

namespace Sys2Proof.Machine

/-- LDB, load byte, indexed (R110). -/
def execLdbIx (b x t : Reg) (sp : BitVec 2) (c : IndexCmplt) (cc : BitVec 2) (s : State) : Result :=
  indexedLoad s .byte b x t sp c cc

/-- LDH, load halfword, indexed (R111). -/
def execLdhIx (b x t : Reg) (sp : BitVec 2) (c : IndexCmplt) (cc : BitVec 2) (s : State) : Result :=
  indexedLoad s .half b x t sp c cc

/-- LDW, load word, indexed (R112). -/
def execLdwIx (b x t : Reg) (sp : BitVec 2) (c : IndexCmplt) (cc : BitVec 2) (s : State) : Result :=
  indexedLoad s .word b x t sp c cc

/-- LDD, load doubleword, indexed (R113). -/
def execLddIx (b x t : Reg) (sp : BitVec 2) (c : IndexCmplt) (cc : BitVec 2) (s : State) : Result :=
  indexedLoad s .double b x t sp c cc

end Sys2Proof.Machine
end

