-- ==== Sys2Proof/Machine/LongDisplacement.lean ====
section
/-! DEFINITION. Long displacement loads and stores: formats `L14`, `L11` and `L10` (40_long_displacement.md R77 to R88). -/

namespace Sys2Proof.Machine

/-- LDB, load byte, long displacement (R77). -/
def execLdbL14 (b t : Reg) (sp : BitVec 2) (im14 : BitVec 14) (s : State) : Result :=
  longLoad s .byte b t sp (dispL14 s.params.assemble16 s.pswW sp im14) .none

/-- LDH, load halfword, long displacement (R78). -/
def execLdhL14 (b t : Reg) (sp : BitVec 2) (im14 : BitVec 14) (s : State) : Result :=
  longLoad s .half b t sp (dispL14 s.params.assemble16 s.pswW sp im14) .none

/-- LDW, load word, long displacement (R79). -/
def execLdwL14 (b t : Reg) (sp : BitVec 2) (im14 : BitVec 14) (s : State) : Result :=
  longLoad s .word b t sp (dispL14 s.params.assemble16 s.pswW sp im14) .none

/-- LDW with base modification, opcode 13: `MA` if `d >= 0`, `MB` if `d < 0`, long displacement (R80). -/
def execLdwModL14 (b t : Reg) (sp : BitVec 2) (im14 : BitVec 14) (s : State) : Result :=
  let d := dispL14 s.params.assemble16 s.pswW sp im14
  longLoad s .word b t sp d (modifyByte d)

/-- STB, store byte, long displacement (R81). -/
def execStbL14 (b r : Reg) (sp : BitVec 2) (im14 : BitVec 14) (s : State) : Result :=
  longStore s .byte b r sp (dispL14 s.params.assemble16 s.pswW sp im14) .none

/-- STH, store halfword, long displacement (R82). -/
def execSthL14 (b r : Reg) (sp : BitVec 2) (im14 : BitVec 14) (s : State) : Result :=
  longStore s .half b r sp (dispL14 s.params.assemble16 s.pswW sp im14) .none

/-- STW, store word, long displacement (R83). -/
def execStwL14 (b r : Reg) (sp : BitVec 2) (im14 : BitVec 14) (s : State) : Result :=
  longStore s .word b r sp (dispL14 s.params.assemble16 s.pswW sp im14) .none

/-- STW with base modification, opcode 1B: `MA` if `d >= 0`, `MB` if `d < 0`, long displacement (R84). -/
def execStwModL14 (b r : Reg) (sp : BitVec 2) (im14 : BitVec 14) (s : State) : Result :=
  let d := dispL14 s.params.assemble16 s.pswW sp im14
  longStore s .word b r sp d (modifyByte d)

/-- LDW with base modification, opcode 17: `MB` if `d >= 0`, `MA` if `d < 0` (R85). -/
def execLdwModL11 (b t : Reg) (sp : BitVec 2) (im11a : BitVec 11) (i : BitVec 1) (s : State) : Result :=
  let d := dispL11 s.params.assemble16a s.pswW sp im11a i
  longLoad s .word b t sp d (modifyWord d)

/-- STW with base modification, opcode 1F: `MB` if `d >= 0`, `MA` if `d < 0` (R86). -/
def execStwModL11 (b r : Reg) (sp : BitVec 2) (im11a : BitVec 11) (i : BitVec 1) (s : State) : Result :=
  let d := dispL11 s.params.assemble16a s.pswW sp im11a i
  longStore s .word b r sp d (modifyWord d)

/-- LDD, load doubleword, long displacement (R87). -/
def execLddL10 (b t : Reg) (sp : BitVec 2) (im10a : BitVec 10) (i : BitVec 1) (s : State) : Result :=
  longLoad s .double b t sp (dispL10 s.params.assemble16a s.pswW sp im10a i) .none

/-- LDD,MA, long displacement (R87). -/
def execLddMaL10 (b t : Reg) (sp : BitVec 2) (im10a : BitVec 10) (i : BitVec 1) (s : State) : Result :=
  longLoad s .double b t sp (dispL10 s.params.assemble16a s.pswW sp im10a i) .ma

/-- LDD,MB, long displacement (R87). -/
def execLddMbL10 (b t : Reg) (sp : BitVec 2) (im10a : BitVec 10) (i : BitVec 1) (s : State) : Result :=
  longLoad s .double b t sp (dispL10 s.params.assemble16a s.pswW sp im10a i) .mb

/-- STD, store doubleword, long displacement (R88). -/
def execStdL10 (b r : Reg) (sp : BitVec 2) (im10a : BitVec 10) (i : BitVec 1) (s : State) : Result :=
  longStore s .double b r sp (dispL10 s.params.assemble16a s.pswW sp im10a i) .none

/-- STD,MA, long displacement (R88). -/
def execStdMaL10 (b r : Reg) (sp : BitVec 2) (im10a : BitVec 10) (i : BitVec 1) (s : State) : Result :=
  longStore s .double b r sp (dispL10 s.params.assemble16a s.pswW sp im10a i) .ma

/-- STD,MB, long displacement (R88). -/
def execStdMbL10 (b r : Reg) (sp : BitVec 2) (im10a : BitVec 10) (i : BitVec 1) (s : State) : Result :=
  longStore s .double b r sp (dispL10 s.params.assemble16a s.pswW sp im10a i) .mb

end Sys2Proof.Machine
end

