-- ==== Sys2Proof/Machine/ShortDisplacement.lean ====
section
/-! DEFINITION. Short displacement loads and stores: formats `SL` and `SS` (41_short_displacement.md R92 to R99). -/

namespace Sys2Proof.Machine

/-- LDB, load byte, short displacement (R92). -/
def execLdbSl (b t : Reg) (sp : BitVec 2) (c : ShortCmplt) (cc : BitVec 2) (im5 : BitVec 5) (s : State) : Result :=
  shortLoad s .byte b t sp c cc im5

/-- LDH, load halfword, short displacement (R93). -/
def execLdhSl (b t : Reg) (sp : BitVec 2) (c : ShortCmplt) (cc : BitVec 2) (im5 : BitVec 5) (s : State) : Result :=
  shortLoad s .half b t sp c cc im5

/-- LDW, load word, short displacement (R94). -/
def execLdwSl (b t : Reg) (sp : BitVec 2) (c : ShortCmplt) (cc : BitVec 2) (im5 : BitVec 5) (s : State) : Result :=
  shortLoad s .word b t sp c cc im5

/-- LDD, load doubleword, short displacement (R95). -/
def execLddSl (b t : Reg) (sp : BitVec 2) (c : ShortCmplt) (cc : BitVec 2) (im5 : BitVec 5) (s : State) : Result :=
  shortLoad s .double b t sp c cc im5

/-- STB, store byte, short displacement (R96). -/
def execStbSs (b r : Reg) (sp : BitVec 2) (c : ShortCmplt) (cc : BitVec 2) (im5 : BitVec 5) (s : State) : Result :=
  shortStore s .byte b r sp c cc im5

/-- STH, store halfword, short displacement (R97). -/
def execSthSs (b r : Reg) (sp : BitVec 2) (c : ShortCmplt) (cc : BitVec 2) (im5 : BitVec 5) (s : State) : Result :=
  shortStore s .half b r sp c cc im5

/-- STW, store word, short displacement (R98). -/
def execStwSs (b r : Reg) (sp : BitVec 2) (c : ShortCmplt) (cc : BitVec 2) (im5 : BitVec 5) (s : State) : Result :=
  shortStore s .word b r sp c cc im5

/-- STD, store doubleword, short displacement (R99). -/
def execStdSs (b r : Reg) (sp : BitVec 2) (c : ShortCmplt) (cc : BitVec 2) (im5 : BitVec 5) (s : State) : Result :=
  shortStore s .double b r sp c cc im5

end Sys2Proof.Machine
end

