-- ==== Sys2Proof/Machine/StoreBytes.lean ====
section
/-! DEFINITION. STORE BYTES and STORE DOUBLEWORD BYTES (42_store_bytes.md R105, R106). -/

namespace Sys2Proof.Machine

/-- STBY, STORE BYTES: the word that holds the effective byte (R105). -/
def execStbySs (b r : Reg) (sp : BitVec 2) (c : BytesCmplt) (cc : BitVec 2) (im5 : BitVec 5) (s : State) : Result :=
  storeBytes s .word sp b r c cc im5

/-- STDBY, STORE DOUBLEWORD BYTES: the doubleword that holds the effective byte (R106). -/
def execStdbySs (b r : Reg) (sp : BitVec 2) (c : BytesCmplt) (cc : BitVec 2) (im5 : BitVec 5) (s : State) : Result :=
  storeBytes s .double sp b r c cc im5

end Sys2Proof.Machine
end

