-- ==== Sys2Proof/Machine/Dispatch.lean ====
section
/-! DEFINITION. The dispatch: one arm per constructor of `Instr`, each one direct call of that instruction's meaning. -/

namespace Sys2Proof.Machine

open Sys2Proof

def exec (i : Instr) (s : State) : Host.Outcome State Fault Refusal :=
  match i with
  | .ldbL14 b t sp im14 => Sys2Proof.Machine.execLdbL14 b t sp im14 s
  | .ldhL14 b t sp im14 => Sys2Proof.Machine.execLdhL14 b t sp im14 s
  | .ldwL14 b t sp im14 => Sys2Proof.Machine.execLdwL14 b t sp im14 s
  | .ldwModL14 b t sp im14 => Sys2Proof.Machine.execLdwModL14 b t sp im14 s
  | .stbL14 b r sp im14 => Sys2Proof.Machine.execStbL14 b r sp im14 s
  | .sthL14 b r sp im14 => Sys2Proof.Machine.execSthL14 b r sp im14 s
  | .stwL14 b r sp im14 => Sys2Proof.Machine.execStwL14 b r sp im14 s
  | .stwModL14 b r sp im14 => Sys2Proof.Machine.execStwModL14 b r sp im14 s
  | .ldwModL11 b t sp im11a sg => Sys2Proof.Machine.execLdwModL11 b t sp im11a sg s
  | .stwModL11 b r sp im11a sg => Sys2Proof.Machine.execStwModL11 b r sp im11a sg s
  | .lddL10 b t sp im10a sg => Sys2Proof.Machine.execLddL10 b t sp im10a sg s
  | .lddMaL10 b t sp im10a sg => Sys2Proof.Machine.execLddMaL10 b t sp im10a sg s
  | .lddMbL10 b t sp im10a sg => Sys2Proof.Machine.execLddMbL10 b t sp im10a sg s
  | .stdL10 b r sp im10a sg => Sys2Proof.Machine.execStdL10 b r sp im10a sg s
  | .stdMaL10 b r sp im10a sg => Sys2Proof.Machine.execStdMaL10 b r sp im10a sg s
  | .stdMbL10 b r sp im10a sg => Sys2Proof.Machine.execStdMbL10 b r sp im10a sg s
  | .ldbSl b t sp c cc im5 => Sys2Proof.Machine.execLdbSl b t sp c cc im5 s
  | .ldhSl b t sp c cc im5 => Sys2Proof.Machine.execLdhSl b t sp c cc im5 s
  | .ldwSl b t sp c cc im5 => Sys2Proof.Machine.execLdwSl b t sp c cc im5 s
  | .lddSl b t sp c cc im5 => Sys2Proof.Machine.execLddSl b t sp c cc im5 s
  | .stbSs b r sp c cc im5 => Sys2Proof.Machine.execStbSs b r sp c cc im5 s
  | .sthSs b r sp c cc im5 => Sys2Proof.Machine.execSthSs b r sp c cc im5 s
  | .stwSs b r sp c cc im5 => Sys2Proof.Machine.execStwSs b r sp c cc im5 s
  | .stdSs b r sp c cc im5 => Sys2Proof.Machine.execStdSs b r sp c cc im5 s
  | .stbySs b r sp c cc im5 => Sys2Proof.Machine.execStbySs b r sp c cc im5 s
  | .stdbySs b r sp c cc im5 => Sys2Proof.Machine.execStdbySs b r sp c cc im5 s
  | .ldbIx b x t sp c cc => Sys2Proof.Machine.execLdbIx b x t sp c cc s
  | .ldhIx b x t sp c cc => Sys2Proof.Machine.execLdhIx b x t sp c cc s
  | .ldwIx b x t sp c cc => Sys2Proof.Machine.execLdwIx b x t sp c cc s
  | .lddIx b x t sp c cc => Sys2Proof.Machine.execLddIx b x t sp c cc s

end Sys2Proof.Machine
end

