-- ==== Sys2Proof/Machine/Step.lean ====
section
/-! DEFINITION. One step: fetch the word at the pc, decode it, execute it. An interrupt never arrives between two steps
(60_exceptions.md R118; assumption 10). -/

namespace Sys2Proof.Machine

/-- One step of the machine, the word decoded by the launch's table (R3, R17, R68, R128). Nothing is added around `exec`: every instruction advances the pc itself. -/
def step (s : State) : Host.Outcome State Fault Refusal :=
  match fetch s with
  | .error f => .fault f
  | .ok w =>
    match decodeWith s.params.decodeTable w with
    | .error (.notInScope w') => .refused (.notInScope w')
    | .ok i => exec i s

/-- The state with an instruction placed where `step` fetches its next one: the word of the program text at the pc
(assumption 9). -/
def State.withFetchWord (s : State) (nbits w : Nat) : State :=
  { s with text := setWord s.text (s.pc.toNat / 4) (BitVec.ofNat 32 (w % 2 ^ nbits)) }

end Sys2Proof.Machine
end

