-- ==== Sys2Proof/Safety.lean ====
section
/-! DEFINITION. The terms claims are stated in: the invariant of the machine, what a launch fixes for a run, the value of a
range of bytes, the forms of each family with their operands, and when an access can be made. -/

namespace Sys2Proof.Safety

open Sys2Proof.Machine

/-! ### The invariant -/

/-- Memory is in its canonical form. -/
abbrev MemoryCanonical (s : State) : Prop := Memory.wf s.mem = true

/-- Every listed byte is one the launch allocates (R41, R125). -/
abbrev CellsAllocated (s : State) : Prop := ∀ c ∈ s.mem, allocated s.alloc c.1 = true

/-- Entry 0 of the register file, which nothing reads, is zero (R11). -/
abbrev ZeroEntry (s : State) : Prop := s.gr[0] = 0#64

/-- The pc is a multiple of 4 and stands at a word of the program text or at its end, and the end is an address (R17,
R128). -/
abbrev PcInText (s : State) : Prop :=
  s.pc.toNat % 4 = 0 ∧ s.pc.toNat ≤ 4 * s.text.length ∧ 4 * s.text.length < 2 ^ 64

/-- The invariant every step keeps. -/
abbrev Inv (s : State) : Prop := MemoryCanonical s ∧ CellsAllocated s ∧ ZeroEntry s ∧ PcInText s

/-- The two states have the same program, mode bits, space registers, allocation and parameters: everything a
launch fixes for the run (R13 to R15, R47, R125). -/
structure SameLaunch (s t : State) : Prop where
  sr : t.sr = s.sr
  pswW : t.pswW = s.pswW
  dataTranslation : t.dataTranslation = s.dataTranslation
  text : t.text = s.text
  alloc : t.alloc = s.alloc
  params : t.params = s.params

/-! ### Values and accesses -/

/-- The number the `n` bytes from `a` on spell, the byte at `a` most significant (R43). -/
def bigEndian (m : List Host.Cell) (a : Nat) : Nat → Nat
  | 0 => 0
  | n + 1 => bigEndian m a n * 256 + (lookupByte m (a + n)).toNat

/-- Byte `j` of the `n` low-order bytes of a register value, numbered from the left as memory bytes are (R43, R105). -/
def byteOf (n j : Nat) (v : Word) : Byte := v.extractLsb' (8 * (n - 1 - j)) 8

/-- All `n` bytes from `a` on are allocated (R41). -/
abbrev AllAllocated (s : State) (a n : Nat) : Prop := ∀ j, j < n → allocated s.alloc (a + j) = true

/-- An aligned access of size `n` at `offset64` from base register `b` reaches the allocated bytes from `pa` on (R24, R41,
R44). -/
structure Reaches (s : State) (k : Access) (fmt : Fmt) (n : Size) (sp : BitVec 2) (b : Reg) (offset64 off pa : Word) :
    Prop where
  address : dataAddress s k fmt sp (readGr s b) offset64 = .ok (off, pa)
  aligned : off.toNat % n.bytes = 0
  present : AllAllocated s pa.toNat n.bytes

/-! ### The forms of each family, with their operands -/

/-- A long displacement form: size, base, target or source, s-field, displacement and modification (R75, R76). -/
structure LongForm where
  size : Size
  b : Reg
  other : Reg
  sp : BitVec 2
  d : Word
  mod : Modify
  deriving DecidableEq, Repr

/-- The eight long displacement loads, whose displacements PSW W-bit and the launch decide (R60, R77 to R80, R85, R87). -/
def longLoadForm (s : State) : Instr → Option LongForm
  | .ldbL14 b t sp im14 => some ⟨.byte, b, t, sp, dispL14 s.params.assemble16 s.pswW sp im14, .none⟩
  | .ldhL14 b t sp im14 => some ⟨.half, b, t, sp, dispL14 s.params.assemble16 s.pswW sp im14, .none⟩
  | .ldwL14 b t sp im14 => some ⟨.word, b, t, sp, dispL14 s.params.assemble16 s.pswW sp im14, .none⟩
  | .ldwModL14 b t sp im14 =>
    let d := dispL14 s.params.assemble16 s.pswW sp im14
    some ⟨.word, b, t, sp, d, if 0 ≤ d.toInt then .ma else .mb⟩
  | .ldwModL11 b t sp im11a i =>
    let d := dispL11 s.params.assemble16a s.pswW sp im11a i
    some ⟨.word, b, t, sp, d, if 0 ≤ d.toInt then .mb else .ma⟩
  | .lddL10 b t sp im10a i => some ⟨.double, b, t, sp, dispL10 s.params.assemble16a s.pswW sp im10a i, .none⟩
  | .lddMaL10 b t sp im10a i => some ⟨.double, b, t, sp, dispL10 s.params.assemble16a s.pswW sp im10a i, .ma⟩
  | .lddMbL10 b t sp im10a i => some ⟨.double, b, t, sp, dispL10 s.params.assemble16a s.pswW sp im10a i, .mb⟩
  | _ => none

/-- The eight long displacement stores (R81 to R84, R86, R88). -/
def longStoreForm (s : State) : Instr → Option LongForm
  | .stbL14 b r sp im14 => some ⟨.byte, b, r, sp, dispL14 s.params.assemble16 s.pswW sp im14, .none⟩
  | .sthL14 b r sp im14 => some ⟨.half, b, r, sp, dispL14 s.params.assemble16 s.pswW sp im14, .none⟩
  | .stwL14 b r sp im14 => some ⟨.word, b, r, sp, dispL14 s.params.assemble16 s.pswW sp im14, .none⟩
  | .stwModL14 b r sp im14 =>
    let d := dispL14 s.params.assemble16 s.pswW sp im14
    some ⟨.word, b, r, sp, d, if 0 ≤ d.toInt then .ma else .mb⟩
  | .stwModL11 b r sp im11a i =>
    let d := dispL11 s.params.assemble16a s.pswW sp im11a i
    some ⟨.word, b, r, sp, d, if 0 ≤ d.toInt then .mb else .ma⟩
  | .stdL10 b r sp im10a i => some ⟨.double, b, r, sp, dispL10 s.params.assemble16a s.pswW sp im10a i, .none⟩
  | .stdMaL10 b r sp im10a i => some ⟨.double, b, r, sp, dispL10 s.params.assemble16a s.pswW sp im10a i, .ma⟩
  | .stdMbL10 b r sp im10a i => some ⟨.double, b, r, sp, dispL10 s.params.assemble16a s.pswW sp im10a i, .mb⟩
  | _ => none

/-- A short displacement form (R89, R91). -/
structure ShortForm where
  size : Size
  b : Reg
  other : Reg
  sp : BitVec 2
  c : ShortCmplt
  cc : BitVec 2
  im5 : BitVec 5
  deriving DecidableEq, Repr

/-- The four short displacement loads (R92 to R95). -/
def shortLoadForm : Instr → Option ShortForm
  | .ldbSl b t sp c cc im5 => some ⟨.byte, b, t, sp, c, cc, im5⟩
  | .ldhSl b t sp c cc im5 => some ⟨.half, b, t, sp, c, cc, im5⟩
  | .ldwSl b t sp c cc im5 => some ⟨.word, b, t, sp, c, cc, im5⟩
  | .lddSl b t sp c cc im5 => some ⟨.double, b, t, sp, c, cc, im5⟩
  | _ => none

/-- The four short displacement stores (R96 to R99). -/
def shortStoreForm : Instr → Option ShortForm
  | .stbSs b r sp c cc im5 => some ⟨.byte, b, r, sp, c, cc, im5⟩
  | .sthSs b r sp c cc im5 => some ⟨.half, b, r, sp, c, cc, im5⟩
  | .stwSs b r sp c cc im5 => some ⟨.word, b, r, sp, c, cc, im5⟩
  | .stdSs b r sp c cc im5 => some ⟨.double, b, r, sp, c, cc, im5⟩
  | _ => none

/-- A store bytes form (R105, R106). -/
structure BytesForm where
  size : Size
  b : Reg
  r : Reg
  sp : BitVec 2
  c : BytesCmplt
  cc : BitVec 2
  im5 : BitVec 5
  deriving DecidableEq, Repr

/-- STBY and STDBY (R105, R106). -/
def bytesForm : Instr → Option BytesForm
  | .stbySs b r sp c cc im5 => some ⟨.word, b, r, sp, c, cc, im5⟩
  | .stdbySs b r sp c cc im5 => some ⟨.double, b, r, sp, c, cc, im5⟩
  | _ => none

/-- An indexed form (R108, R109). -/
structure IndexForm where
  size : Size
  b : Reg
  x : Reg
  t : Reg
  sp : BitVec 2
  c : IndexCmplt
  cc : BitVec 2
  deriving DecidableEq, Repr

/-- The four indexed loads (R110 to R113). -/
def indexForm : Instr → Option IndexForm
  | .ldbIx b x t sp c cc => some ⟨.byte, b, x, t, sp, c, cc⟩
  | .ldhIx b x t sp c cc => some ⟨.half, b, x, t, sp, c, cc⟩
  | .ldwIx b x t sp c cc => some ⟨.word, b, x, t, sp, c, cc⟩
  | .lddIx b x t sp c cc => some ⟨.double, b, x, t, sp, c, cc⟩
  | _ => none

/-- The cache control hint of the formats that have one (R64). -/
def hintOf : Instr → Option (BitVec 2)
  | .ldbSl _ _ _ _ cc _ | .ldhSl _ _ _ _ cc _ | .ldwSl _ _ _ _ cc _ | .lddSl _ _ _ _ cc _ => some cc
  | .stbSs _ _ _ _ cc _ | .sthSs _ _ _ _ cc _ | .stwSs _ _ _ _ cc _ | .stdSs _ _ _ _ cc _ => some cc
  | .stbySs _ _ _ _ cc _ | .stdbySs _ _ _ _ cc _ => some cc
  | .ldbIx _ _ _ _ _ cc | .ldhIx _ _ _ _ _ cc | .ldwIx _ _ _ _ _ cc | .lddIx _ _ _ _ _ cc => some cc
  | _ => none

/-- The instruction with its cache control hint cleared; unchanged where the format has none (R64). -/
def withoutHint : Instr → Instr
  | .ldbSl b t sp c _ d => .ldbSl b t sp c 0#2 d
  | .ldhSl b t sp c _ d => .ldhSl b t sp c 0#2 d
  | .ldwSl b t sp c _ d => .ldwSl b t sp c 0#2 d
  | .lddSl b t sp c _ d => .lddSl b t sp c 0#2 d
  | .stbSs b r sp c _ d => .stbSs b r sp c 0#2 d
  | .sthSs b r sp c _ d => .sthSs b r sp c 0#2 d
  | .stwSs b r sp c _ d => .stwSs b r sp c 0#2 d
  | .stdSs b r sp c _ d => .stdSs b r sp c 0#2 d
  | .stbySs b r sp c _ d => .stbySs b r sp c 0#2 d
  | .stdbySs b r sp c _ d => .stdbySs b r sp c 0#2 d
  | .ldbIx b x t sp c _ => .ldbIx b x t sp c 0#2
  | .ldhIx b x t sp c _ => .ldhIx b x t sp c 0#2
  | .ldwIx b x t sp c _ => .ldwIx b x t sp c 0#2
  | .lddIx b x t sp c _ => .lddIx b x t sp c 0#2
  | i => i

/-! ### Operands as the tables of the spec give them -/

/-- The offset a long displacement form addresses: `GR[b] + sext(d)`, or `GR[b]` alone for `MA` (R75). -/
def LongForm.offset (f : LongForm) (s : State) : Word :=
  if f.mod = .ma then readGr s f.b else readGr s f.b + f.d

/-- The offset a short displacement form addresses (R89). -/
def ShortForm.offset (f : ShortForm) (s : State) : Word :=
  if f.c = .ma ∨ f.c = .o then readGr s f.b else readGr s f.b + lowSignExt5 f.im5

/-- A short displacement form modifies its base: `MA` and `MB` (R89, R90). -/
abbrev ShortForm.modifies (f : ShortForm) : Prop := f.c = .ma ∨ f.c = .mb

/-- The index of an indexed form: `GR[x]`, multiplied by the size in bytes for `S` and `SM`, modulo 2^64 (R108). -/
def IndexForm.index (f : IndexForm) (s : State) : Word :=
  if f.c = .s ∨ f.c = .sm then readGr s f.x * BitVec.ofNat 64 f.size.bytes else readGr s f.x

/-- An indexed form modifies its base: `M` and `SM` (R108). -/
abbrev IndexForm.modifies (f : IndexForm) : Prop := f.c = .m ∨ f.c = .sm

/-- The offset an indexed form addresses (R108). -/
def IndexForm.offset (f : IndexForm) (s : State) : Word :=
  if f.modifies then readGr s f.b else readGr s f.b + f.index s

/-- A store bytes form modifies its base: `B,M` and `E,M` (R62). -/
abbrev BytesForm.modifies (f : BytesForm) : Prop := f.c = .bm ∨ f.c = .em

/-- A store bytes form is an ending case: `E` and `E,M` (R62). -/
abbrev BytesForm.ending (f : BytesForm) : Prop := f.c = .e ∨ f.c = .em

/-- The address formation of a store bytes form answers (R103). -/
abbrev BytesForm.addresses (f : BytesForm) (s : State) (off pa : Word) : Prop :=
  dataAddress s .write .short f.sp (readGr s f.b) (readGr s f.b + lowSignExt5 f.im5) = .ok (off, pa)

/-- The position of the effective byte in its word or doubleword (R105, R106). -/
def BytesForm.position (f : BytesForm) (off : Word) : Nat := off.toNat % f.size.bytes

/-- Byte `j` of the word or doubleword is stored: from the effective byte on in the beginning case, before it in the
ending case (R105, R106). -/
abbrev BytesForm.stores (f : BytesForm) (off : Word) (j : Nat) : Prop :=
  j < f.size.bytes ∧ if f.ending then j < f.position off else f.position off ≤ j

/-- The launch lets an instruction with hint `cc` execute (R47; assumption 2). -/
abbrev HintAdmitted (s : State) (cc : BitVec 2) : Prop := cc = 0#2 ∨ s.params.runOpenForms = true

/-! ### Frames -/

/-- What a completed load may change: its target, a modified base, the pc and, where `t = b` is modified, the free value
counter. Registers, memory and launch are otherwise as before (R74 to R76). -/
structure LoadFrame (s u : State) (b t : Reg) (modifies : Prop) : Prop where
  registers : ∀ g, g ≠ t → (modifies → g ≠ b) → readGr u g = readGr s g
  memory : ∀ a, lookupByte u.mem a = lookupByte s.mem a
  pc : u.pc = s.pc + 4#64
  launch : SameLaunch s u
  free : ¬ (modifies ∧ t = b) → u.freeCount = s.freeCount

/-- What a completed store of the `n` bytes from `pa` on may change: those bytes, a modified base and the pc
(R74 to R76). -/
structure StoreFrame (s u : State) (b : Reg) (modifies : Prop) (pa : Word) (n : Nat) : Prop where
  registers : ∀ g, (modifies → g ≠ b) → readGr u g = readGr s g
  memory : ∀ a, a < pa.toNat ∨ pa.toNat + n ≤ a → lookupByte u.mem a = lookupByte s.mem a
  pc : u.pc = s.pc + 4#64
  launch : SameLaunch s u
  free : u.freeCount = s.freeCount

/-- An outcome with a function applied to its next state. -/
def mapNext (g : State → State) : Result → Result
  | .next s => .next (g s)
  | .fault f => .fault f
  | .refused r => .refused r

end Sys2Proof.Safety
end

