-- ==== Sys2Proof/Certificates/Slice0/Obligations.lean ====
section
/-! DEFINITION. The statements for the provers. Each docstring says which words of the spec it formalises; a clause that rests
on the model's own choice names the log entry. -/

open Sys2Proof Sys2Proof.Machine Sys2Proof.Safety

/-! ### Encoding -/

/-- Decoding an encoded well-formed instruction gives it back, with every operand at every value (30_encoding.md, R49 to
R54, R61 to R63, R69). -/
def Obligations.DecodeOfEncode : Prop :=
  ∀ i : Instr, WellFormed i = true → decode (encode i) = .ok i

/-- A decoded word is well formed and is one of its own row of the opcode table (INDEX.md: "a 32-bit word `w` is the row's
instruction when `w AND mask = match`"). -/
def Obligations.DecodedWordMatchesItsRow : Prop :=
  ∀ (w : InstrWord) (i : Instr), decode w = .ok i → WellFormed i = true ∧ (opcodeRow i).matchesWord w = true

/-- The decoder rejects exactly the words that match no row of the opcode table, and names the word (INDEX.md: "A word that
matches no row is `refuse NotInScope`"). -/
def Obligations.DecoderRejectsExactlyUnmatchedWords : Prop :=
  ∀ w : InstrWord,
    ((∃ r, decode w = .error r) ↔ ∀ row ∈ opcodeRows, row.matchesWord w = false) ∧
    (∀ r, decode w = .error r → r = .notInScope w)

/-- INDEX.md: "No two rows match the same word." -/
def Obligations.RowsAreDisjoint : Prop :=
  opcodeRows.Pairwise fun p q => ∀ w : InstrWord, ¬ (p.matchesWord w = true ∧ q.matchesWord w = true)

/-- Encoding a decoded word gives the word back, but for the bit `a` that Table H-1 calls "don't care" when `m = 0`, which
the encoder writes as 0 (R61; 93_implementation_defined.md I5; assumption 29). So no other bit is dropped, and none of a store
bytes word, whose `ext4` is `C` or `D` (assumption 7) and whose bit `a` chooses `B` or `E` by Table H-2 (R62). -/
def Obligations.EncodeOfDecodedWord : Prop :=
  ∀ (w : InstrWord) (i : Instr), decode w = .ok i →
    encode i = w ∨
    (fieldOp w = 0x03#6 ∧ fieldShort w = 1#1 ∧ fieldExt4 w < 0xC#4 ∧ fieldM w = 0#1 ∧
      encode i = w &&& ~~~0x00002000#32)

/-- The default of the parameter `DecodeTable` decodes as the procedure of R69 does: the rows of the opcode table, taken in
order, and the tests of `Decode(inst)` give the same answer for every word (00_scope.md section 4; 30_encoding.md section 7). -/
def Obligations.DefaultTableDecodesAsProcedure : Prop :=
  ∀ w : InstrWord, decodeWith opcodeTable w = decode w

/-- Decoding by any table a launch substitutes (decision D21) is total and never gives a term without an encoding: a word is
rejected, by name, exactly when no row matches it, and what any row reads is well formed. -/
def Obligations.AnyTableDecodesOrRejectsByName : Prop :=
  ∀ (table : List DecodeRow) (w : InstrWord),
    ((∃ r, decodeWith table w = .error r) ↔ ∀ row ∈ table, row.words.matchesWord w = false) ∧
    (∀ r, decodeWith table w = .error r → r = .notInScope w) ∧
    (∀ i, decodeWith table w = .ok i → WellFormed i = true)

/-- Words the spec writes out, one for each format and family (R77, R80, R85, R87, R94, R98, R105, R112). -/
def Obligations.SpecWordsDecode : Prop :=
  decode 0x4064000A#32 = .ok (.ldbL14 3 4 0 0x000A) ∧
  decode 0x4C643FF1#32 = .ok (.ldwModL14 3 4 0 0x3FF1) ∧
  decode 0x5C643FF5#32 = .ok (.ldwModL11 3 4 0 0x7FE 1) ∧
  decode 0x50643FFD#32 = .ok (.lddMbL10 3 4 0 0x3FF 1) ∧
  decode 0x0C68D084#32 = .ok (.ldwSl 3 4 3 .plain 0 0b01000) ∧
  decode 0x0FC732B9#32 = .ok (.stwSs 30 7 0 .mb 0 0b11001) ∧
  decode 0x0D07333F#32 = .ok (.stbySs 8 7 0 .em 0 0b11111) ∧
  decode 0x0C65A0A4#32 = .ok (.ldwIx 3 5 4 2 .sm 0)

/-- Table H-1, all of it: "a = 0 modify after if m = 1. a = 1 modify before if m = 1. m = 0 no address modification", and
"the combination a = 0, m = 1, and im5 = 0 specifies an ordered load or store" (R61); and every word of the formats `SL` and
`SS` that is no store bytes word has the completer the table gives for its bits `a` (bit 13), `m` (bit 5) and its
displacement field. Which `ext4` values those words have (0 to 3 and 8 to B) is the spec's general knowledge (R66; G10;
assumption 7). -/
def Obligations.ShortCompleterTable : Prop :=
  (∀ (a m : BitVec 1) (im5 : BitVec 5),
    (m = 0#1 → shortCompleter a m im5 = .plain) ∧
    (a = 0#1 → m = 1#1 → im5 ≠ 0#5 → shortCompleter a m im5 = .ma) ∧
    (a = 1#1 → m = 1#1 → shortCompleter a m im5 = .mb) ∧
    (a = 0#1 → m = 1#1 → im5 = 0#5 → shortCompleter a m im5 = .o)) ∧
  (∀ w : InstrWord, fieldOp w = 0x03#6 → fieldShort w = 1#1 → fieldExt4 w < 0x4#4 →
    ∃ i f, decode w = .ok i ∧ shortLoadForm i = some f ∧ f.im5 = w.extractLsb' 16 5 ∧
      f.c = shortCompleter (w.extractLsb' 13 1) (w.extractLsb' 5 1) f.im5) ∧
  (∀ w : InstrWord, fieldOp w = 0x03#6 → fieldShort w = 1#1 → 0x8#4 ≤ fieldExt4 w → fieldExt4 w < 0xC#4 →
    ∃ i f, decode w = .ok i ∧ shortStoreForm i = some f ∧ f.im5 = w.extractLsb' 0 5 ∧
      f.c = shortCompleter (w.extractLsb' 13 1) (w.extractLsb' 5 1) f.im5)

/-- Table H-2, all of it: "a = 0 store bytes beginning at the effective byte address in the word or doubleword. a = 1 store
bytes ending at the effective byte address in the word or doubleword. m = 0 no address modification. m = 1 address
modification" (R62): every STORE BYTES and STORE DOUBLEWORD BYTES word, `im5 = 0` not excepted, is an ending case exactly when
its bit `a` is 1, modifies its base exactly when its bit `m` is 1, and has the completer of the table. That `ext4` C and D
are these two instructions is the spec's general knowledge (R66, R101; G10; assumption 7). -/
def Obligations.StoreBytesCompleterTable : Prop :=
  (bytesCompleter 0 0 = .b ∧ bytesCompleter 0 1 = .bm ∧ bytesCompleter 1 0 = .e ∧ bytesCompleter 1 1 = .em) ∧
  (∀ w : InstrWord, fieldOp w = 0x03#6 → fieldShort w = 1#1 → fieldExt4 w = 0xC#4 ∨ fieldExt4 w = 0xD#4 →
    ∃ i f, decode w = .ok i ∧ bytesForm i = some f ∧
      f.c = bytesCompleter (w.extractLsb' 13 1) (w.extractLsb' 5 1) ∧
      (f.ending ↔ w.extractLsb' 13 1 = 1#1) ∧ (f.modifies ↔ w.extractLsb' 5 1 = 1#1))

/-- Table H-3, all of it (R63): every indexed word has the completer the table gives for its bits `u` (bit 13) and `m`
(bit 5), modifies its base exactly when `m` is 1, and is one of the two shifted completers exactly when `u` is 1. Which
words are indexed, and where `u` and `m` stand in them, is the spec's general knowledge (R54, R65, R66; G8, G10;
assumption 7). -/
def Obligations.IndexCompleterTable : Prop :=
  (indexCompleter 0 0 = .plain ∧ indexCompleter 0 1 = .m ∧ indexCompleter 1 0 = .s ∧ indexCompleter 1 1 = .sm) ∧
  (∀ w : InstrWord, fieldOp w = 0x03#6 → fieldShort w = 0#1 → fieldExt4 w < 0x4#4 →
    ∃ i f, decode w = .ok i ∧ indexForm i = some f ∧
      f.c = indexCompleter (w.extractLsb' 13 1) (w.extractLsb' 5 1) ∧
      (f.modifies ↔ w.extractLsb' 5 1 = 1#1) ∧ (f.c = .s ∨ f.c = .sm ↔ w.extractLsb' 13 1 = 1#1))

/-! ### Displacements -/

/-- The value of a low-sign-extended field: `low_sign_ext(F, n) = (F >> 1) - (F & 1) * 2^(n-1)` (R55), for the short
displacement and for the long byte displacement with PSW W-bit 0. The order of the other bits is the spec's general
knowledge (93_implementation_defined.md G5; assumption 7). -/
def Obligations.LowSignExtensionValue : Prop :=
  (∀ f : BitVec 5, (lowSignExt5 f).toInt = (f.toNat / 2 : Nat) - (f.toNat % 2 : Nat) * 2 ^ 4) ∧
  (∀ f : BitVec 14, (lowSignExt14 f).toInt = (f.toNat / 2 : Nat) - (f.toNat % 2 : Nat) * 2 ^ 13)

/-- The byte displacement of every long format as a number: with PSW W-bit 0 the field, whatever the packing; with PSW
W-bit 1 and the default packing the field extended by the two s-field bits, each exclusive-ORed with the sign. The packing is
the spec's default from general knowledge (G4; assumption 7). -/
def Obligations.LongDisplacementValues : Prop :=
  (∀ (a : Assembly) (sp : BitVec 2) (f : BitVec 14),
    (dispL14 a false sp f).toInt = (f.toNat / 2 : Nat) - (f.toNat % 2 : Nat) * 2 ^ 13 ∧
    (dispL14 .signXor true sp f).toInt =
      (f.toNat / 2 : Nat) + ((f.toNat + sp.toNat) % 2 : Nat) * 2 ^ 13
        + ((f.toNat + sp.toNat / 2) % 2 : Nat) * 2 ^ 14 - (f.toNat % 2 : Nat) * 2 ^ 15) ∧
  (∀ (a : Assembly) (sp : BitVec 2) (f : BitVec 11) (i : BitVec 1),
    (dispL11 a false sp f i).toInt = (f.toNat * 4 : Nat) - (i.toNat : Int) * 2 ^ 13 ∧
    (dispL11 .signXor true sp f i).toInt =
      (f.toNat * 4 : Nat) + ((i.toNat + sp.toNat) % 2 : Nat) * 2 ^ 13
        + ((i.toNat + sp.toNat / 2) % 2 : Nat) * 2 ^ 14 - (i.toNat : Int) * 2 ^ 15) ∧
  (∀ (a : Assembly) (sp : BitVec 2) (f : BitVec 10) (i : BitVec 1),
    (dispL10 a false sp f i).toInt = (f.toNat * 8 : Nat) - (i.toNat : Int) * 2 ^ 13 ∧
    (dispL10 .signXor true sp f i).toInt =
      (f.toNat * 8 : Nat) + ((i.toNat + sp.toNat) % 2 : Nat) * 2 ^ 13
        + ((i.toNat + sp.toNat / 2) % 2 : Nat) * 2 ^ 14 - (i.toNat : Int) * 2 ^ 15)

/-- What the source fixes of every packing (30_encoding.md section 5; decision D2): under either PSW W-bit a long displacement
is "an effective 16-bit displacement" whose sign is instruction bit 31, in whole words for `L11` and whole doublewords for
`L10`. That it holds of every packing a launch can name is by the model's construction (assumption 7). -/
def Obligations.EveryPackingKeepsSignRangeAndScale : Prop :=
  ∀ (a : Assembly) (w : Bool) (sp : BitVec 2),
    (∀ f, -2 ^ 15 ≤ (dispL14 a w sp f).toInt ∧ (dispL14 a w sp f).toInt < 2 ^ 15 ∧
      ((dispL14 a w sp f).toInt < 0 ↔ f.toNat % 2 = 1)) ∧
    (∀ f i, -2 ^ 15 ≤ (dispL11 a w sp f i).toInt ∧ (dispL11 a w sp f i).toInt < 2 ^ 15 ∧
      (dispL11 a w sp f i).toInt % 4 = 0 ∧ ((dispL11 a w sp f i).toInt < 0 ↔ i = 1#1)) ∧
    (∀ f i, -2 ^ 15 ≤ (dispL10 a w sp f i).toInt ∧ (dispL10 a w sp f i).toInt < 2 ^ 15 ∧
      (dispL10 a w sp f i).toInt % 8 = 0 ∧ ((dispL10 a w sp f i).toInt < 0 ↔ i = 1#1))

/-- "the encoding for displacements which do not require the additional 2 bits of range to be the same for 32-bit and for
64-bit programs" (R57): with `s = 0` every long displacement is the same under both values of PSW W-bit, in every packing. -/
def Obligations.NarrowDisplacementsAgreeAcrossWidths : Prop :=
  ∀ a : Assembly,
    (∀ f, dispL14 a true 0#2 f = dispL14 a false 0#2 f) ∧
    (∀ f i, dispL11 a true 0#2 f i = dispL11 a false 0#2 f i) ∧
    (∀ f i, dispL10 a true 0#2 f i = dispL10 a false 0#2 f i)

/-! ### Address formation -/

/-- Space selection of a long displacement reference: the register number for each value of PSW W-bit and the s-field
(20_memory.md section 3), its contents as the effective space ID, and, with translation disabled, no selection at all. What is
done with the space then, the combination with the offset and the translation, is the launch's layout and rows (decisions D3,
D4; assumption 6). -/
def Obligations.LongSpaceSelection : Prop :=
  ∀ (s : State) (k : Access) (sp : BitVec 2) (base o : Word),
    (s.dataTranslation = true → ∃ n : BitVec 3,
      n.toNat = (if s.pswW = true then 4 + base.toNat / 2 ^ 62
        else if sp = 0#2 then 4 + base.toNat / 2 ^ 30 % 4 else sp.toNat) ∧
      dataAddress s k .long sp base o =
        let off := narrowOffset s.pswW o
        let va := vaCombine s.params.vaLayout (readSr s n) off
        match translateVa s.params.translations k va off with
        | some pa => .ok (off, pa)
        | none => .error (.dataTranslationFault va k)) ∧
    (s.dataTranslation = false →
      dataAddress s k .long sp base o =
        .ok (narrowOffset s.pswW o, absToPhys s.pswW (narrowOffset s.pswW o)))

/-- Space selection of the short displacement, store bytes and indexed formats: as for long displacements with PSW W-bit
0; with PSW W-bit 1 a non-zero s-field names the register when `EXPLICIT_SPACE_W1` is set (20_memory.md R26, which rests
on decision D1; assumption 8). The register is one of 1 to 7, and its contents are the space of the virtual address,
whose layout and translation are the launch's (20_memory.md section 4; decisions D3, D4; assumption 6). -/
def Obligations.ShortAndIndexedSpaceSelection : Prop :=
  ∀ (s : State) (k : Access) (fmt : Fmt) (sp : BitVec 2) (base o : Word), fmt ≠ .long → s.dataTranslation = true →
    ∃ n : BitVec 3,
      n.toNat = (if sp ≠ 0#2 ∧ (s.pswW = false ∨ s.params.explicitSpaceW1 = true) then sp.toNat
        else if s.pswW = true then 4 + base.toNat / 2 ^ 62 else 4 + base.toNat / 2 ^ 30 % 4) ∧
      1 ≤ n.toNat ∧
      dataAddress s k fmt sp base o =
        let off := narrowOffset s.pswW o
        let va := vaCombine s.params.vaLayout (readSr s n) off
        match translateVa s.params.translations k va off with
        | some pa => .ok (off, pa)
        | none => .error (.dataTranslationFault va k)

/-- "When data translation is disabled, no space register selection is done and the offset is used directly as the
address" (R28): for every format, whatever the s-field, the base and the space registers. -/
def Obligations.DisabledTranslationUsesOffset : Prop :=
  ∀ (s : State) (k : Access) (fmt : Fmt) (sp : BitVec 2) (base o : Word), s.dataTranslation = false →
    dataAddress s k fmt sp base o = .ok (narrowOffset s.pswW o, absToPhys s.pswW (narrowOffset s.pswW o))

/-- The extension of a 62-bit absolute address, with bits 0..1 of the pointer ignored (R34, R36): as numbers, with
`A` the 62-bit absolute address. -/
def Obligations.AbsoluteToPhysicalWide : Prop :=
  ∀ (pdcBits : BitVec 2) (a : Word),
    (absToPhysW1 pdcBits a).toNat =
      if a.toNat % 2 ^ 62 / 2 ^ 54 = 0xF0 then
        0xF0 * 2 ^ 56 + pdcBits.toNat * 2 ^ 54 + a.toNat % 2 ^ 54
      else if a.toNat % 2 ^ 62 / 2 ^ 58 = 0xF then 0x3 * 2 ^ 62 + a.toNat % 2 ^ 62
      else a.toNat % 2 ^ 62

/-- The extension of a 32-bit absolute address (R39): as numbers, with `A` the low 32 bits of the pointer. -/
def Obligations.AbsoluteToPhysicalNarrow : Prop :=
  ∀ (pdcBits : BitVec 32) (a : Word),
    (absToPhysW0 pdcBits a).toNat =
      if a.toNat % 2 ^ 32 / 2 ^ 24 = 0xF0 then
        0xF0 * 2 ^ 56 + pdcBits.toNat * 2 ^ 24 + a.toNat % 2 ^ 24
      else if a.toNat % 2 ^ 32 / 2 ^ 28 = 0xF then 0xFFFFFFFF * 2 ^ 32 + a.toNat % 2 ^ 32
      else a.toNat % 2 ^ 32

/-- "no absolute address reaches a physical address in `0x3C00_0000_0000_0000` .. `0xEFFF_FFFF_FFFF_FFFF` or in
`0xF100_0000_0000_0000` .. `0xFC3F_FFFF_FFFF_FFFF`" (20_memory.md section 7), whatever the W-bit and the
processor-specific bits; and it falls below the first range exactly when it lies in the Memory Address Space. -/
def Obligations.AbsoluteAddressesMissTheGaps : Prop :=
  ∀ (p1 : BitVec 2) (p0 : BitVec 32) (a : Word),
    (let p := (absToPhysW1 p1 a).toNat
     ¬ (0x3C00000000000000 ≤ p ∧ p ≤ 0xEFFFFFFFFFFFFFFF) ∧ ¬ (0xF100000000000000 ≤ p ∧ p ≤ 0xFC3FFFFFFFFFFFFF) ∧
       (p < 0x3C00000000000000 ↔ spaceOfW1 a = .memory)) ∧
    (let p := (absToPhysW0 p0 a).toNat
     ¬ (0x3C00000000000000 ≤ p ∧ p ≤ 0xEFFFFFFFFFFFFFFF) ∧ ¬ (0xF100000000000000 ≤ p ∧ p ≤ 0xFC3FFFFFFFFFFFFF) ∧
       (p < 0x3C00000000000000 ↔ spaceOfW0 a = .memory))

/-- "Space and offset are then bit-wise ORed" (20_memory.md R30), bit by bit: in every layout a bit of a field is the OR of
the space bit and the offset bit the field names for it, and the fields stand side by side. In the default layout of R31, which
is the spec's general knowledge (G6; assumption 6), bit `j` of the virtual address is offset bit `j` (for `j` below 62) or
space bit `j - 32` (for `j` from 32 on), and there are 96 bits. -/
def Obligations.VirtualAddressBits : Prop :=
  (∀ (e : VaField) (es : List VaField) (space : Nat) (off : Word) (j : Nat),
    (vaCombine (e :: es) space off).testBit j =
      if j < e.width then (e.space.any fun k => space.testBit (k + j)) || (e.offset.any fun k => off.getLsbD (k + j))
      else (vaCombine es space off).testBit (j - e.width)) ∧
  (∀ (space : Nat) (off : Word), vaCombine [] space off = 0) ∧
  (∀ (space : Nat) (off : Word) (j : Nat),
    (vaCombine defaultVaLayout space off).testBit j =
      (decide (j < 96) && ((decide (j < 62) && off.getLsbD j) || (decide (32 ≤ j) && space.testBit (j - 32)))))

/-- Address formation keeps the low three bits of the offset, for absolute and translated addresses alike (20_memory.md
section 8, alignment; decision D4): so an access aligned on its offset is aligned on its physical address. -/
def Obligations.AddressFormationKeepsLowBits : Prop :=
  ∀ (s : State) (k : Access) (fmt : Fmt) (sp : BitVec 2) (base o off pa : Word),
    dataAddress s k fmt sp base o = .ok (off, pa) → pa.toNat % 8 = off.toNat % 8 ∧ off.toNat % 8 = o.toNat % 8

/-- "For 32-bit programs, the offset is truncated to 32 bits (the upper 32 bits are forced to 0)" (20_memory.md section
4): with PSW W-bit 0 the upper halves of base and offset reach neither the offset nor the physical address. -/
def Obligations.UpperHalfNeverReachesNarrowAddress : Prop :=
  ∀ (s : State) (k : Access) (fmt : Fmt) (sp : BitVec 2) (base base' o o' : Word), s.pswW = false →
    base.setWidth 32 = base'.setWidth 32 → o.setWidth 32 = o'.setWidth 32 →
    dataAddress s k fmt sp base o = dataAddress s k fmt sp base' o' ∧
    ∀ off pa, dataAddress s k fmt sp base o = .ok (off, pa) → off.toNat = o.toNat % 2 ^ 32

/-! ### Registers and memory -/

/-- `GR[0]` reads as zero and a write to it is discarded; any other register holds what was written to it last
(10_state.md section 1; decision D12). -/
def Obligations.RegisterFileLaws : Prop :=
  ∀ (s : State) (i j : Reg) (v : Word),
    readGr s 0#5 = 0#64 ∧ writeGr s 0#5 v = s ∧ (i ≠ 0#5 → readGr (writeGr s i v) i = v) ∧
    (j ≠ i → readGr (writeGr s i v) j = readGr s j)

/-- A completed write of `n` bytes puts the most significant byte at the lowest address and changes no other byte and
nothing but memory (20_memory.md section 8; decision D7). -/
def Obligations.StoredBytesAreBigEndian : Prop :=
  ∀ (s u : State) (pa : Word) (n : Nat) (v : Word), memWrite s pa n v = .ok u →
    (∀ j, j < n → lookupByte u.mem (pa.toNat + j) = byteOf n j v) ∧
    (∀ a, a < pa.toNat ∨ pa.toNat + n ≤ a → lookupByte u.mem a = lookupByte s.mem a) ∧
    u = { s with mem := u.mem }

/-- A read returns the bytes most recently stored to its addresses, zero-extended: after a write of `n` bytes a read of the
same `n` bytes gives the low `n` bytes of the value, and a read of bytes the write did not touch gives what it gave before
(20_memory.md sections 8 and 9; decisions D7, D10, D18). -/
def Obligations.ReadAfterWrite : Prop :=
  ∀ (s u : State) (pa : Word) (n : Nat) (v : Word), n ≤ 8 → memWrite s pa n v = .ok u →
    (∃ x, memRead u pa n = .ok x ∧ x.toNat = v.toNat % 2 ^ (8 * n)) ∧
    (∀ (pa' : Word) (m : Nat), m ≤ 8 → pa'.toNat + m ≤ pa.toNat ∨ pa.toNat + n ≤ pa'.toNat →
      memRead u pa' m = memRead s pa' m)

/-- An access of one byte or more is refused exactly when one of its bytes is not allocated (20_memory.md section 7; decision
D30). That the address the refusal names is that of an unallocated byte of the access is the model's choice (assumption 19):
the spec says "the physical address" and names no byte. What a launch can allocate is assumption 31. -/
def Obligations.UnallocatedBytesRefuseTheAccess : Prop :=
  ∀ (s : State) (pa : Word) (n : Nat) (v : Word), pa.toNat + n ≤ 2 ^ 64 →
    (¬ AllAllocated s pa.toNat n →
      ∃ x : Word, pa.toNat ≤ x.toNat ∧ x.toNat < pa.toNat + n ∧ allocated s.alloc x.toNat = false ∧
        memRead s pa n = .error (.unmodelledAddressSpace x) ∧
        memWrite s pa n v = .error (.unmodelledAddressSpace x)) ∧
    (AllAllocated s pa.toNat n → (∃ x, memRead s pa n = .ok x) ∧ ∃ u, memWrite s pa n v = .ok u)

/-- "every access whose absolute address lies in the I/O or PDC address space, is refused" (20_memory.md section 7;
decision D30), whatever the launch allocates. -/
def Obligations.IoAndPdcAccessesRefused : Prop :=
  ∀ (s : State) (k : Access) (fmt : Fmt) (sp : BitVec 2) (base o off pa v : Word) (n : Nat),
    s.dataTranslation = false → dataAddress s k fmt sp base o = .ok (off, pa) →
    (if s.pswW = true then spaceOfW1 off else spaceOfW0 off) ≠ .memory → 0 < n →
    memRead s pa n = .error (.unmodelledAddressSpace pa) ∧ memWrite s pa n v = .error (.unmodelledAddressSpace pa)

/-! ### What each family does -/

/-- The eight long displacement loads complete (40_long_displacement.md sections 1 to 4; decisions D13, D15, D18, D31):
LDB, LDH, LDW, LDW opcode 13, LDW opcode 17, LDD, LDD,MA and LDD,MB, with any target unless the base is modified and
is the target. The target holds the bytes at the physical address of the form's offset, zero-extended; a modified base
holds the full 64-bit sum; nothing else changes but the pc. -/
def Obligations.LongLoadsComplete : Prop :=
  ∀ (i : Instr) (s : State) (f : LongForm) (off pa : Word), longLoadForm s i = some f →
    (f.mod = .none ∨ f.other ≠ f.b) → Reaches s .read .long f.size f.sp f.b (f.offset s) off pa →
    ∃ u, exec i s = .next u ∧
      (f.other ≠ 0#5 → (readGr u f.other).toNat = bigEndian s.mem pa.toNat f.size.bytes) ∧
      (f.b ≠ 0#5 → f.b ≠ f.other → readGr u f.b = if f.mod = .none then readGr s f.b else readGr s f.b + f.d) ∧
      (∀ g, g ≠ f.b → g ≠ f.other → readGr u g = readGr s g) ∧
      u.mem = s.mem ∧ u.pc = s.pc + 4#64 ∧ u.freeCount = s.freeCount ∧ SameLaunch s u

/-- The eight long displacement stores complete (40_long_displacement.md; decisions D7, D13, D15, D18, D31): STB, STH,
STW, STW opcode 1B, STW opcode 1F, STD, STD,MA and STD,MB. The low-order bytes of the source as it was before the
instruction go to the physical address of the form's offset, most significant first; a modified base holds the full sum;
nothing else changes but the pc. -/
def Obligations.LongStoresComplete : Prop :=
  ∀ (i : Instr) (s : State) (f : LongForm) (off pa : Word), longStoreForm s i = some f →
    Reaches s .write .long f.size f.sp f.b (f.offset s) off pa →
    ∃ u, exec i s = .next u ∧
      (∀ j, j < f.size.bytes → lookupByte u.mem (pa.toNat + j) = byteOf f.size.bytes j (readGr s f.other)) ∧
      (∀ a, a < pa.toNat ∨ pa.toNat + f.size.bytes ≤ a → lookupByte u.mem a = lookupByte s.mem a) ∧
      (f.b ≠ 0#5 → readGr u f.b = if f.mod = .none then readGr s f.b else readGr s f.b + f.d) ∧
      (∀ g, g ≠ f.b → readGr u g = readGr s g) ∧
      u.pc = s.pc + 4#64 ∧ u.freeCount = s.freeCount ∧ SameLaunch s u

/-- The four short displacement loads complete (41_short_displacement.md; decisions D10, D13, D15, D18, D31), for every
completer, unless the base is modified and is the target. A hint other than 0 is admitted by assumption 2 only. -/
def Obligations.ShortLoadsComplete : Prop :=
  ∀ (i : Instr) (s : State) (f : ShortForm) (off pa : Word), shortLoadForm i = some f → HintAdmitted s f.cc →
    (f.modifies → f.other ≠ f.b) → Reaches s .read .short f.size f.sp f.b (f.offset s) off pa →
    ∃ u, exec i s = .next u ∧
      (f.other ≠ 0#5 → (readGr u f.other).toNat = bigEndian s.mem pa.toNat f.size.bytes) ∧
      (f.b ≠ 0#5 → f.b ≠ f.other →
        readGr u f.b = if f.modifies then readGr s f.b + lowSignExt5 f.im5 else readGr s f.b) ∧
      (∀ g, g ≠ f.b → g ≠ f.other → readGr u g = readGr s g) ∧
      u.mem = s.mem ∧ u.pc = s.pc + 4#64 ∧ u.freeCount = s.freeCount ∧ SameLaunch s u

/-- The four short displacement stores complete (41_short_displacement.md; decisions D7, D10, D13, D15, D18, D31), for
every completer. A hint other than 0 is admitted by assumption 2 only. -/
def Obligations.ShortStoresComplete : Prop :=
  ∀ (i : Instr) (s : State) (f : ShortForm) (off pa : Word), shortStoreForm i = some f → HintAdmitted s f.cc →
    Reaches s .write .short f.size f.sp f.b (f.offset s) off pa →
    ∃ u, exec i s = .next u ∧
      (∀ j, j < f.size.bytes → lookupByte u.mem (pa.toNat + j) = byteOf f.size.bytes j (readGr s f.other)) ∧
      (∀ a, a < pa.toNat ∨ pa.toNat + f.size.bytes ≤ a → lookupByte u.mem a = lookupByte s.mem a) ∧
      (f.b ≠ 0#5 → readGr u f.b = if f.modifies then readGr s f.b + lowSignExt5 f.im5 else readGr s f.b) ∧
      (∀ g, g ≠ f.b → readGr u g = readGr s g) ∧
      u.pc = s.pc + 4#64 ∧ u.freeCount = s.freeCount ∧ SameLaunch s u

/-- The four indexed loads complete (43_indexed.md; decisions D13, D16, D17, D18, D31, D33), for every completer, unless
the base is modified and is the target. The index is multiplied by the size for `S` and `SM`. A hint other than 0 is
admitted by assumption 2 only. -/
def Obligations.IndexedLoadsComplete : Prop :=
  ∀ (i : Instr) (s : State) (f : IndexForm) (off pa : Word), indexForm i = some f → HintAdmitted s f.cc →
    (f.modifies → f.t ≠ f.b) → Reaches s .read .indexed f.size f.sp f.b (f.offset s) off pa →
    ∃ u, exec i s = .next u ∧
      (f.t ≠ 0#5 → (readGr u f.t).toNat = bigEndian s.mem pa.toNat f.size.bytes) ∧
      (f.b ≠ 0#5 → f.b ≠ f.t → readGr u f.b = if f.modifies then readGr s f.b + f.index s else readGr s f.b) ∧
      (∀ g, g ≠ f.b → g ≠ f.t → readGr u g = readGr s g) ∧
      u.mem = s.mem ∧ u.pc = s.pc + 4#64 ∧ u.freeCount = s.freeCount ∧ SameLaunch s u

/-- STBY and STDBY complete in the forms `B` and `E` (42_store_bytes.md section 2, under `STORE_BYTES_MODELLED`; decision
D20): the bytes of the source keep their places in the word or doubleword that holds the effective byte, those from it on
(`B`) or before it (`E`) are stored, and every other byte and every register is as before. The lanes are the spec's general
knowledge (G17; assumption 18), and a hint other than 0 is admitted by assumption 2 only. -/
def Obligations.StoreBytesComplete : Prop :=
  ∀ (i : Instr) (s : State) (f : BytesForm) (off pa : Word), bytesForm i = some f → HintAdmitted s f.cc →
    s.params.storeBytesModelled = true → ¬ f.modifies → f.addresses s off pa →
    (∀ j, f.stores off j → allocated s.alloc (pa.toNat - f.position off + j) = true) →
    ∃ u, exec i s = .next u ∧
      (∀ j, f.stores off j →
        lookupByte u.mem (pa.toNat - f.position off + j) = byteOf f.size.bytes j (readGr s f.r)) ∧
      (∀ a, (∀ j, f.stores off j → a ≠ pa.toNat - f.position off + j) → lookupByte u.mem a = lookupByte s.mem a) ∧
      (∀ g, readGr u g = readGr s g) ∧
      u.pc = s.pc + 4#64 ∧ u.freeCount = s.freeCount ∧ SameLaunch s u

/-- The model's choice for STBY and STDBY in the forms `B,M` and `E,M` (assumptions 2 and 3; the spec: "the modified value
is not known to this spec"): the bytes are stored as in the forms without `M`, and a base register other than `GR[0]`
holds the next free value, whatever it is. -/
def Obligations.StoreBytesModifyComplete : Prop :=
  ∀ (i : Instr) (s : State) (f : BytesForm) (off pa : Word), bytesForm i = some f →
    s.params.storeBytesModelled = true → s.params.runOpenForms = true → f.modifies → f.addresses s off pa →
    (∀ j, f.stores off j → allocated s.alloc (pa.toNat - f.position off + j) = true) →
    ∃ u, exec i s = .next u ∧
      (∀ j, f.stores off j →
        lookupByte u.mem (pa.toNat - f.position off + j) = byteOf f.size.bytes j (readGr s f.r)) ∧
      (∀ a, (∀ j, f.stores off j → a ≠ pa.toNat - f.position off + j) → lookupByte u.mem a = lookupByte s.mem a) ∧
      (f.b ≠ 0#5 → readGr u f.b = Config.freeBase s.freeCount) ∧
      (∀ g, g ≠ f.b → readGr u g = readGr s g) ∧
      u.pc = s.pc + 4#64 ∧ u.freeCount = s.freeCount + 1 ∧ SameLaunch s u

/-- The model's choice for a load that modifies its base and names it as its target (assumptions 2 and 3; the spec: "The
source does not say which write wins"): the access happens, the register, if it is not `GR[0]`, holds the next free value,
whatever it is, and nothing else changes but the pc and the counter. -/
def Obligations.SameRegisterLoadsComplete : Prop :=
  ∀ (i : Instr) (s : State) (b : Reg) (off pa : Word), s.params.runOpenForms = true →
    ((∃ f, longLoadForm s i = some f ∧ f.b = b ∧ f.other = b ∧ f.mod ≠ .none ∧
        Reaches s .read .long f.size f.sp b (f.offset s) off pa) ∨
     (∃ f, shortLoadForm i = some f ∧ f.b = b ∧ f.other = b ∧ f.modifies ∧
        Reaches s .read .short f.size f.sp b (f.offset s) off pa) ∨
     (∃ f, indexForm i = some f ∧ f.b = b ∧ f.t = b ∧ f.modifies ∧
        Reaches s .read .indexed f.size f.sp b (f.offset s) off pa)) →
    ∃ u, exec i s = .next u ∧
      (b ≠ 0#5 → readGr u b = Config.freeBase s.freeCount) ∧ (∀ g, g ≠ b → readGr u g = readGr s g) ∧
      u.mem = s.mem ∧ u.pc = s.pc + 4#64 ∧ u.freeCount = s.freeCount + 1 ∧ SameLaunch s u

/-- "an ordered access behaves exactly like the same access without the completer" (20_memory.md section 9; decision D10),
for the eight short displacement loads and stores. -/
def Obligations.OrderedAccessIsPlainAccess : Prop :=
  ∀ (s : State) (b x : Reg) (sp cc : BitVec 2),
    exec (.ldbSl b x sp .o cc 0) s = exec (.ldbSl b x sp .plain cc 0) s ∧
    exec (.ldhSl b x sp .o cc 0) s = exec (.ldhSl b x sp .plain cc 0) s ∧
    exec (.ldwSl b x sp .o cc 0) s = exec (.ldwSl b x sp .plain cc 0) s ∧
    exec (.lddSl b x sp .o cc 0) s = exec (.lddSl b x sp .plain cc 0) s ∧
    exec (.stbSs b x sp .o cc 0) s = exec (.stbSs b x sp .plain cc 0) s ∧
    exec (.sthSs b x sp .o cc 0) s = exec (.sthSs b x sp .plain cc 0) s ∧
    exec (.stwSs b x sp .o cc 0) s = exec (.stwSs b x sp .plain cc 0) s ∧
    exec (.stdSs b x sp .o cc 0) s = exec (.stdSs b x sp .plain cc 0) s

/-! ### Frames -/

/-- The frame of all 16 loads: whatever state a load gives, it changed only its target, its base where the form modifies it,
the pc, and the free value counter where target and modified base are one register. No byte of memory changes. A load with a
hint other than 0, or with its modified base as target, completes by assumption 2 only. -/
def Obligations.LoadsKeepTheirFrame : Prop :=
  ∀ (i : Instr) (s u : State), exec i s = .next u →
    (∀ f, longLoadForm s i = some f → LoadFrame s u f.b f.other (f.mod ≠ .none)) ∧
    (∀ f, shortLoadForm i = some f → LoadFrame s u f.b f.other f.modifies) ∧
    (∀ f, indexForm i = some f → LoadFrame s u f.b f.t f.modifies)

/-- The frame of the 12 ordinary stores: with the physical address computed as the instruction computes it, every byte
outside the bytes stored is unchanged, every register but a modified base is unchanged, and so is everything else but the
pc. A store with a hint other than 0 completes by assumption 2 only. -/
def Obligations.StoresKeepTheirFrame : Prop :=
  ∀ (i : Instr) (s u : State) (off pa : Word), exec i s = .next u →
    (∀ f, longStoreForm s i = some f →
      dataAddress s .write .long f.sp (readGr s f.b) (f.offset s) = .ok (off, pa) →
      StoreFrame s u f.b (f.mod ≠ .none) pa f.size.bytes) ∧
    (∀ f, shortStoreForm i = some f →
      dataAddress s .write .short f.sp (readGr s f.b) (f.offset s) = .ok (off, pa) →
      StoreFrame s u f.b f.modifies pa f.size.bytes)

/-- The frame of STBY and STDBY: every byte outside the stored ones of the word or doubleword that holds the effective byte
is unchanged, every register but the base of a modifying form is unchanged, and so is everything else but the pc and, in a
modifying form, the free value counter. A form with a hint other than 0, or with `,M`, completes by assumption 2 only. -/
def Obligations.StoreBytesKeepTheirFrame : Prop :=
  ∀ (i : Instr) (s u : State) (f : BytesForm) (off pa : Word), exec i s = .next u → bytesForm i = some f →
    f.addresses s off pa →
    (∀ a, (∀ j, f.stores off j → a ≠ pa.toNat - f.position off + j) → lookupByte u.mem a = lookupByte s.mem a) ∧
    (∀ g, (f.modifies → g ≠ f.b) → readGr u g = readGr s g) ∧
    u.pc = s.pc + 4#64 ∧ SameLaunch s u ∧ (¬ f.modifies → u.freeCount = s.freeCount)

/-! ### Where an instruction stops -/

/-- An ordinary load or store whose offset is not a multiple of its size is `raise UnalignedDataReference(off)`, in every
form that reaches the check (20_memory.md section 8; 60_exceptions.md section 1; decisions D8, D31; assumption 26). That a form
with a hint other than 0, or a modifying load with `t = b`, reaches it is by assumption 2 only: the spec refuses these before. -/
def Obligations.UnalignedAccessesFault : Prop :=
  ∀ (i : Instr) (s : State) (off pa : Word),
    (∀ f, longLoadForm s i = some f → (f.mod = .none ∨ f.other ≠ f.b ∨ s.params.runOpenForms = true) →
      dataAddress s .read .long f.sp (readGr s f.b) (f.offset s) = .ok (off, pa) → off.toNat % f.size.bytes ≠ 0 →
      exec i s = .fault (.unalignedDataReference off)) ∧
    (∀ f, longStoreForm s i = some f →
      dataAddress s .write .long f.sp (readGr s f.b) (f.offset s) = .ok (off, pa) → off.toNat % f.size.bytes ≠ 0 →
      exec i s = .fault (.unalignedDataReference off)) ∧
    (∀ f, shortLoadForm i = some f → HintAdmitted s f.cc → (¬ f.modifies ∨ f.other ≠ f.b ∨ s.params.runOpenForms = true) →
      dataAddress s .read .short f.sp (readGr s f.b) (f.offset s) = .ok (off, pa) → off.toNat % f.size.bytes ≠ 0 →
      exec i s = .fault (.unalignedDataReference off)) ∧
    (∀ f, shortStoreForm i = some f → HintAdmitted s f.cc →
      dataAddress s .write .short f.sp (readGr s f.b) (f.offset s) = .ok (off, pa) → off.toNat % f.size.bytes ≠ 0 →
      exec i s = .fault (.unalignedDataReference off)) ∧
    (∀ f, indexForm i = some f → HintAdmitted s f.cc → (¬ f.modifies ∨ f.t ≠ f.b ∨ s.params.runOpenForms = true) →
      dataAddress s .read .indexed f.sp (readGr s f.b) (f.offset s) = .ok (off, pa) → off.toNat % f.size.bytes ≠ 0 →
      exec i s = .fault (.unalignedDataReference off))

/-- When `Translate` answers fault, the instruction raises `DataTranslationFault(va)` with the access kind (20_memory.md
section 4, R32; decision D4), in every family and in every form that reaches address formation; for STBY and STDBY also where
no byte would be stored (decision D20). That a form with a hint other than 0, a modifying load with `t = b`, or STBY or STDBY
with `,M` reaches it is by assumption 2 only: the spec refuses these before. -/
def Obligations.TranslationFailuresFault : Prop :=
  ∀ (i : Instr) (s : State) (e : Fault),
    (∀ f, longLoadForm s i = some f → (f.mod = .none ∨ f.other ≠ f.b ∨ s.params.runOpenForms = true) →
      dataAddress s .read .long f.sp (readGr s f.b) (f.offset s) = .error e →
      exec i s = .fault e ∧ ∃ va, e = .dataTranslationFault va .read) ∧
    (∀ f, longStoreForm s i = some f →
      dataAddress s .write .long f.sp (readGr s f.b) (f.offset s) = .error e →
      exec i s = .fault e ∧ ∃ va, e = .dataTranslationFault va .write) ∧
    (∀ f, shortLoadForm i = some f → HintAdmitted s f.cc → (¬ f.modifies ∨ f.other ≠ f.b ∨ s.params.runOpenForms = true) →
      dataAddress s .read .short f.sp (readGr s f.b) (f.offset s) = .error e →
      exec i s = .fault e ∧ ∃ va, e = .dataTranslationFault va .read) ∧
    (∀ f, shortStoreForm i = some f → HintAdmitted s f.cc →
      dataAddress s .write .short f.sp (readGr s f.b) (f.offset s) = .error e →
      exec i s = .fault e ∧ ∃ va, e = .dataTranslationFault va .write) ∧
    (∀ f, bytesForm i = some f → HintAdmitted s f.cc → s.params.storeBytesModelled = true →
      (f.modifies → s.params.runOpenForms = true) →
      dataAddress s .write .short f.sp (readGr s f.b) (readGr s f.b + lowSignExt5 f.im5) = .error e →
      exec i s = .fault e ∧ ∃ va, e = .dataTranslationFault va .write) ∧
    (∀ f, indexForm i = some f → HintAdmitted s f.cc → (¬ f.modifies ∨ f.t ≠ f.b ∨ s.params.runOpenForms = true) →
      dataAddress s .read .indexed f.sp (readGr s f.b) (f.offset s) = .error e →
      exec i s = .fault e ∧ ∃ va, e = .dataTranslationFault va .read)

/-- An aligned access with a byte that is not allocated is `refuse UnmodelledAddressSpace`, in every ordinary load and store
and in STBY and STDBY (20_memory.md section 7; decision D30; what a launch can allocate is assumption 31). That a form with a
hint other than 0, a modifying load with `t = b`, or STBY or STDBY with `,M` reaches memory is by assumption 2 only: the spec
refuses these by another name. -/
def Obligations.UnallocatedAccessesAreRefused : Prop :=
  ∀ (i : Instr) (s : State) (off pa : Word),
    (∀ f, longLoadForm s i = some f → (f.mod = .none ∨ f.other ≠ f.b ∨ s.params.runOpenForms = true) →
      dataAddress s .read .long f.sp (readGr s f.b) (f.offset s) = .ok (off, pa) → off.toNat % f.size.bytes = 0 →
      ¬ AllAllocated s pa.toNat f.size.bytes → ∃ x, exec i s = .refused (.unmodelledAddressSpace x)) ∧
    (∀ f, longStoreForm s i = some f →
      dataAddress s .write .long f.sp (readGr s f.b) (f.offset s) = .ok (off, pa) → off.toNat % f.size.bytes = 0 →
      ¬ AllAllocated s pa.toNat f.size.bytes → ∃ x, exec i s = .refused (.unmodelledAddressSpace x)) ∧
    (∀ f, shortLoadForm i = some f → HintAdmitted s f.cc → (¬ f.modifies ∨ f.other ≠ f.b ∨ s.params.runOpenForms = true) →
      dataAddress s .read .short f.sp (readGr s f.b) (f.offset s) = .ok (off, pa) → off.toNat % f.size.bytes = 0 →
      ¬ AllAllocated s pa.toNat f.size.bytes → ∃ x, exec i s = .refused (.unmodelledAddressSpace x)) ∧
    (∀ f, shortStoreForm i = some f → HintAdmitted s f.cc →
      dataAddress s .write .short f.sp (readGr s f.b) (f.offset s) = .ok (off, pa) → off.toNat % f.size.bytes = 0 →
      ¬ AllAllocated s pa.toNat f.size.bytes → ∃ x, exec i s = .refused (.unmodelledAddressSpace x)) ∧
    (∀ f, bytesForm i = some f → HintAdmitted s f.cc → s.params.storeBytesModelled = true →
      (f.modifies → s.params.runOpenForms = true) → f.addresses s off pa →
      (∃ j, f.stores off j ∧ allocated s.alloc (pa.toNat - f.position off + j) = false) →
      ∃ x, exec i s = .refused (.unmodelledAddressSpace x)) ∧
    (∀ f, indexForm i = some f → HintAdmitted s f.cc → (¬ f.modifies ∨ f.t ≠ f.b ∨ s.params.runOpenForms = true) →
      dataAddress s .read .indexed f.sp (readGr s f.b) (f.offset s) = .ok (off, pa) → off.toNat % f.size.bytes = 0 →
      ¬ AllAllocated s pa.toNat f.size.bytes → ∃ x, exec i s = .refused (.unmodelledAddressSpace x))

/-- "an instruction with `cc != 0` is refused (`refuse CacheHintNotModelled`)" (20_memory.md section 9; decision D11), before
any other cause, in all 14 instructions that have a hint, unless the launch turns on the model's own switch (assumption 2). -/
def Obligations.CacheHintsRefusedUnderD11 : Prop :=
  ∀ (i : Instr) (s : State) (cc : BitVec 2), hintOf i = some cc → cc ≠ 0#2 → s.params.runOpenForms = false →
    exec i s = .refused .cacheHintNotModelled

/-- Under a launch that runs the open forms (assumption 2) a cache control hint has no architectural effect
(93_implementation_defined.md G23, the spec's general knowledge): the instruction does what it does without the hint. -/
def Obligations.CacheHintsHaveNoEffect : Prop :=
  ∀ (i : Instr) (s : State), s.params.runOpenForms = true → exec i s = exec (withoutHint i) s

/-- A load that modifies its base with `t = b` is `refuse LoadModifySameRegister` (40_long_displacement.md section 1; decision
D19), in all eleven modifying loads and whatever their address, unless the launch turns on the model's own switch
(assumption 2). -/
def Obligations.SameRegisterLoadsRefusedUnderD19 : Prop :=
  ∀ (i : Instr) (s : State), s.params.runOpenForms = false →
    (∀ f, longLoadForm s i = some f → f.mod ≠ .none → f.other = f.b →
      exec i s = .refused .loadModifySameRegister) ∧
    (∀ f, shortLoadForm i = some f → f.cc = 0#2 → f.modifies → f.other = f.b →
      exec i s = .refused .loadModifySameRegister) ∧
    (∀ f, indexForm i = some f → f.cc = 0#2 → f.modifies → f.t = f.b →
      exec i s = .refused .loadModifySameRegister)

/-- STBY and STDBY are `refuse StoreBytesNotModelled` when `STORE_BYTES_MODELLED` is false, and in the forms `B,M` and `E,M`
(42_store_bytes.md section 1; decision D20) unless the launch turns on the model's own switch (assumption 2). -/
def Obligations.StoreBytesRefusedUnderD20 : Prop :=
  ∀ (i : Instr) (s : State) (f : BytesForm), bytesForm i = some f → HintAdmitted s f.cc →
    (s.params.storeBytesModelled = false ∨ (f.modifies ∧ s.params.runOpenForms = false)) →
    exec i s = .refused .storeBytesNotModelled

/-- "These are the only instructions in scope whose effective address may be unaligned without a fault" (42_store_bytes.md
section 1), and "Byte accesses are always aligned" (20_memory.md section 8): neither STBY and STDBY nor a byte load or store
ever raises `UnalignedDataReference`. -/
def Obligations.ByteAccessesNeverUnaligned : Prop :=
  ∀ (i : Instr) (s : State) (off : Word),
    ((∃ f, bytesForm i = some f) ∨ (∃ f, longLoadForm s i = some f ∧ f.size = .byte) ∨
     (∃ f, longStoreForm s i = some f ∧ f.size = .byte) ∨ (∃ f, shortLoadForm i = some f ∧ f.size = .byte) ∨
     (∃ f, shortStoreForm i = some f ∧ f.size = .byte) ∨ (∃ f, indexForm i = some f ∧ f.size = .byte)) →
    exec i s ≠ .fault (.unalignedDataReference off)

/-- "The closed list of faults and refusals. No rule of this spec raises anything else" (60_exceptions.md section 1): an
instruction stops only for a cause of that list, and never because it has no meaning. -/
def Obligations.InstructionsStopOnlyForListedCauses : Prop :=
  ∀ (i : Instr) (s : State),
    (∀ e, exec i s = .fault e → (∃ off, e = .unalignedDataReference off) ∨ ∃ va k, e = .dataTranslationFault va k) ∧
    (∀ r, exec i s = .refused r → r = .cacheHintNotModelled ∨ r = .loadModifySameRegister ∨ r = .storeBytesNotModelled ∨
      ∃ pa, r = .unmodelledAddressSpace pa)

/-! ### The machine -/

/-- A step runs the decoded instruction: when the pc is the place of a word of the program text that the launch's decode table
reads as `i`, the step is `exec i` and nothing around it (R3, R17, R125). -/
def Obligations.StepRunsDecodedInstruction : Prop :=
  ∀ (s : State) (w : InstrWord) (i : Instr), s.pc.toNat % 4 = 0 → s.text[s.pc.toNat / 4]? = some w →
    decodeWith s.params.decodeTable w = .ok i → step s = exec i s

/-- The other steps: a word the decoder rejects is refused by name, and the end of the text ends the run (R68, R128). -/
def Obligations.StepStopsWithoutInstruction : Prop :=
  (∀ (s : State) (w w' : InstrWord), s.pc.toNat % 4 = 0 → s.text[s.pc.toNat / 4]? = some w →
    decodeWith s.params.decodeTable w = .error (.notInScope w') → step s = .refused (.notInScope w')) ∧
  (∀ s : State, s.pc.toNat = 4 * s.text.length → step s = .fault .endOfProgram)

/-- The model's placing of an instruction (assumption 9): after `withFetchWord` the next step runs exactly the word placed,
and no word of the text other than the one at the pc is replaced. -/
def Obligations.PlacedWordIsFetched : Prop :=
  ∀ (s : State) (w : InstrWord) (i : Instr), s.pc.toNat % 4 = 0 →
    decodeWith s.params.decodeTable w = .ok i →
    step (s.withFetchWord 32 w.toNat) = exec i (s.withFetchWord 32 w.toNat) ∧
    ∀ n, n ≠ s.pc.toNat / 4 → n < s.text.length → (s.withFetchWord 32 w.toNat).text[n]? = s.text[n]?

/-- Every completed step advances the pc by 4 and changes nothing a launch fixes: "every instruction in scope ends with
`pc <- pc + 4`", "`PSW_W` and `DATA_TRANSLATION` cannot be changed by any instruction in scope", no instruction writes a
space register, and no store changes the program text (decisions D22, D27, D29). -/
def Obligations.StepKeepsLaunchAndAdvancesPc : Prop :=
  ∀ s u : State, step s = .next u → SameLaunch s u ∧ u.pc = s.pc + 4#64

/-- Every step keeps the invariant: memory stays in canonical form and within the allocation, entry 0 of the register file
stays zero, and the pc stays at a word of the text or at its end. -/
def Obligations.StepKeepsInv : Prop :=
  ∀ s u : State, Inv s → step s = .next u → Inv u

/-- The invariant holds at reset. -/
def Obligations.ResetMeetsInv : Prop := Inv State.reset

/-- The reset values the spec gives: `pc` is 0 and `GR[0]` reads 0 (10_state.md section 8), and the parameters with a default
are at it: `EXPLICIT_SPACE_W1` true, `STORE_BYTES_MODELLED` false, the default decode table, layout and packings (00_scope.md
section 4). The model's own switch is off (assumption 2). -/
def Obligations.ResetValues : Prop :=
  State.reset.pc = 0#64 ∧ readGr State.reset 0#5 = 0#64 ∧
  State.reset.params.explicitSpaceW1 = true ∧ State.reset.params.storeBytesModelled = false ∧
  State.reset.params.decodeTable = opcodeTable ∧ State.reset.params.vaLayout = defaultVaLayout ∧
  State.reset.params.assemble16 = .signXor ∧ State.reset.params.assemble16a = .signXor ∧
  State.reset.params.runOpenForms = false

/-- No step changes a byte the launch does not allocate, so in particular none outside the Memory Address Space
(20_memory.md section 7; decision D30), whose bound is the same under both values of PSW W-bit (assumption 31). -/
def Obligations.UnallocatedBytesNeverChange : Prop :=
  ∀ (s u : State) (a : Nat), step s = .next u → allocated s.alloc a = false →
    lookupByte u.mem a = lookupByte s.mem a ∧ allocated u.alloc a = false

/-- "a run of a program of `k` words takes at most `k` steps and always terminates" (70_reset_and_hazards.md section 1;
decision D22): from a pc in the text a run never takes more steps than there are words left, and where it takes them all it
stands at its normal end, which the model names `endOfProgram` (assumption 20). -/
def Obligations.RunsTerminate : Prop :=
  ∀ s : State, PcInText s →
    (∀ u, Sys2Proof.core.run (s.text.length - s.pc.toNat / 4 + 1) s ≠ .next u) ∧
    (∀ u, Sys2Proof.core.run (s.text.length - s.pc.toNat / 4) s = .next u → step u = .fault .endOfProgram)

/-- With data translation disabled no step learns anything of the space registers, their width, the layout of a virtual address
or the translation: the step commutes with any change of them ("no space register selection is done", 20_memory.md section 3). -/
def Obligations.DisabledTranslationHidesSpaces : Prop :=
  ∀ (s : State) (sr : Vector Nat 8) (n : Nat) (layout : List VaField) (ts : List Translation) (e : Bool),
    s.dataTranslation = false →
    let change := fun u : State =>
      { u with sr := sr, params :=
          { u.params with spaceBits := n, vaLayout := layout, translations := ts, explicitSpaceW1 := e } }
    step (change s) = mapNext change (step s)
end

