-- ==== Sys2Proof/Laws/Memory.lean ====
section
/-! SUPPORT. The laws of memory: a byte read after a byte write, the canonical form, and what a read or write of several
bytes does to each byte. -/

namespace Sys2Proof.Machine

open Sys2Proof.Safety

/-! ### One byte -/

theorem lookupByte_eraseByte (m : List Host.Cell) (a x : Nat) :
    lookupByte (eraseByte m a) x = if x = a then unlistedByte else lookupByte m x := by
  induction m with
  | nil => simp [eraseByte, lookupByte]
  | cons c m ih => simp only [eraseByte, lookupByte]; grind [lookupByte]

theorem lookupByte_insertByte (m : List Host.Cell) (a x : Nat) (v : Byte) :
    lookupByte (insertByte m a v) x = if x = a then v else lookupByte m x := by
  induction m with
  | nil => simp only [insertByte, lookupByte]; grind
  | cons c m ih => simp only [insertByte, lookupByte]; grind [lookupByte]

/-- A byte read after a byte write. -/
theorem lookupByte_storeByte (m : List Host.Cell) (a x : Nat) (v : Byte) :
    lookupByte (storeByte m a v) x = if x = a then v else lookupByte m x := by
  unfold storeByte
  split
  · rename_i h; rw [lookupByte_eraseByte, h]
  · exact lookupByte_insertByte m a x v

/-! ### The canonical form -/

/-- The canonical form, cell by cell: strictly rising addresses and no cell equal to what an unlisted address reads as. -/
theorem wf_iff (m : List Host.Cell) :
    Memory.wf m = true ↔ m.Pairwise (fun c d => c.1 < d.1) ∧ ∀ c ∈ m, c.2 ≠ unlistedByte := by
  induction m with
  | nil => simp [Memory.wf]
  | cons c m ih =>
    cases m with
    | nil => simp [Memory.wf]
    | cons d m =>
      simp only [Memory.wf, Bool.and_eq_true, bne_iff_ne, decide_eq_true_eq, ih, List.pairwise_cons,
        List.mem_cons, forall_eq_or_imp]
      constructor
      · rintro ⟨⟨hv, hlt⟩, ⟨hd, hp⟩, hm⟩
        exact ⟨⟨⟨hlt, fun x hx => lt_trans hlt (hd x hx)⟩, hd, hp⟩, hv, hm⟩
      · rintro ⟨⟨⟨hlt, _⟩, hd, hp⟩, hv, hm⟩
        exact ⟨⟨hv, hlt⟩, ⟨hd, hp⟩, hm⟩

theorem mem_eraseByte {m : List Host.Cell} {a : Nat} {c : Host.Cell} (h : c ∈ eraseByte m a) : c ∈ m := by
  induction m with
  | nil => exact h
  | cons d m ih => simp only [eraseByte] at h; grind

theorem mem_insertByte {m : List Host.Cell} {a : Nat} {v : Byte} {c : Host.Cell} (h : c ∈ insertByte m a v) :
    c = (a, v) ∨ c ∈ m := by
  induction m with
  | nil => simp only [insertByte] at h; grind
  | cons d m ih => simp only [insertByte] at h; grind

theorem eraseByte_wf {m : List Host.Cell} (a : Nat) (h : Memory.wf m = true) : Memory.wf (eraseByte m a) = true := by
  rw [wf_iff] at h ⊢
  refine ⟨?_, fun c hc => h.2 c (mem_eraseByte hc)⟩
  have hp := h.1
  clear h
  induction m with
  | nil => exact hp
  | cons c m ih =>
    rw [List.pairwise_cons] at hp
    simp only [eraseByte]
    split
    · exact ih hp.2
    · exact List.pairwise_cons.mpr ⟨fun d hd => hp.1 d (mem_eraseByte hd), ih hp.2⟩

theorem insertByte_wf {m : List Host.Cell} (a : Nat) {v : Byte} (hv : v ≠ unlistedByte) (h : Memory.wf m = true) :
    Memory.wf (insertByte m a v) = true := by
  rw [wf_iff] at h ⊢
  refine ⟨?_, fun c hc => (mem_insertByte hc).elim (fun e => e ▸ hv) (h.2 c)⟩
  have hp := h.1
  clear h
  induction m with
  | nil => simp [insertByte]
  | cons c m ih =>
    rw [List.pairwise_cons] at hp
    simp only [insertByte]
    split
    · rename_i hlt
      refine List.pairwise_cons.mpr ⟨fun d hd => ?_, List.pairwise_cons.mpr hp⟩
      rcases List.mem_cons.mp hd with rfl | hd
      · exact hlt
      · exact lt_trans hlt (hp.1 d hd)
    · split
      · rename_i he
        exact List.pairwise_cons.mpr ⟨fun d hd => he ▸ hp.1 d hd, hp.2⟩
      · rename_i hge hne
        refine List.pairwise_cons.mpr ⟨fun d hd => ?_, ih hp.2⟩
        rcases mem_insertByte hd with rfl | hd
        · show c.1 < a; omega
        · exact hp.1 d hd

/-- A byte write keeps the canonical form. -/
theorem storeByte_wf {m : List Host.Cell} (a : Nat) (v : Byte) (h : Memory.wf m = true) :
    Memory.wf (storeByte m a v) = true := by
  unfold storeByte
  split
  · exact eraseByte_wf a h
  · rename_i hv; exact insertByte_wf a hv h

theorem mem_storeByte {m : List Host.Cell} {a : Nat} {v : Byte} {c : Host.Cell} (h : c ∈ storeByte m a v) :
    c.1 = a ∨ c ∈ m := by
  unfold storeByte at h
  split at h
  · exact .inr (mem_eraseByte h)
  · exact (mem_insertByte h).imp (fun e => by rw [e]) id

/-! ### Several bytes -/

/-- Writing several bytes keeps the canonical form. -/
theorem writeBytes_wf {m : List Host.Cell} (a n : Nat) (v : Word) (h : Memory.wf m = true) :
    Memory.wf (writeBytes m a n v) = true := by
  induction n generalizing v with
  | zero => exact h
  | succ n ih => exact storeByte_wf _ _ (ih _)

/-- Writing several bytes lists no cell outside them that was not listed. -/
theorem mem_writeBytes {m : List Host.Cell} {a n : Nat} {v : Word} {c : Host.Cell} (h : c ∈ writeBytes m a n v) :
    (a ≤ c.1 ∧ c.1 < a + n) ∨ c ∈ m := by
  induction n generalizing v with
  | zero => exact .inr h
  | succ n ih =>
    rcases mem_storeByte h with h | h
    · left; omega
    · exact (ih h).imp (fun h => by omega) id

/-- Every byte after a write of several bytes, most significant first (R43). -/
theorem lookupByte_writeBytes (m : List Host.Cell) (a n x : Nat) (v : Word) :
    lookupByte (writeBytes m a n v) x =
      if a ≤ x ∧ x < a + n then byteOf n (x - a) v else lookupByte m x := by
  induction n generalizing v with
  | zero => simp only [writeBytes]; rw [if_neg (by omega)]
  | succ n ih =>
    simp only [writeBytes, lookupByte_storeByte, ih]
    by_cases hx : x = a + n
    · subst hx
      rw [if_pos rfl, if_pos (by omega)]
      unfold byteOf
      ext k hk
      simp [BitVec.getElem_extractLsb', BitVec.getLsbD_eq_getElem, show k < 64 by omega]
    · rw [if_neg hx]
      by_cases hr : a ≤ x ∧ x < a + n
      · rw [if_pos hr, if_pos (by omega)]
        unfold byteOf
        ext k hk
        simp only [BitVec.getElem_extractLsb', BitVec.getLsbD_ushiftRight]
        congr 1
        omega
      · rw [if_neg hr, if_neg (by omega)]

/-- Bytes outside a write are as before (R35, R43). -/
theorem lookupByte_writeBytes_outside (m : List Host.Cell) {a n x : Nat} (v : Word) (h : x < a ∨ a + n ≤ x) :
    lookupByte (writeBytes m a n v) x = lookupByte m x := by
  rw [lookupByte_writeBytes, if_neg (by omega)]

theorem bigEndian_lt (m : List Host.Cell) (a n : Nat) : bigEndian m a n < 256 ^ n := by
  induction n with
  | zero => simp [bigEndian]
  | succ n ih =>
    have := (lookupByte m (a + n)).isLt
    simp only [bigEndian, pow_succ]
    omega

/-- A read of up to 8 bytes is the number they spell, zero-extended (R43, R74). -/
theorem readBytes_toNat (m : List Host.Cell) (a n : Nat) (hn : n ≤ 8) :
    (readBytes m a n).toNat = bigEndian m a n := by
  induction n with
  | zero => rfl
  | succ n ih =>
    have hlt := bigEndian_lt m a n
    have hb := (lookupByte m (a + n)).isLt
    have h7 : 256 ^ n ≤ 256 ^ 7 := Nat.pow_le_pow_right (by norm_num) (by omega)
    have ih := ih (by omega)
    have hshift : (readBytes m a n <<< 8).toNat = bigEndian m a n * 256 := by
      rw [BitVec.toNat_shiftLeft, ih, Nat.shiftLeft_eq, Nat.mod_eq_of_lt]
      · norm_num at h7 ⊢; omega
    have hw : ((lookupByte m (a + n)).setWidth 64).toNat = (lookupByte m (a + n)).toNat := by
      rw [BitVec.toNat_setWidth, Nat.mod_eq_of_lt (by omega)]
    simp only [readBytes, bigEndian]
    rw [BitVec.toNat_or, hshift, hw]
    have := Nat.two_pow_add_eq_or_of_lt (i := 8) (b := (lookupByte m (a + n)).toNat) hb (bigEndian m a n)
    rw [mul_comm, show (256 : Nat) = 2 ^ 8 from rfl, ← this]

/-- A read depends on the bytes it reads only. -/
theorem bigEndian_congr {m m' : List Host.Cell} {a n : Nat}
    (h : ∀ j, j < n → lookupByte m' (a + j) = lookupByte m (a + j)) : bigEndian m' a n = bigEndian m a n := by
  induction n with
  | zero => rfl
  | succ n ih => simp only [bigEndian, ih fun j hj => h j (by omega), h n (by omega)]

/-! ### Allocation -/

/-- Nothing is missing exactly when every address is allocated (R41). -/
theorem firstUnallocated_eq_none (regions : List Region) (a n : Nat) :
    firstUnallocated regions a n = none ↔ ∀ j, j < n → allocated regions (a + j) = true := by
  induction n with
  | zero => simp [firstUnallocated]
  | succ n ih =>
    simp only [firstUnallocated]
    cases h : firstUnallocated regions a n with
    | some x =>
      rw [h] at ih
      simp only [reduceCtorEq, false_iff] at ih ⊢
      exact fun hall => ih fun j hj => hall j (by omega)
    | none =>
      have hn := ih.mp h
      by_cases ha : allocated regions (a + n) = true
      · simp only [ha, if_true, true_iff]
        intro j hj
        by_cases e : j = n
        · exact e ▸ ha
        · exact hn j (by omega)
      · simp only [ha, Bool.false_eq_true, if_false, reduceCtorEq, false_iff]
        exact fun hall => ha (hall n (by omega))

/-- The address reported as missing is in the range, is not allocated, and every earlier one is. -/
theorem firstUnallocated_eq_some {regions : List Region} {a n x : Nat} (h : firstUnallocated regions a n = some x) :
    a ≤ x ∧ x < a + n ∧ allocated regions x = false ∧ ∀ y, a ≤ y → y < x → allocated regions y = true := by
  induction n with
  | zero => simp [firstUnallocated] at h
  | succ n ih =>
    simp only [firstUnallocated] at h
    cases hf : firstUnallocated regions a n with
    | some y =>
      rw [hf] at h ih
      have := ih h
      exact ⟨this.1, by omega, this.2.2⟩
    | none =>
      rw [hf] at h
      have hall := (firstUnallocated_eq_none regions a n).mp hf
      by_cases ha : allocated regions (a + n) = true
      · simp [ha] at h
      · simp only [ha, Bool.false_eq_true, if_false, Option.some.injEq] at h
        subst h
        refine ⟨by omega, by omega, by simpa using ha, fun y hy hlt => ?_⟩
        have := hall (y - a) (by omega)
        rwa [show a + (y - a) = y by omega] at this

/-- When a read answers, and what (R41, R43). -/
theorem memRead_ok {s : State} {pa : Word} {n : Nat} (h : AllAllocated s pa.toNat n) :
    memRead s pa n = .ok (readBytes s.mem pa.toNat n) := by
  unfold memRead; rw [(firstUnallocated_eq_none _ _ _).mpr h]

/-- When a write answers, and what (R41, R43). -/
theorem memWrite_ok {s : State} {pa : Word} {n : Nat} (v : Word) (h : AllAllocated s pa.toNat n) :
    memWrite s pa n v = .ok { s with mem := writeBytes s.mem pa.toNat n v } := by
  unfold memWrite; rw [(firstUnallocated_eq_none _ _ _).mpr h]

/-- Everything a read can answer. -/
theorem memRead_cases (s : State) (pa : Word) (n : Nat) :
    (AllAllocated s pa.toNat n ∧ memRead s pa n = .ok (readBytes s.mem pa.toNat n)) ∨
    (∃ x, pa.toNat ≤ x ∧ x < pa.toNat + n ∧ allocated s.alloc x = false ∧
      (∀ y, pa.toNat ≤ y → y < x → allocated s.alloc y = true) ∧
      memRead s pa n = .error (.unmodelledAddressSpace (BitVec.ofNat 64 x))) := by
  cases h : firstUnallocated s.alloc pa.toNat n with
  | none =>
    have := (firstUnallocated_eq_none _ _ _).mp h
    exact .inl ⟨this, memRead_ok this⟩
  | some x =>
    obtain ⟨h1, h2, h3, h4⟩ := firstUnallocated_eq_some h
    exact .inr ⟨x, h1, h2, h3, h4, by unfold memRead; rw [h]⟩

/-- Everything a write can answer. -/
theorem memWrite_cases (s : State) (pa : Word) (n : Nat) (v : Word) :
    (AllAllocated s pa.toNat n ∧ memWrite s pa n v = .ok { s with mem := writeBytes s.mem pa.toNat n v }) ∨
    (∃ x, pa.toNat ≤ x ∧ x < pa.toNat + n ∧ allocated s.alloc x = false ∧
      (∀ y, pa.toNat ≤ y → y < x → allocated s.alloc y = true) ∧
      memWrite s pa n v = .error (.unmodelledAddressSpace (BitVec.ofNat 64 x))) := by
  cases h : firstUnallocated s.alloc pa.toNat n with
  | none =>
    have := (firstUnallocated_eq_none _ _ _).mp h
    exact .inl ⟨this, memWrite_ok v this⟩
  | some x =>
    obtain ⟨h1, h2, h3, h4⟩ := firstUnallocated_eq_some h
    exact .inr ⟨x, h1, h2, h3, h4, by unfold memWrite; rw [h]⟩

/-- Memory at reset is in canonical form. -/
theorem reset_mem_wf : Memory.wf State.reset.mem = true := rfl

end Sys2Proof.Machine
end

