-- ==== Sys2Proof/Laws/Address.lean ====
section
/-! SUPPORT. Bit fields as numbers, and what the functions of address formation compute in those terms: the pieces from which
claims about displacements, space selection and address extension are proved. -/

namespace Sys2Proof.Machine

open Sys2Proof

/-! ### Bit fields as numbers -/

/-- Two fields side by side. -/
theorem toNat_append {n m : Nat} (x : BitVec n) (y : BitVec m) :
    (x ++ y).toNat = x.toNat * 2 ^ m + y.toNat := by
  rw [BitVec.toNat_append, ← Nat.shiftLeft_add_eq_or_of_lt y.isLt, Nat.shiftLeft_eq]

/-- A field cut out. -/
theorem toNat_extract {n : Nat} (x : BitVec n) (start len : Nat) :
    (x.extractLsb' start len).toNat = x.toNat / 2 ^ start % 2 ^ len := by
  simp [BitVec.extractLsb'_toNat, Nat.shiftRight_eq_div_pow]

/-- A field compared with a constant. -/
theorem extract_eq_iff (a : Word) (start len c : Nat) (hc : c < 2 ^ len) :
    a.extractLsb' start len = BitVec.ofNat len c ↔ a.toNat / 2 ^ start % 2 ^ len = c := by
  rw [← BitVec.toNat_inj, toNat_extract, BitVec.toNat_ofNat, Nat.mod_eq_of_lt hc]

/-! ### Displacements and the choice of the space (R25, R57, R58) -/

/-- The three leading bits of a wide displacement as a number. -/
theorem wideTop_toNat (i : BitVec 1) (sp : BitVec 2) :
    (wideTop i sp).toNat = i.toNat * 4 + (i.toNat + sp.toNat / 2) % 2 * 2 + (i.toNat + sp.toNat) % 2 := by
  revert i sp; decide

/-- The register an implicit pointer chooses. -/
theorem implicitSpace_toNat (w : Bool) (base : Word) :
    (implicitSpace w base).toNat =
      if w = true then 4 + base.toNat / 2 ^ 62 else 4 + base.toNat / 2 ^ 30 % 4 := by
  have := base.isLt
  unfold implicitSpace
  cases w
  · simp only [Bool.false_eq_true, if_false]
    rw [toNat_append, toNat_extract]
    simp only [BitVec.toNat_ofNat]
    omega
  · simp only [if_true]
    rw [toNat_append, toNat_extract]
    simp only [BitVec.toNat_ofNat]
    omega

/-- The offset that forms the address (R29). -/
theorem narrowOffset_toNat (w : Bool) (o : Word) :
    (narrowOffset w o).toNat = if w = true then o.toNat else o.toNat % 2 ^ 32 := by
  unfold narrowOffset
  cases w
  · simp only [Bool.false_eq_true, if_false, BitVec.toNat_setWidth, toNat_extract]
    omega
  · simp

/-! ### The address spaces of absolute addresses (R40) -/

theorem spaceOfW1_eq (a : Word) :
    spaceOfW1 a =
      if a.toNat % 2 ^ 62 / 2 ^ 54 = 0xF0 then .pdc
      else if a.toNat % 2 ^ 62 / 2 ^ 58 = 0xF then .io else .memory := by
  unfold spaceOfW1
  simp only [ne_eq, extract_eq_iff a 54 8 0xF0 (by norm_num), extract_eq_iff a 58 4 0xF (by norm_num)]
  have : a.toNat / 2 ^ 54 % 2 ^ 8 = a.toNat % 2 ^ 62 / 2 ^ 54 := by omega
  have : a.toNat / 2 ^ 58 % 2 ^ 4 = a.toNat % 2 ^ 62 / 2 ^ 58 := by omega
  grind

theorem spaceOfW0_eq (a : Word) :
    spaceOfW0 a =
      if a.toNat % 2 ^ 32 / 2 ^ 24 = 0xF0 then .pdc
      else if a.toNat % 2 ^ 32 / 2 ^ 28 = 0xF then .io else .memory := by
  unfold spaceOfW0
  simp only [ne_eq, extract_eq_iff a 24 8 0xF0 (by norm_num), extract_eq_iff a 28 4 0xF (by norm_num)]
  have : a.toNat / 2 ^ 24 % 2 ^ 8 = a.toNat % 2 ^ 32 / 2 ^ 24 := by omega
  have : a.toNat / 2 ^ 28 % 2 ^ 4 = a.toNat % 2 ^ 32 / 2 ^ 28 := by omega
  grind

/-! ### The virtual address (R30, R31) -/

/-- A bit of a field. -/
theorem bitsFrom_testBit (x width j : Nat) (o : Option Nat) :
    (bitsFrom x width o).testBit j = (decide (j < width) && o.any fun k => x.testBit (k + j)) := by
  cases o <;> simp [bitsFrom, Nat.testBit_mod_two_pow, Nat.testBit_shiftRight]

theorem bitsFrom_lt (x width : Nat) (o : Option Nat) : bitsFrom x width o < 2 ^ width := by
  cases o with
  | none => exact Nat.two_pow_pos width
  | some k => exact Nat.mod_lt _ (Nat.two_pow_pos width)

@[simp] theorem vaCombine_nil (space : Nat) (off : Word) : vaCombine [] space off = 0 := rfl

/-- One bit of a virtual address: in the first field the space bit and the offset bit it names, ORed; above it a bit of the
other fields (R30). -/
theorem vaCombine_testBit (e : VaField) (es : List VaField) (space : Nat) (off : Word) (j : Nat) :
    (vaCombine (e :: es) space off).testBit j =
      if j < e.width then (e.space.any fun k => space.testBit (k + j)) || e.offset.any fun k => off.getLsbD (k + j)
      else (vaCombine es space off).testBit (j - e.width) := by
  rw [vaCombine, Nat.testBit_two_pow_mul_add _ (Nat.or_lt_two_pow (bitsFrom_lt ..) (bitsFrom_lt ..))]
  by_cases h : j < e.width <;> simp [h, bitsFrom_testBit, BitVec.getLsbD]

/-- A bit in the default layout (R31). -/
theorem vaCombine_default_testBit (space : Nat) (off : Word) (j : Nat) :
    (vaCombine defaultVaLayout space off).testBit j =
      (decide (j < 96) && ((decide (j < 62) && off.getLsbD j) || (decide (32 ≤ j) && space.testBit (j - 32)))) := by
  simp only [defaultVaLayout, vaCombine_testBit, Option.any_none, Option.any_some, vaCombine_nil, Nat.zero_testBit,
    Bool.false_or, Bool.or_false, Nat.zero_add]
  by_cases h32 : j < 32
  · simp [h32, show j < 62 by omega, show j < 96 by omega, show ¬ 32 ≤ j by omega]
  by_cases h62 : j < 62
  · simp [h32, h62, show j - 32 < 30 by omega, show j < 96 by omega, show 32 ≤ j by omega,
      show 32 + (j - 32) = j by omega, Bool.or_comm]
  by_cases h96 : j < 96
  · simp [h32, h62, h96, show ¬ j - 32 < 30 by omega, show j - 32 - 30 < 34 by omega, show 32 ≤ j by omega,
      show 30 + (j - 32 - 30) = j - 32 by omega]
  · simp [h32, h62, h96, show ¬ j - 32 < 30 by omega, show ¬ j - 32 - 30 < 34 by omega]

/-- The default of `VaCombine` as R31 writes it: the 64-bit space shifted left by 32, ORed with offset bits 2..63. -/
theorem vaCombine_default (space : Nat) (off : Word) :
    vaCombine defaultVaLayout space off = (space % 2 ^ 64) <<< 32 ||| off.toNat % 2 ^ 62 := by
  apply Nat.eq_of_testBit_eq
  intro j
  rw [vaCombine_default_testBit]
  simp only [Nat.testBit_or, Nat.testBit_shiftLeft, Nat.testBit_mod_two_pow, BitVec.getLsbD]
  by_cases h96 : j < 96
  · by_cases h32 : 32 ≤ j
    · simp [h96, h32, show j - 32 < 64 by omega, Bool.or_comm]
    · simp [h96, h32]
  · simp [h96, show ¬ j - 32 < 64 by omega, show ¬ j < 62 by omega]

/-! ### Translation (R24, R32) -/

/-- A translated address keeps the low three bits of the offset (R44; D4). -/
theorem translateVa_low {ts : List Translation} {k : Access} {va : Nat} {off pa : Word}
    (h : translateVa ts k va off = some pa) : pa.toNat % 8 = off.toNat % 8 := by
  induction ts with
  | nil => simp [translateVa] at h
  | cons e es ih =>
    simp only [translateVa] at h
    split at h
    · simp only [Option.some.injEq] at h
      subst h
      unfold Translation.target
      rw [toNat_append, toNat_extract off]
      omega
    · exact ih h

/-- With data translation enabled an address is formed from the space register chosen and the offset, or faults (R24). -/
theorem dataAddress_enabled (s : State) (k : Access) (fmt : Fmt) (sp : BitVec 2) (base o : Word)
    (h : s.dataTranslation = true) :
    dataAddress s k fmt sp base o =
      match translateVa s.params.translations k (dataVa s fmt sp base (narrowOffset s.pswW o)) (narrowOffset s.pswW o) with
      | some pa => .ok (narrowOffset s.pswW o, pa)
      | none => .error (.dataTranslationFault (dataVa s fmt sp base (narrowOffset s.pswW o)) k) := by
  unfold dataAddress
  rw [h]
  rfl

/-- The only way address formation stops (R24). -/
theorem dataAddress_error {s : State} {k : Access} {fmt : Fmt} {sp : BitVec 2} {base o : Word} {e : Fault}
    (h : dataAddress s k fmt sp base o = .error e) : ∃ va, e = .dataTranslationFault va k := by
  unfold dataAddress at h
  simp only at h
  split at h
  · split at h
    · cases h
    · exact ⟨_, (Except.error.inj h).symm⟩
  · cases h

end Sys2Proof.Machine
end

