-- ==== Sys2Proof/Laws/Encoding.lean ====
section
/-! SUPPORT. The fields of an encoded word are the fields it was made of (R49 to R54), and the completer tables read back what
they wrote (R61 to R63). -/

namespace Sys2Proof

/-! ### Format `L14` (R49) -/

@[simp] theorem fieldOp_encodeL14 (op : BitVec 6) (b t : Reg) (sp : BitVec 2) (im14 : BitVec 14) :
    fieldOp (encodeL14 op b t sp im14) = op := by
  unfold fieldOp encodeL14
  ext k hk
  simp only [BitVec.getElem_extractLsb', BitVec.getLsbD_append]
  grind

@[simp] theorem fieldB_encodeL14 (op : BitVec 6) (b t : Reg) (sp : BitVec 2) (im14 : BitVec 14) :
    fieldB (encodeL14 op b t sp im14) = b := by
  unfold fieldB encodeL14
  ext k hk
  simp only [BitVec.getElem_extractLsb', BitVec.getLsbD_append]
  grind

@[simp] theorem fieldMid_encodeL14 (op : BitVec 6) (b t : Reg) (sp : BitVec 2) (im14 : BitVec 14) :
    fieldMid (encodeL14 op b t sp im14) = t := by
  unfold fieldMid encodeL14
  ext k hk
  simp only [BitVec.getElem_extractLsb', BitVec.getLsbD_append]
  grind

@[simp] theorem fieldS_encodeL14 (op : BitVec 6) (b t : Reg) (sp : BitVec 2) (im14 : BitVec 14) :
    fieldS (encodeL14 op b t sp im14) = sp := by
  unfold fieldS encodeL14
  ext k hk
  simp only [BitVec.getElem_extractLsb', BitVec.getLsbD_append]
  grind

@[simp] theorem fieldIm14_encodeL14 (op : BitVec 6) (b t : Reg) (sp : BitVec 2) (im14 : BitVec 14) :
    fieldIm14 (encodeL14 op b t sp im14) = im14 := by
  unfold fieldIm14 encodeL14
  ext k hk
  simp only [BitVec.getElem_extractLsb', BitVec.getLsbD_append]
  grind

/-! ### Format `L11` (R50) -/

@[simp] theorem fieldOp_encodeL11 (op : BitVec 6) (b t : Reg) (sp : BitVec 2) (im11a : BitVec 11) (i : BitVec 1) :
    fieldOp (encodeL11 op b t sp im11a i) = op := by
  unfold fieldOp encodeL11
  ext k hk
  simp only [BitVec.getElem_extractLsb', BitVec.getLsbD_append]
  grind

@[simp] theorem fieldB_encodeL11 (op : BitVec 6) (b t : Reg) (sp : BitVec 2) (im11a : BitVec 11) (i : BitVec 1) :
    fieldB (encodeL11 op b t sp im11a i) = b := by
  unfold fieldB encodeL11
  ext k hk
  simp only [BitVec.getElem_extractLsb', BitVec.getLsbD_append]
  grind

@[simp] theorem fieldMid_encodeL11 (op : BitVec 6) (b t : Reg) (sp : BitVec 2) (im11a : BitVec 11) (i : BitVec 1) :
    fieldMid (encodeL11 op b t sp im11a i) = t := by
  unfold fieldMid encodeL11
  ext k hk
  simp only [BitVec.getElem_extractLsb', BitVec.getLsbD_append]
  grind

@[simp] theorem fieldS_encodeL11 (op : BitVec 6) (b t : Reg) (sp : BitVec 2) (im11a : BitVec 11) (i : BitVec 1) :
    fieldS (encodeL11 op b t sp im11a i) = sp := by
  unfold fieldS encodeL11
  ext k hk
  simp only [BitVec.getElem_extractLsb', BitVec.getLsbD_append]
  grind

@[simp] theorem fieldIm11a_encodeL11 (op : BitVec 6) (b t : Reg) (sp : BitVec 2) (im11a : BitVec 11) (i : BitVec 1) :
    fieldIm11a (encodeL11 op b t sp im11a i) = im11a := by
  unfold fieldIm11a encodeL11
  ext k hk
  simp only [BitVec.getElem_extractLsb', BitVec.getLsbD_append]
  grind

@[simp] theorem fieldOp2_encodeL11 (op : BitVec 6) (b t : Reg) (sp : BitVec 2) (im11a : BitVec 11) (i : BitVec 1) :
    fieldOp2 (encodeL11 op b t sp im11a i) = 0b10#2 := by
  unfold fieldOp2 encodeL11
  ext k hk
  simp only [BitVec.getElem_extractLsb', BitVec.getLsbD_append]
  grind

@[simp] theorem fieldI_encodeL11 (op : BitVec 6) (b t : Reg) (sp : BitVec 2) (im11a : BitVec 11) (i : BitVec 1) :
    fieldI (encodeL11 op b t sp im11a i) = i := by
  unfold fieldI encodeL11
  ext k hk
  simp only [BitVec.getElem_extractLsb', BitVec.getLsbD_append]
  grind

/-! ### Format `L10` (R51) -/

@[simp] theorem fieldOp_encodeL10 (op : BitVec 6) (b t : Reg) (sp : BitVec 2) (im10a : BitVec 10) (mop2 : BitVec 3) (i : BitVec 1) :
    fieldOp (encodeL10 op b t sp im10a mop2 i) = op := by
  unfold fieldOp encodeL10
  ext k hk
  simp only [BitVec.getElem_extractLsb', BitVec.getLsbD_append]
  grind

@[simp] theorem fieldB_encodeL10 (op : BitVec 6) (b t : Reg) (sp : BitVec 2) (im10a : BitVec 10) (mop2 : BitVec 3) (i : BitVec 1) :
    fieldB (encodeL10 op b t sp im10a mop2 i) = b := by
  unfold fieldB encodeL10
  ext k hk
  simp only [BitVec.getElem_extractLsb', BitVec.getLsbD_append]
  grind

@[simp] theorem fieldMid_encodeL10 (op : BitVec 6) (b t : Reg) (sp : BitVec 2) (im10a : BitVec 10) (mop2 : BitVec 3) (i : BitVec 1) :
    fieldMid (encodeL10 op b t sp im10a mop2 i) = t := by
  unfold fieldMid encodeL10
  ext k hk
  simp only [BitVec.getElem_extractLsb', BitVec.getLsbD_append]
  grind

@[simp] theorem fieldS_encodeL10 (op : BitVec 6) (b t : Reg) (sp : BitVec 2) (im10a : BitVec 10) (mop2 : BitVec 3) (i : BitVec 1) :
    fieldS (encodeL10 op b t sp im10a mop2 i) = sp := by
  unfold fieldS encodeL10
  ext k hk
  simp only [BitVec.getElem_extractLsb', BitVec.getLsbD_append]
  grind

@[simp] theorem fieldIm10a_encodeL10 (op : BitVec 6) (b t : Reg) (sp : BitVec 2) (im10a : BitVec 10) (mop2 : BitVec 3) (i : BitVec 1) :
    fieldIm10a (encodeL10 op b t sp im10a mop2 i) = im10a := by
  unfold fieldIm10a encodeL10
  ext k hk
  simp only [BitVec.getElem_extractLsb', BitVec.getLsbD_append]
  grind

@[simp] theorem fieldMOp2_encodeL10 (op : BitVec 6) (b t : Reg) (sp : BitVec 2) (im10a : BitVec 10) (mop2 : BitVec 3) (i : BitVec 1) :
    fieldMOp2 (encodeL10 op b t sp im10a mop2 i) = mop2 := by
  unfold fieldMOp2 encodeL10
  ext k hk
  simp only [BitVec.getElem_extractLsb', BitVec.getLsbD_append]
  grind

@[simp] theorem fieldI_encodeL10 (op : BitVec 6) (b t : Reg) (sp : BitVec 2) (im10a : BitVec 10) (mop2 : BitVec 3) (i : BitVec 1) :
    fieldI (encodeL10 op b t sp im10a mop2 i) = i := by
  unfold fieldI encodeL10
  ext k hk
  simp only [BitVec.getElem_extractLsb', BitVec.getLsbD_append]
  grind

/-! ### The formats of opcode 03 (R52 to R54) -/

@[simp] theorem fieldOp_encodeOp03 (b mid : Reg) (sp : BitVec 2) (a short : BitVec 1) (cc : BitVec 2) (ext4 : BitVec 4)
    (m : BitVec 1) (low : BitVec 5) :
    fieldOp (encodeOp03 b mid sp a short cc ext4 m low) = 0x03#6 := by
  unfold fieldOp encodeOp03
  ext k hk
  simp only [BitVec.getElem_extractLsb', BitVec.getLsbD_append]
  grind

@[simp] theorem fieldB_encodeOp03 (b mid : Reg) (sp : BitVec 2) (a short : BitVec 1) (cc : BitVec 2) (ext4 : BitVec 4)
    (m : BitVec 1) (low : BitVec 5) :
    fieldB (encodeOp03 b mid sp a short cc ext4 m low) = b := by
  unfold fieldB encodeOp03
  ext k hk
  simp only [BitVec.getElem_extractLsb', BitVec.getLsbD_append]
  grind

@[simp] theorem fieldMid_encodeOp03 (b mid : Reg) (sp : BitVec 2) (a short : BitVec 1) (cc : BitVec 2) (ext4 : BitVec 4)
    (m : BitVec 1) (low : BitVec 5) :
    fieldMid (encodeOp03 b mid sp a short cc ext4 m low) = mid := by
  unfold fieldMid encodeOp03
  ext k hk
  simp only [BitVec.getElem_extractLsb', BitVec.getLsbD_append]
  grind

@[simp] theorem fieldS_encodeOp03 (b mid : Reg) (sp : BitVec 2) (a short : BitVec 1) (cc : BitVec 2) (ext4 : BitVec 4)
    (m : BitVec 1) (low : BitVec 5) :
    fieldS (encodeOp03 b mid sp a short cc ext4 m low) = sp := by
  unfold fieldS encodeOp03
  ext k hk
  simp only [BitVec.getElem_extractLsb', BitVec.getLsbD_append]
  grind

@[simp] theorem fieldA_encodeOp03 (b mid : Reg) (sp : BitVec 2) (a short : BitVec 1) (cc : BitVec 2) (ext4 : BitVec 4)
    (m : BitVec 1) (low : BitVec 5) :
    fieldA (encodeOp03 b mid sp a short cc ext4 m low) = a := by
  unfold fieldA encodeOp03
  ext k hk
  simp only [BitVec.getElem_extractLsb', BitVec.getLsbD_append]
  grind

@[simp] theorem fieldShort_encodeOp03 (b mid : Reg) (sp : BitVec 2) (a short : BitVec 1) (cc : BitVec 2) (ext4 : BitVec 4)
    (m : BitVec 1) (low : BitVec 5) :
    fieldShort (encodeOp03 b mid sp a short cc ext4 m low) = short := by
  unfold fieldShort encodeOp03
  ext k hk
  simp only [BitVec.getElem_extractLsb', BitVec.getLsbD_append]
  grind

@[simp] theorem fieldCc_encodeOp03 (b mid : Reg) (sp : BitVec 2) (a short : BitVec 1) (cc : BitVec 2) (ext4 : BitVec 4)
    (m : BitVec 1) (low : BitVec 5) :
    fieldCc (encodeOp03 b mid sp a short cc ext4 m low) = cc := by
  unfold fieldCc encodeOp03
  ext k hk
  simp only [BitVec.getElem_extractLsb', BitVec.getLsbD_append]
  grind

@[simp] theorem fieldExt4_encodeOp03 (b mid : Reg) (sp : BitVec 2) (a short : BitVec 1) (cc : BitVec 2) (ext4 : BitVec 4)
    (m : BitVec 1) (low : BitVec 5) :
    fieldExt4 (encodeOp03 b mid sp a short cc ext4 m low) = ext4 := by
  unfold fieldExt4 encodeOp03
  ext k hk
  simp only [BitVec.getElem_extractLsb', BitVec.getLsbD_append]
  grind

@[simp] theorem fieldM_encodeOp03 (b mid : Reg) (sp : BitVec 2) (a short : BitVec 1) (cc : BitVec 2) (ext4 : BitVec 4)
    (m : BitVec 1) (low : BitVec 5) :
    fieldM (encodeOp03 b mid sp a short cc ext4 m low) = m := by
  unfold fieldM encodeOp03
  ext k hk
  simp only [BitVec.getElem_extractLsb', BitVec.getLsbD_append]
  grind

@[simp] theorem fieldLow_encodeOp03 (b mid : Reg) (sp : BitVec 2) (a short : BitVec 1) (cc : BitVec 2) (ext4 : BitVec 4)
    (m : BitVec 1) (low : BitVec 5) :
    fieldLow (encodeOp03 b mid sp a short cc ext4 m low) = low := by
  unfold fieldLow encodeOp03
  ext k hk
  simp only [BitVec.getElem_extractLsb', BitVec.getLsbD_append]
  grind

/-! ### A word is what its fields make (R49 to R54) -/

theorem encodeL14_fields (w : InstrWord) :
    encodeL14 (fieldOp w) (fieldB w) (fieldMid w) (fieldS w) (fieldIm14 w) = w := by
  unfold encodeL14 fieldOp fieldB fieldMid fieldS fieldIm14
  ext k hk
  simp only [BitVec.getElem_append, BitVec.getElem_extractLsb']
  grind

theorem encodeL11_fields (w : InstrWord) (h : fieldOp2 w = 0b10#2) :
    encodeL11 (fieldOp w) (fieldB w) (fieldMid w) (fieldS w) (fieldIm11a w) (fieldI w) = w := by
  unfold encodeL11
  rw [← h]
  unfold fieldOp fieldB fieldMid fieldS fieldIm11a fieldI fieldOp2
  ext k hk
  simp only [BitVec.getElem_append, BitVec.getElem_extractLsb']
  grind

theorem encodeL10_fields (w : InstrWord) :
    encodeL10 (fieldOp w) (fieldB w) (fieldMid w) (fieldS w) (fieldIm10a w) (fieldMOp2 w) (fieldI w) = w := by
  unfold encodeL10 fieldOp fieldB fieldMid fieldS fieldIm10a fieldI fieldMOp2
  ext k hk
  simp only [BitVec.getElem_append, BitVec.getElem_extractLsb']
  grind

theorem encodeOp03_fields (w : InstrWord) (h : fieldOp w = 0x03#6) :
    encodeOp03 (fieldB w) (fieldMid w) (fieldS w) (fieldA w) (fieldShort w) (fieldCc w) (fieldExt4 w) (fieldM w)
      (fieldLow w) = w := by
  unfold encodeOp03
  rw [← h]
  unfold fieldOp fieldB fieldMid fieldS fieldA fieldShort fieldCc fieldExt4 fieldM fieldLow
  ext k hk
  simp only [BitVec.getElem_append, BitVec.getElem_extractLsb']
  grind

/-! ### The completer tables -/

/-- Table H-1, written and read back, for a field the completer admits (R61). -/
@[simp] theorem shortCompleter_bits (c : ShortCmplt) (im5 : BitVec 5) (h : c.admits im5 = true) :
    shortCompleter c.aBit c.mBit im5 = c := by
  cases c <;> simp_all [shortCompleter, ShortCmplt.aBit, ShortCmplt.mBit, ShortCmplt.admits]

/-- Table H-2, written and read back (R62). -/
@[simp] theorem bytesCompleter_bits (c : BytesCmplt) : bytesCompleter c.aBit c.mBit = c := by
  cases c <;> rfl

/-- Table H-3, written and read back (R63). -/
@[simp] theorem indexCompleter_bits (c : IndexCmplt) : indexCompleter c.uBit c.mBit = c := by
  cases c <;> rfl

/-- A completer read from a word admits the field it was read with (R61, R72). -/
theorem shortCompleter_admits (a m : BitVec 1) (im5 : BitVec 5) : (shortCompleter a m im5).admits im5 = true := by
  unfold shortCompleter
  split
  · rfl
  · split
    · rfl
    · split
      · rename_i h; simp [ShortCmplt.admits, h]
      · rename_i h; simpa [ShortCmplt.admits] using h

/-! ### Decoding by a table (R3, R68) -/

/-- Everything a decoded word implies: a row of the table matches it and reads it. -/
theorem decodeWith_ok {table : List DecodeRow} {w : InstrWord} {i : Instr} (h : decodeWith table w = .ok i) :
    ∃ r ∈ table, r.words.matchesWord w = true ∧ i = r.name.read w := by
  induction table with
  | nil => cases h
  | cons r rs ih =>
    by_cases hm : r.words.matchesWord w = true
    · exact ⟨r, by simp, hm, by simpa [decodeWith, hm] using h.symm⟩
    · obtain ⟨r', hr, hx⟩ := ih (by simpa [decodeWith, hm] using h)
      exact ⟨r', by simp [hr], hx⟩

/-- A row that matches decodes, when no row before it does. -/
theorem decodeWith_append {before after : List DecodeRow} {r : DecodeRow} {w : InstrWord}
    (hb : ∀ x ∈ before, x.words.matchesWord w = false) (hr : r.words.matchesWord w = true) :
    decodeWith (before ++ r :: after) w = .ok (r.name.read w) := by
  induction before with
  | nil => simp [decodeWith, hr]
  | cons x xs ih =>
    simp only [List.cons_append, decodeWith, hb x (by simp), Bool.false_eq_true, if_false]
    exact ih fun y hy => hb y (by simp [hy])

end Sys2Proof
end

