-- ==== Sys2Proof/Laws/State.lean ====
section
/-! SUPPORT. What each named update of the state does to each field, and the laws of the register file. -/

namespace Sys2Proof.Machine

/-! ### `advance` -/

@[simp] theorem advance_gr (s : State) : (advance s).gr = s.gr := rfl
@[simp] theorem advance_sr (s : State) : (advance s).sr = s.sr := rfl
@[simp] theorem advance_pswW (s : State) : (advance s).pswW = s.pswW := rfl
@[simp] theorem advance_dataTranslation (s : State) : (advance s).dataTranslation = s.dataTranslation := rfl
@[simp] theorem advance_pc (s : State) : (advance s).pc = s.pc + 4#64 := rfl
@[simp] theorem advance_text (s : State) : (advance s).text = s.text := rfl
@[simp] theorem advance_mem (s : State) : (advance s).mem = s.mem := rfl
@[simp] theorem advance_alloc (s : State) : (advance s).alloc = s.alloc := rfl
@[simp] theorem advance_params (s : State) : (advance s).params = s.params := rfl
@[simp] theorem advance_freeCount (s : State) : (advance s).freeCount = s.freeCount := rfl

/-! ### `writeGr` -/

/-- A register write is either nothing (register 0) or one entry of the register file (R11). -/
theorem writeGr_cases (s : State) (i : Reg) (v : Word) :
    (i = 0#5 ∧ writeGr s i v = s) ∨
    (i ≠ 0#5 ∧ writeGr s i v = { s with gr := s.gr.set i.toNat v i.isLt }) := by
  unfold writeGr
  by_cases h : i = 0#5 <;> simp [h]

@[simp] theorem writeGr_sr (s : State) (i : Reg) (v : Word) : (writeGr s i v).sr = s.sr := by
  unfold writeGr; split <;> rfl
@[simp] theorem writeGr_pswW (s : State) (i : Reg) (v : Word) : (writeGr s i v).pswW = s.pswW := by
  unfold writeGr; split <;> rfl
@[simp] theorem writeGr_dataTranslation (s : State) (i : Reg) (v : Word) :
    (writeGr s i v).dataTranslation = s.dataTranslation := by unfold writeGr; split <;> rfl
@[simp] theorem writeGr_pc (s : State) (i : Reg) (v : Word) : (writeGr s i v).pc = s.pc := by
  unfold writeGr; split <;> rfl
@[simp] theorem writeGr_text (s : State) (i : Reg) (v : Word) : (writeGr s i v).text = s.text := by
  unfold writeGr; split <;> rfl
@[simp] theorem writeGr_mem (s : State) (i : Reg) (v : Word) : (writeGr s i v).mem = s.mem := by
  unfold writeGr; split <;> rfl
@[simp] theorem writeGr_alloc (s : State) (i : Reg) (v : Word) : (writeGr s i v).alloc = s.alloc := by
  unfold writeGr; split <;> rfl
@[simp] theorem writeGr_params (s : State) (i : Reg) (v : Word) :
    (writeGr s i v).params = s.params := by unfold writeGr; split <;> rfl
@[simp] theorem writeGr_freeCount (s : State) (i : Reg) (v : Word) :
    (writeGr s i v).freeCount = s.freeCount := by unfold writeGr; split <;> rfl

/-! ### Reading a register after an update -/

@[simp] theorem readGr_zero (s : State) : readGr s 0#5 = 0#64 := rfl

/-- A read looks at the register file only. -/
theorem readGr_congr {s t : State} (h : t.gr = s.gr) (i : Reg) : readGr t i = readGr s i := by
  unfold readGr; simp only [h]

@[simp] theorem readGr_advance (s : State) (i : Reg) : readGr (advance s) i = readGr s i := rfl

theorem readGr_writeGr_same (s : State) (i : Reg) (v : Word) (h : i ≠ 0#5) : readGr (writeGr s i v) i = v := by
  simp [readGr, writeGr, h]

theorem readGr_writeGr_other (s : State) (i j : Reg) (v : Word) (h : j ≠ i) :
    readGr (writeGr s i v) j = readGr s j := by
  unfold readGr writeGr
  by_cases hj : j = 0#5
  · simp [hj]
  · by_cases hi : i = 0#5
    · simp [hi]
    · have : i.toNat ≠ j.toNat := fun e => h (BitVec.eq_of_toNat_eq e.symm)
      simp [hi, hj, Vector.getElem_set_ne, this]

/-- What a register holds after a register write, register 0 included (R11). -/
theorem readGr_writeGr (s : State) (i j : Reg) (v : Word) :
    readGr (writeGr s i v) j = if j = i then (if i = 0#5 then 0#64 else v) else readGr s j := by
  by_cases h : j = i
  · subst h
    by_cases h0 : j = 0#5
    · simp [h0]
    · simp [h0, readGr_writeGr_same]
  · simp [h, readGr_writeGr_other]

/-- A register write leaves entry 0 of the file alone (R11). -/
theorem writeGr_entry_zero (s : State) (i : Reg) (v : Word) : (writeGr s i v).gr[0] = s.gr[0] := by
  rcases writeGr_cases s i v with ⟨_, e⟩ | ⟨h, e⟩
  · rw [e]
  · rw [e]
    have : i.toNat ≠ 0 := fun h' => h (BitVec.eq_of_toNat_eq (by simpa using h'))
    simp [Vector.getElem_set_ne, this]

/-! ### `writeBase` and `writeFreeBase` -/

@[simp] theorem writeBase_none (s : State) (b : Reg) : writeBase s b none = s := rfl
@[simp] theorem writeBase_some (s : State) (b : Reg) (v : Word) : writeBase s b (some v) = writeGr s b v := rfl

@[simp] theorem writeFreeBase_sr (s : State) (b : Reg) : (writeFreeBase s b).sr = s.sr := by simp [writeFreeBase]
@[simp] theorem writeFreeBase_pswW (s : State) (b : Reg) : (writeFreeBase s b).pswW = s.pswW := by simp [writeFreeBase]
@[simp] theorem writeFreeBase_dataTranslation (s : State) (b : Reg) :
    (writeFreeBase s b).dataTranslation = s.dataTranslation := by simp [writeFreeBase]
@[simp] theorem writeFreeBase_pc (s : State) (b : Reg) : (writeFreeBase s b).pc = s.pc := by simp [writeFreeBase]
@[simp] theorem writeFreeBase_text (s : State) (b : Reg) : (writeFreeBase s b).text = s.text := by simp [writeFreeBase]
@[simp] theorem writeFreeBase_mem (s : State) (b : Reg) : (writeFreeBase s b).mem = s.mem := by simp [writeFreeBase]
@[simp] theorem writeFreeBase_alloc (s : State) (b : Reg) : (writeFreeBase s b).alloc = s.alloc := by simp [writeFreeBase]
@[simp] theorem writeFreeBase_params (s : State) (b : Reg) :
    (writeFreeBase s b).params = s.params := by simp [writeFreeBase]
@[simp] theorem writeFreeBase_freeCount (s : State) (b : Reg) :
    (writeFreeBase s b).freeCount = s.freeCount + 1 := rfl
@[simp] theorem writeFreeBase_gr (s : State) (b : Reg) :
    (writeFreeBase s b).gr = (writeGr s b (Config.freeBase s.freeCount)).gr := rfl

theorem readGr_writeFreeBase (s : State) (b j : Reg) :
    readGr (writeFreeBase s b) j = readGr (writeGr s b (Config.freeBase s.freeCount)) j :=
  readGr_congr rfl j

theorem readGr_writeBase (s : State) (b j : Reg) (nb : Option Word) :
    readGr (writeBase s b nb) j =
      if j = b ∧ b ≠ 0#5 then nb.getD (readGr s j) else readGr s j := by
  cases nb with
  | none => simp
  | some v =>
    rw [writeBase_some, readGr_writeGr]
    by_cases h : j = b
    · by_cases hb : b = 0#5 <;> simp [h, hb]
    · simp [h]

@[simp] theorem writeBase_sr (s : State) (b : Reg) (nb : Option Word) : (writeBase s b nb).sr = s.sr := by
  cases nb <;> simp
@[simp] theorem writeBase_pswW (s : State) (b : Reg) (nb : Option Word) : (writeBase s b nb).pswW = s.pswW := by
  cases nb <;> simp
@[simp] theorem writeBase_dataTranslation (s : State) (b : Reg) (nb : Option Word) :
    (writeBase s b nb).dataTranslation = s.dataTranslation := by cases nb <;> simp
@[simp] theorem writeBase_pc (s : State) (b : Reg) (nb : Option Word) : (writeBase s b nb).pc = s.pc := by
  cases nb <;> simp
@[simp] theorem writeBase_text (s : State) (b : Reg) (nb : Option Word) : (writeBase s b nb).text = s.text := by
  cases nb <;> simp
@[simp] theorem writeBase_mem (s : State) (b : Reg) (nb : Option Word) : (writeBase s b nb).mem = s.mem := by
  cases nb <;> simp
@[simp] theorem writeBase_alloc (s : State) (b : Reg) (nb : Option Word) : (writeBase s b nb).alloc = s.alloc := by
  cases nb <;> simp
@[simp] theorem writeBase_params (s : State) (b : Reg) (nb : Option Word) :
    (writeBase s b nb).params = s.params := by cases nb <;> simp
@[simp] theorem writeBase_freeCount (s : State) (b : Reg) (nb : Option Word) :
    (writeBase s b nb).freeCount = s.freeCount := by cases nb <;> simp

/-- Writing a base register leaves entry 0 of the file alone (R11). -/
theorem writeBase_entry_zero (s : State) (b : Reg) (nb : Option Word) : (writeBase s b nb).gr[0] = s.gr[0] := by
  cases nb with
  | none => rfl
  | some v => exact writeGr_entry_zero s b v

end Sys2Proof.Machine
end

