-- ==== Sys2Proof/Laws/Ops.lean ====
section
/-! SUPPORT. What each procedure can do, said once: when it completes and with what state, and everything a completed run of
it implies. -/

namespace Sys2Proof.Machine

open Sys2Proof.Safety

/-! ### The register writes of a load -/

theorem finishLoad_none (s : State) (b t : Reg) (v : Word) : finishLoad s b t none v = advance (writeGr s t v) := rfl

theorem finishLoad_some (s : State) (b t : Reg) (sum v : Word) :
    finishLoad s b t (some sum) v =
      if t = b then advance (writeFreeBase s b) else advance (writeGr (writeGr s b sum) t v) := rfl

@[simp] theorem finishLoad_sr (s : State) (b t : Reg) (nb : Option Word) (v : Word) :
    (finishLoad s b t nb v).sr = s.sr := by
  cases nb with
  | none => simp [finishLoad_none]
  | some sum => rw [finishLoad_some]; split <;> simp
@[simp] theorem finishLoad_pswW (s : State) (b t : Reg) (nb : Option Word) (v : Word) :
    (finishLoad s b t nb v).pswW = s.pswW := by
  cases nb with
  | none => simp [finishLoad_none]
  | some sum => rw [finishLoad_some]; split <;> simp
@[simp] theorem finishLoad_dataTranslation (s : State) (b t : Reg) (nb : Option Word) (v : Word) :
    (finishLoad s b t nb v).dataTranslation = s.dataTranslation := by
  cases nb with
  | none => simp [finishLoad_none]
  | some sum => rw [finishLoad_some]; split <;> simp
@[simp] theorem finishLoad_pc (s : State) (b t : Reg) (nb : Option Word) (v : Word) :
    (finishLoad s b t nb v).pc = s.pc + 4#64 := by
  cases nb with
  | none => simp [finishLoad_none]
  | some sum => rw [finishLoad_some]; split <;> simp
@[simp] theorem finishLoad_text (s : State) (b t : Reg) (nb : Option Word) (v : Word) :
    (finishLoad s b t nb v).text = s.text := by
  cases nb with
  | none => simp [finishLoad_none]
  | some sum => rw [finishLoad_some]; split <;> simp
@[simp] theorem finishLoad_mem (s : State) (b t : Reg) (nb : Option Word) (v : Word) :
    (finishLoad s b t nb v).mem = s.mem := by
  cases nb with
  | none => simp [finishLoad_none]
  | some sum => rw [finishLoad_some]; split <;> simp
@[simp] theorem finishLoad_alloc (s : State) (b t : Reg) (nb : Option Word) (v : Word) :
    (finishLoad s b t nb v).alloc = s.alloc := by
  cases nb with
  | none => simp [finishLoad_none]
  | some sum => rw [finishLoad_some]; split <;> simp
@[simp] theorem finishLoad_params (s : State) (b t : Reg) (nb : Option Word) (v : Word) :
    (finishLoad s b t nb v).params = s.params := by
  cases nb with
  | none => simp [finishLoad_none]
  | some sum => rw [finishLoad_some]; split <;> simp

/-- The counter moves exactly when a free value is drawn. -/
theorem finishLoad_freeCount (s : State) (b t : Reg) (nb : Option Word) (v : Word) :
    (finishLoad s b t nb v).freeCount = if nb.isSome ∧ t = b then s.freeCount + 1 else s.freeCount := by
  cases nb with
  | none => simp [finishLoad_none]
  | some sum => rw [finishLoad_some]; split <;> simp [*]

/-- A register that is neither the target nor a modified base keeps its value. -/
theorem readGr_finishLoad_other (s : State) (b t j : Reg) (nb : Option Word) (v : Word) (ht : j ≠ t)
    (hb : nb.isSome → j ≠ b) : readGr (finishLoad s b t nb v) j = readGr s j := by
  cases nb with
  | none => rw [finishLoad_none, readGr_advance, readGr_writeGr_other _ _ _ _ ht]
  | some sum =>
    have hb := hb rfl
    rw [finishLoad_some]
    split
    · rw [readGr_advance, readGr_writeFreeBase, readGr_writeGr_other _ _ _ _ hb]
    · rw [readGr_advance, readGr_writeGr_other _ _ _ _ ht, readGr_writeGr_other _ _ _ _ hb]

/-- The target of a load, when it is not also a modified base (R74, R76). -/
theorem readGr_finishLoad_target (s : State) (b t : Reg) (nb : Option Word) (v : Word) (h0 : t ≠ 0#5)
    (hb : nb.isSome → t ≠ b) : readGr (finishLoad s b t nb v) t = v := by
  cases nb with
  | none => rw [finishLoad_none, readGr_advance, readGr_writeGr_same _ _ _ h0]
  | some sum =>
    rw [finishLoad_some, if_neg (hb rfl), readGr_advance, readGr_writeGr_same _ _ _ h0]

/-- The modified base of a load, when it is not also the target (R75, R76). -/
theorem readGr_finishLoad_base (s : State) (b t : Reg) (sum v : Word) (h0 : b ≠ 0#5) (hb : t ≠ b) :
    readGr (finishLoad s b t (some sum) v) b = sum := by
  rw [finishLoad_some, if_neg hb, readGr_advance, readGr_writeGr_other _ _ _ _ (Ne.symm hb), readGr_writeGr_same _ _ _ h0]

/-- A load that modifies its base and names it as its target leaves the next free value there (assumption 3). -/
theorem finishLoad_same (s : State) (b : Reg) (sum v : Word) :
    finishLoad s b b (some sum) v = advance (writeFreeBase s b) := by
  rw [finishLoad_some, if_pos rfl]

theorem finishLoad_entry_zero (s : State) (b t : Reg) (nb : Option Word) (v : Word) :
    (finishLoad s b t nb v).gr[0] = s.gr[0] := by
  cases nb with
  | none => simp [finishLoad_none, writeGr_entry_zero]
  | some sum => rw [finishLoad_some]; split <;> simp [writeGr_entry_zero]

theorem sameLaunch_finishLoad (s : State) (b t : Reg) (nb : Option Word) (v : Word) :
    SameLaunch s (finishLoad s b t nb v) := by constructor <;> simp

/-! ### `load` -/

/-- When a load completes, and with what state (R76). -/
theorem load_of_reaches {s : State} {n : Size} {fmt : Fmt} {sp : BitVec 2} {b t : Reg} {o off pa : Word}
    {nb : Option Word} (h : Reaches s .read fmt n sp b o off pa)
    (hs : nb.isSome = true → t = b → s.params.runOpenForms = true) :
    load s n fmt sp b t o nb = .next (finishLoad s b t nb (readBytes s.mem pa.toNat n.bytes)) := by
  have hg : ¬ (nb.isSome = true ∧ t = b ∧ s.params.runOpenForms = false) := fun ⟨h1, h2, h3⟩ => by
    simp [hs h1 h2] at h3
  simp only [load, if_neg hg, h.address, h.aligned, memRead_ok h.present, ne_eq, not_true, if_false]

/-- Everything a completed load implies (R76). -/
theorem load_next {s u : State} {n : Size} {fmt : Fmt} {sp : BitVec 2} {b t : Reg} {o : Word} {nb : Option Word}
    (h : load s n fmt sp b t o nb = .next u) :
    ∃ off pa, Reaches s .read fmt n sp b o off pa ∧ (nb.isSome = true → t = b → s.params.runOpenForms = true) ∧
      u = finishLoad s b t nb (readBytes s.mem pa.toNat n.bytes) := by
  by_cases hg : nb.isSome = true ∧ t = b ∧ s.params.runOpenForms = false
  · simp [load, hg] at h
  · simp only [load, if_neg hg] at h
    cases hd : dataAddress s .read fmt sp (readGr s b) o with
    | error f => simp [hd] at h
    | ok p =>
      obtain ⟨off, pa⟩ := p
      simp only [hd] at h
      by_cases ha : off.toNat % n.bytes = 0
      · simp only [ha, ne_eq, not_true, if_false] at h
        rcases memRead_cases s pa n.bytes with ⟨hp, hm⟩ | ⟨x, _, _, _, _, hm⟩
        · simp only [hm, Host.Outcome.next.injEq] at h
          refine ⟨off, pa, ⟨hd, ha, hp⟩, fun h1 h2 => ?_, h.symm⟩
          by_contra h3
          exact hg ⟨h1, h2, by simpa using h3⟩
        · simp [hm] at h
      · simp [ha] at h

/-! ### `store` -/

/-- When a store completes, and with what state (R76). -/
theorem store_of_reaches {s : State} {n : Size} {fmt : Fmt} {sp : BitVec 2} {b r : Reg} {o off pa : Word}
    {nb : Option Word} (h : Reaches s .write fmt n sp b o off pa) :
    store s n fmt sp b r o nb =
      .next (advance (writeBase { s with mem := writeBytes s.mem pa.toNat n.bytes (readGr s r) } b nb)) := by
  simp only [store, h.address, h.aligned, memWrite_ok _ h.present, ne_eq, not_true, if_false]

/-- Everything a completed store implies (R76). -/
theorem store_next {s u : State} {n : Size} {fmt : Fmt} {sp : BitVec 2} {b r : Reg} {o : Word} {nb : Option Word}
    (h : store s n fmt sp b r o nb = .next u) :
    ∃ off pa, Reaches s .write fmt n sp b o off pa ∧
      u = advance (writeBase { s with mem := writeBytes s.mem pa.toNat n.bytes (readGr s r) } b nb) := by
  cases hd : dataAddress s .write fmt sp (readGr s b) o with
  | error f => simp [store, hd] at h
  | ok p =>
    obtain ⟨off, pa⟩ := p
    simp only [store, hd] at h
    by_cases ha : off.toNat % n.bytes = 0
    · simp only [ha, ne_eq, not_true, if_false] at h
      rcases memWrite_cases s pa n.bytes (readGr s r) with ⟨hp, hm⟩ | ⟨x, _, _, _, _, hm⟩
      · simp only [hm, Host.Outcome.next.injEq] at h
        exact ⟨off, pa, ⟨hd, ha, hp⟩, h.symm⟩
      · simp [hm] at h
    · simp [ha] at h

/-! ### `storeBytes` -/

/-- The launch lets a store bytes form execute: its hint, the switch of R104, and its `,M` bit. -/
abbrev BytesAdmitted (s : State) (c : BytesCmplt) (cc : BitVec 2) : Prop :=
  (cc = 0#2 ∨ s.params.runOpenForms = true) ∧ s.params.storeBytesModelled = true ∧
    (bytesModifies c = true → s.params.runOpenForms = true)

/-- When a store bytes instruction completes, and with what state (R105, R106). -/
theorem storeBytes_of_address {s : State} {n : Size} {sp : BitVec 2} {b r : Reg} {c : BytesCmplt} {cc : BitVec 2}
    {im5 : BitVec 5} {off pa : Word} (hadm : BytesAdmitted s c cc)
    (hd : dataAddress s .write .short sp (readGr s b) (addOffset (readGr s b) (lowSignExt5 im5)) = .ok (off, pa))
    (hp : AllAllocated s (bytesStart n c off pa).toNat (bytesCount n c off)) :
    storeBytes s n sp b r c cc im5 =
      .next (advance (
        let s' := { s with
          mem := writeBytes s.mem (bytesStart n c off pa).toNat (bytesCount n c off)
            (bytesData n c off (readGr s r)) }
        if bytesModifies c then writeFreeBase s' b else s')) := by
  have h1 : ¬ (cc ≠ 0#2 ∧ s.params.runOpenForms = false) := by
    rcases hadm.1 with h | h <;> simp [h]
  have h2 : ¬ (s.params.storeBytesModelled = false ∨ (bytesModifies c = true ∧ s.params.runOpenForms = false)) := by
    rintro (h | ⟨h, h'⟩)
    · simp [hadm.2.1] at h
    · simp [hadm.2.2 h] at h'
  simp only [storeBytes, if_neg h1, if_neg h2, hd, memWrite_ok _ hp]

/-- Everything a completed store bytes instruction implies (R105, R106). -/
theorem storeBytes_next {s u : State} {n : Size} {sp : BitVec 2} {b r : Reg} {c : BytesCmplt} {cc : BitVec 2}
    {im5 : BitVec 5} (h : storeBytes s n sp b r c cc im5 = .next u) :
    ∃ off pa, BytesAdmitted s c cc ∧
      dataAddress s .write .short sp (readGr s b) (addOffset (readGr s b) (lowSignExt5 im5)) = .ok (off, pa) ∧
      AllAllocated s (bytesStart n c off pa).toNat (bytesCount n c off) ∧
      u = advance (
        let s' := { s with
          mem := writeBytes s.mem (bytesStart n c off pa).toNat (bytesCount n c off)
            (bytesData n c off (readGr s r)) }
        if bytesModifies c then writeFreeBase s' b else s') := by
  by_cases h1 : cc ≠ 0#2 ∧ s.params.runOpenForms = false
  · simp [storeBytes, h1] at h
  by_cases h2 : s.params.storeBytesModelled = false ∨ (bytesModifies c = true ∧ s.params.runOpenForms = false)
  · simp [storeBytes, if_neg h1, if_pos h2] at h
  simp only [storeBytes, if_neg h1, if_neg h2] at h
  cases hd : dataAddress s .write .short sp (readGr s b) (addOffset (readGr s b) (lowSignExt5 im5)) with
  | error f => simp [hd] at h
  | ok p =>
    obtain ⟨off, pa⟩ := p
    simp only [hd] at h
    rcases memWrite_cases s (bytesStart n c off pa) (bytesCount n c off) (bytesData n c off (readGr s r)) with
      ⟨hp, hm⟩ | ⟨x, _, _, _, _, hm⟩
    · simp only [hm, Host.Outcome.next.injEq] at h
      refine ⟨off, pa, ⟨?_, ?_, fun hc => ?_⟩, rfl, hp, h.symm⟩
      · by_cases hcc : cc = 0#2
        · exact .inl hcc
        · right; by_contra h3; exact h1 ⟨hcc, by simpa using h3⟩
      · by_contra h3; exact h2 (.inl (by simpa using h3))
      · by_contra h3; exact h2 (.inr ⟨hc, by simpa using h3⟩)
    · simp [hm] at h

/-! ### The instructions of each family -/

theorem modifyByte_eq (d : Word) : modifyByte d = if 0 ≤ d.toInt then .ma else .mb := by
  unfold modifyByte
  by_cases h : d.msb = true
  · rw [if_pos h, if_neg (by rw [BitVec.msb_eq_toInt] at h; simpa using h)]
  · rw [if_neg h, if_pos (by rw [BitVec.msb_eq_toInt] at h; simpa using h)]

theorem modifyWord_eq (d : Word) : modifyWord d = if 0 ≤ d.toInt then .mb else .ma := by
  unfold modifyWord
  by_cases h : d.msb = true
  · rw [if_pos h, if_neg (by rw [BitVec.msb_eq_toInt] at h; simpa using h)]
  · rw [if_neg h, if_pos (by rw [BitVec.msb_eq_toInt] at h; simpa using h)]

theorem exec_longLoad {i : Instr} {s : State} {f : LongForm} (h : longLoadForm s i = some f) :
    exec i s = longLoad s f.size f.b f.other f.sp f.d f.mod := by
  cases i <;> simp only [longLoadForm, Option.some.injEq, reduceCtorEq] at h <;> subst h <;>
    first
      | rfl
      | (simp only [exec, execLdwModL14, modifyByte_eq]; done)
      | simp only [exec, execLdwModL11, modifyWord_eq]

theorem exec_longStore {i : Instr} {s : State} {f : LongForm} (h : longStoreForm s i = some f) :
    exec i s = longStore s f.size f.b f.other f.sp f.d f.mod := by
  cases i <;> simp only [longStoreForm, Option.some.injEq, reduceCtorEq] at h <;> subst h <;>
    first
      | rfl
      | (simp only [exec, execStwModL14, modifyByte_eq]; done)
      | simp only [exec, execStwModL11, modifyWord_eq]

theorem exec_shortLoad {i : Instr} {s : State} {f : ShortForm} (h : shortLoadForm i = some f) :
    exec i s = shortLoad s f.size f.b f.other f.sp f.c f.cc f.im5 := by
  cases i <;> simp only [shortLoadForm, Option.some.injEq, reduceCtorEq] at h <;> subst h <;> rfl

theorem exec_shortStore {i : Instr} {s : State} {f : ShortForm} (h : shortStoreForm i = some f) :
    exec i s = shortStore s f.size f.b f.other f.sp f.c f.cc f.im5 := by
  cases i <;> simp only [shortStoreForm, Option.some.injEq, reduceCtorEq] at h <;> subst h <;> rfl

theorem exec_storeBytes {i : Instr} {s : State} {f : BytesForm} (h : bytesForm i = some f) :
    exec i s = storeBytes s f.size f.sp f.b f.r f.c f.cc f.im5 := by
  cases i <;> simp only [bytesForm, Option.some.injEq, reduceCtorEq] at h <;> subst h <;> rfl

theorem exec_indexed {i : Instr} {s : State} {f : IndexForm} (h : indexForm i = some f) :
    exec i s = indexedLoad s f.size f.b f.x f.t f.sp f.c f.cc := by
  cases i <;> simp only [indexForm, Option.some.injEq, reduceCtorEq] at h <;> subst h <;> rfl

/-- Every instruction is of one of the six families. -/
theorem family_cases (s : State) (i : Instr) :
    (∃ f, longLoadForm s i = some f) ∨ (∃ f, longStoreForm s i = some f) ∨ (∃ f, shortLoadForm i = some f) ∨
    (∃ f, shortStoreForm i = some f) ∨ (∃ f, bytesForm i = some f) ∨ (∃ f, indexForm i = some f) := by
  cases i <;> simp [longLoadForm, longStoreForm, shortLoadForm, shortStoreForm, bytesForm, indexForm]

/-- What any completed instruction is: a load, a store or a store of bytes, with its operands. -/
theorem exec_next {i : Instr} {s u : State} (h : exec i s = .next u) :
    (∃ n fmt sp b t o nb, load s n fmt sp b t o nb = .next u) ∨
    (∃ n fmt sp b r o nb, store s n fmt sp b r o nb = .next u) ∨
    (∃ n sp b r c cc im5, storeBytes s n sp b r c cc im5 = .next u) := by
  rcases family_cases s i with ⟨f, hf⟩ | ⟨f, hf⟩ | ⟨f, hf⟩ | ⟨f, hf⟩ | ⟨f, hf⟩ | ⟨f, hf⟩
  · rw [exec_longLoad hf] at h
    exact .inl ⟨_, _, _, _, _, _, _, h⟩
  · rw [exec_longStore hf] at h
    exact .inr (.inl ⟨_, _, _, _, _, _, _, h⟩)
  · rw [exec_shortLoad hf, shortLoad] at h
    split at h
    · cases h
    · exact .inl ⟨_, _, _, _, _, _, _, h⟩
  · rw [exec_shortStore hf, shortStore] at h
    split at h
    · cases h
    · exact .inr (.inl ⟨_, _, _, _, _, _, _, h⟩)
  · rw [exec_storeBytes hf] at h
    exact .inr (.inr ⟨_, _, _, _, _, _, _, h⟩)
  · rw [exec_indexed hf, indexedLoad] at h
    split at h
    · cases h
    · exact .inl ⟨_, _, _, _, _, _, _, h⟩

end Sys2Proof.Machine
end

