-- ==== Sys2Proof/Laws/Forms.lean ====
section
/-! SUPPORT. The operands the procedures compute are those of the spec's tables, as Safety.lean writes them; and what a
completed load and a completed store leave in each piece of the state. -/

namespace Sys2Proof.Machine

open Sys2Proof Sys2Proof.Safety

/-! ### Offsets and new bases -/

theorem longOffset_eq (f : LongForm) (s : State) :
    longOffset f.mod (readGr s f.b) (addOffset (readGr s f.b) f.d) = f.offset s := by
  unfold LongForm.offset longOffset addOffset
  cases f.mod <;> simp

theorem longNewBase_eq (m : Modify) (sum : Word) : longNewBase m sum = if m = .none then none else some sum := by
  cases m <;> rfl

theorem shortOffset_eq (f : ShortForm) (s : State) :
    shortOffset f.c (readGr s f.b) (addOffset (readGr s f.b) (lowSignExt5 f.im5)) = f.offset s := by
  unfold ShortForm.offset shortOffset addOffset
  cases f.c <;> simp

theorem shortNewBase_eq (f : ShortForm) (sum : Word) :
    shortNewBase f.c sum = if f.modifies then some sum else none := by
  simp only [ShortForm.modifies]
  cases f.c <;> rfl

theorem shiftLeft_log2 (n : Size) (x : Word) : x <<< n.log2 = x * BitVec.ofNat 64 n.bytes := by
  cases n <;> apply BitVec.eq_of_toNat_eq <;>
    simp [Size.log2, Size.bytes, BitVec.toNat_shiftLeft, BitVec.toNat_mul, Nat.shiftLeft_eq]

theorem indexValue_eq (f : IndexForm) (s : State) : indexValue f.c f.size (readGr s f.x) = f.index s := by
  unfold IndexForm.index indexValue
  cases f.c <;> simp [shiftLeft_log2]

theorem indexOffset_eq (f : IndexForm) (s : State) :
    indexOffset f.c (readGr s f.b) (addOffset (readGr s f.b) (f.index s)) = f.offset s := by
  unfold IndexForm.offset indexOffset addOffset
  simp only [IndexForm.modifies]
  cases f.c <;> simp

theorem indexNewBase_eq (f : IndexForm) (sum : Word) :
    indexNewBase f.c sum = if f.modifies then some sum else none := by
  simp only [IndexForm.modifies]
  cases f.c <;> rfl

theorem bytesModifies_iff (f : BytesForm) : bytesModifies f.c = true ↔ f.modifies := by
  simp only [BytesForm.modifies]
  cases f.c <;> simp [bytesModifies]

theorem bytesEnding_iff (f : BytesForm) : bytesEnding f.c = true ↔ f.ending := by
  simp only [BytesForm.ending]
  cases f.c <;> simp [bytesEnding]

/-- An admitted hint passes the test every procedure starts with. -/
theorem hint_passes {s : State} {cc : BitVec 2} (h : HintAdmitted s cc) :
    ¬ (cc ≠ 0#2 ∧ s.params.runOpenForms = false) := by
  rcases h with h | h <;> simp [h]

theorem size_bytes_le (n : Size) : n.bytes ≤ 8 := by cases n <;> simp [Size.bytes]

theorem size_bytes_pos (n : Size) : 0 < n.bytes := by cases n <;> simp [Size.bytes]

/-! ### The instructions, with those operands -/

theorem exec_longLoad_eq {i : Instr} {s : State} {f : LongForm} (h : longLoadForm s i = some f) :
    exec i s = load s f.size .long f.sp f.b f.other (f.offset s)
      (if f.mod = .none then none else some (readGr s f.b + f.d)) := by
  rw [exec_longLoad h, longLoad]
  simp only [longOffset_eq, longNewBase_eq]
  rfl

theorem exec_longStore_eq {i : Instr} {s : State} {f : LongForm} (h : longStoreForm s i = some f) :
    exec i s = store s f.size .long f.sp f.b f.other (f.offset s)
      (if f.mod = .none then none else some (readGr s f.b + f.d)) := by
  rw [exec_longStore h, longStore]
  simp only [longOffset_eq, longNewBase_eq]
  rfl

theorem exec_shortLoad_eq {i : Instr} {s : State} {f : ShortForm} (h : shortLoadForm i = some f)
    (hh : HintAdmitted s f.cc) :
    exec i s = load s f.size .short f.sp f.b f.other (f.offset s)
      (if f.modifies then some (readGr s f.b + lowSignExt5 f.im5) else none) := by
  rw [exec_shortLoad h, shortLoad, if_neg (hint_passes hh)]
  simp only [shortOffset_eq, shortNewBase_eq]
  rfl

theorem exec_shortStore_eq {i : Instr} {s : State} {f : ShortForm} (h : shortStoreForm i = some f)
    (hh : HintAdmitted s f.cc) :
    exec i s = store s f.size .short f.sp f.b f.other (f.offset s)
      (if f.modifies then some (readGr s f.b + lowSignExt5 f.im5) else none) := by
  rw [exec_shortStore h, shortStore, if_neg (hint_passes hh)]
  simp only [shortOffset_eq, shortNewBase_eq]
  rfl

theorem exec_indexed_eq {i : Instr} {s : State} {f : IndexForm} (h : indexForm i = some f)
    (hh : HintAdmitted s f.cc) :
    exec i s = load s f.size .indexed f.sp f.b f.t (f.offset s)
      (if f.modifies then some (readGr s f.b + f.index s) else none) := by
  rw [exec_indexed h, indexedLoad, if_neg (hint_passes hh)]
  simp only [indexValue_eq, indexOffset_eq, indexNewBase_eq]
  rfl

/-! ### What a completed load and store leave -/

/-- A load whose target is not a modified base completes, and what it leaves (R74 to R76). -/
theorem load_completes {s : State} {n : Size} {fmt : Fmt} {sp : BitVec 2} {b t : Reg} {o off pa : Word}
    {nb : Option Word} (h : Reaches s .read fmt n sp b o off pa) (hs : nb.isSome = true → t ≠ b) :
    ∃ u, load s n fmt sp b t o nb = .next u ∧
      (t ≠ 0#5 → (readGr u t).toNat = bigEndian s.mem pa.toNat n.bytes) ∧
      (b ≠ 0#5 → b ≠ t → readGr u b = nb.getD (readGr s b)) ∧
      (∀ g, g ≠ b → g ≠ t → readGr u g = readGr s g) ∧
      u.mem = s.mem ∧ u.pc = s.pc + 4#64 ∧ u.freeCount = s.freeCount ∧ SameLaunch s u := by
  refine ⟨_, load_of_reaches h (fun h1 h2 => absurd h2 (hs h1)), fun h0 => ?_, fun h0 hb => ?_,
    fun g h1 h2 => readGr_finishLoad_other _ _ _ _ _ _ h2 (fun _ => h1), by simp, by simp, ?_,
    sameLaunch_finishLoad ..⟩
  · rw [readGr_finishLoad_target _ _ _ _ _ h0 hs, readBytes_toNat _ _ _ (size_bytes_le n)]
  · cases nb with
    | none => simpa using readGr_finishLoad_other s b t b none _ hb (by simp)
    | some x => exact readGr_finishLoad_base _ _ _ _ _ h0 (Ne.symm hb)
  · rw [finishLoad_freeCount, if_neg]
    rintro ⟨h1, h2⟩
    exact hs h1 h2

/-- A load that modifies its base and names it as its target completes where the launch runs the open forms
(assumptions 2 and 3). -/
theorem load_same_completes {s : State} {n : Size} {fmt : Fmt} {sp : BitVec 2} {b : Reg} {o off pa x : Word}
    (h : Reaches s .read fmt n sp b o off pa) (ho : s.params.runOpenForms = true) :
    load s n fmt sp b b o (some x) = .next (advance (writeFreeBase s b)) := by
  rw [load_of_reaches h (fun _ _ => ho), finishLoad_same]

/-- A store completes, and what it leaves (R74 to R76). -/
theorem store_completes {s : State} {n : Size} {fmt : Fmt} {sp : BitVec 2} {b r : Reg} {o off pa : Word}
    {nb : Option Word} (h : Reaches s .write fmt n sp b o off pa) :
    ∃ u, store s n fmt sp b r o nb = .next u ∧
      (∀ j, j < n.bytes → lookupByte u.mem (pa.toNat + j) = byteOf n.bytes j (readGr s r)) ∧
      (∀ a, a < pa.toNat ∨ pa.toNat + n.bytes ≤ a → lookupByte u.mem a = lookupByte s.mem a) ∧
      (b ≠ 0#5 → readGr u b = nb.getD (readGr s b)) ∧
      (∀ g, g ≠ b → readGr u g = readGr s g) ∧
      u.pc = s.pc + 4#64 ∧ u.freeCount = s.freeCount ∧ SameLaunch s u := by
  refine ⟨_, store_of_reaches h, fun j hj => ?_, fun a ha => ?_, fun h0 => ?_, fun g hg => ?_, by simp, by simp,
    by constructor <;> simp⟩
  · simp only [advance_mem, writeBase_mem]
    rw [lookupByte_writeBytes, if_pos (by omega)]
    unfold byteOf
    congr 1
    omega
  · simp only [advance_mem, writeBase_mem]
    exact lookupByte_writeBytes_outside _ _ ha
  · rw [readGr_advance, readGr_writeBase]
    simp [h0]
    rfl
  · rw [readGr_advance, readGr_writeBase]
    simp [hg]
    rfl

end Sys2Proof.Machine
end

