-- ==== Sys2Proof/Laws/PerInstr.lean ====
section
/-! SUPPORT. The family `RowMatch`: the word of every instruction is one of its own row of the opcode table
(spec/opcode_table.json: `w AND mask = match`). -/

namespace Sys2Proof.Laws.RowMatch

/-- The encoded word matches the mask and pattern of the instruction's row. -/
def Statement (i : Instr) : Prop := (opcodeRow i).matchesWord (encode i) = true

/-! ### What each row's mask keeps of an encoded word -/

theorem mask_encodeL14 (op : BitVec 6) (b t : Reg) (sp : BitVec 2) (im14 : BitVec 14) :
    encodeL14 op b t sp im14 &&& 0xFC000000#32 = op ++ 0#26 := by
  unfold encodeL14
  apply BitVec.eq_of_getLsbD_eq; intro k hk
  simp only [BitVec.getLsbD_and, BitVec.getLsbD_append]
  interval_cases k <;> simp

theorem mask_encodeL11 (op : BitVec 6) (b t : Reg) (sp : BitVec 2) (im11a : BitVec 11) (i : BitVec 1) :
    encodeL11 op b t sp im11a i &&& 0xFC000006#32 = op ++ 0b00000000000000000000000100#26 := by
  unfold encodeL11
  apply BitVec.eq_of_getLsbD_eq; intro k hk
  simp only [BitVec.getLsbD_and, BitVec.getLsbD_append]
  interval_cases k <;> simp

theorem mask_encodeL10 (op : BitVec 6) (b t : Reg) (sp : BitVec 2) (im10a : BitVec 10) (mop2 : BitVec 3)
    (i : BitVec 1) :
    encodeL10 op b t sp im10a mop2 i &&& 0xFC00000E#32 = op ++ 0#22 ++ mop2 ++ 0#1 := by
  unfold encodeL10
  apply BitVec.eq_of_getLsbD_eq; intro k hk
  simp only [BitVec.getLsbD_and, BitVec.getLsbD_append]
  interval_cases k <;> simp

theorem mask_encodeOp03 (b mid : Reg) (sp : BitVec 2) (a short : BitVec 1) (cc : BitVec 2) (ext4 : BitVec 4)
    (m : BitVec 1) (low : BitVec 5) :
    encodeOp03 b mid sp a short cc ext4 m low &&& 0xFC0013C0#32 =
      0x03#6 ++ 0#13 ++ short ++ 0#2 ++ ext4 ++ 0#6 := by
  unfold encodeOp03
  apply BitVec.eq_of_getLsbD_eq; intro k hk
  simp only [BitVec.getLsbD_and, BitVec.getLsbD_append]
  interval_cases k <;> simp

/-! ### The lemma of each instruction -/

theorem ldbL14 (b t : Reg) (sp : BitVec 2) (im14 : BitVec 14) : Statement (.ldbL14 b t sp im14) := by
  simp [Statement, OpcodeRow.matchesWord, opcodeRow, encode, mask_encodeL14]

theorem ldhL14 (b t : Reg) (sp : BitVec 2) (im14 : BitVec 14) : Statement (.ldhL14 b t sp im14) := by
  simp [Statement, OpcodeRow.matchesWord, opcodeRow, encode, mask_encodeL14]

theorem ldwL14 (b t : Reg) (sp : BitVec 2) (im14 : BitVec 14) : Statement (.ldwL14 b t sp im14) := by
  simp [Statement, OpcodeRow.matchesWord, opcodeRow, encode, mask_encodeL14]

theorem ldwModL14 (b t : Reg) (sp : BitVec 2) (im14 : BitVec 14) : Statement (.ldwModL14 b t sp im14) := by
  simp [Statement, OpcodeRow.matchesWord, opcodeRow, encode, mask_encodeL14]

theorem stbL14 (b r : Reg) (sp : BitVec 2) (im14 : BitVec 14) : Statement (.stbL14 b r sp im14) := by
  simp [Statement, OpcodeRow.matchesWord, opcodeRow, encode, mask_encodeL14]

theorem sthL14 (b r : Reg) (sp : BitVec 2) (im14 : BitVec 14) : Statement (.sthL14 b r sp im14) := by
  simp [Statement, OpcodeRow.matchesWord, opcodeRow, encode, mask_encodeL14]

theorem stwL14 (b r : Reg) (sp : BitVec 2) (im14 : BitVec 14) : Statement (.stwL14 b r sp im14) := by
  simp [Statement, OpcodeRow.matchesWord, opcodeRow, encode, mask_encodeL14]

theorem stwModL14 (b r : Reg) (sp : BitVec 2) (im14 : BitVec 14) : Statement (.stwModL14 b r sp im14) := by
  simp [Statement, OpcodeRow.matchesWord, opcodeRow, encode, mask_encodeL14]

theorem ldwModL11 (b t : Reg) (sp : BitVec 2) (im11a : BitVec 11) (i : BitVec 1) : Statement (.ldwModL11 b t sp im11a i) := by
  simp [Statement, OpcodeRow.matchesWord, opcodeRow, encode, mask_encodeL11]

theorem stwModL11 (b r : Reg) (sp : BitVec 2) (im11a : BitVec 11) (i : BitVec 1) : Statement (.stwModL11 b r sp im11a i) := by
  simp [Statement, OpcodeRow.matchesWord, opcodeRow, encode, mask_encodeL11]

theorem lddL10 (b t : Reg) (sp : BitVec 2) (im10a : BitVec 10) (i : BitVec 1) : Statement (.lddL10 b t sp im10a i) := by
  simp [Statement, OpcodeRow.matchesWord, opcodeRow, encode, mask_encodeL10]

theorem lddMaL10 (b t : Reg) (sp : BitVec 2) (im10a : BitVec 10) (i : BitVec 1) : Statement (.lddMaL10 b t sp im10a i) := by
  simp [Statement, OpcodeRow.matchesWord, opcodeRow, encode, mask_encodeL10]

theorem lddMbL10 (b t : Reg) (sp : BitVec 2) (im10a : BitVec 10) (i : BitVec 1) : Statement (.lddMbL10 b t sp im10a i) := by
  simp [Statement, OpcodeRow.matchesWord, opcodeRow, encode, mask_encodeL10]

theorem stdL10 (b r : Reg) (sp : BitVec 2) (im10a : BitVec 10) (i : BitVec 1) : Statement (.stdL10 b r sp im10a i) := by
  simp [Statement, OpcodeRow.matchesWord, opcodeRow, encode, mask_encodeL10]

theorem stdMaL10 (b r : Reg) (sp : BitVec 2) (im10a : BitVec 10) (i : BitVec 1) : Statement (.stdMaL10 b r sp im10a i) := by
  simp [Statement, OpcodeRow.matchesWord, opcodeRow, encode, mask_encodeL10]

theorem stdMbL10 (b r : Reg) (sp : BitVec 2) (im10a : BitVec 10) (i : BitVec 1) : Statement (.stdMbL10 b r sp im10a i) := by
  simp [Statement, OpcodeRow.matchesWord, opcodeRow, encode, mask_encodeL10]

theorem ldbSl (b t : Reg) (sp : BitVec 2) (c : ShortCmplt) (cc : BitVec 2) (im5 : BitVec 5) : Statement (.ldbSl b t sp c cc im5) := by
  simp [Statement, OpcodeRow.matchesWord, opcodeRow, encode, encodeShortLoad, mask_encodeOp03]

theorem ldhSl (b t : Reg) (sp : BitVec 2) (c : ShortCmplt) (cc : BitVec 2) (im5 : BitVec 5) : Statement (.ldhSl b t sp c cc im5) := by
  simp [Statement, OpcodeRow.matchesWord, opcodeRow, encode, encodeShortLoad, mask_encodeOp03]

theorem ldwSl (b t : Reg) (sp : BitVec 2) (c : ShortCmplt) (cc : BitVec 2) (im5 : BitVec 5) : Statement (.ldwSl b t sp c cc im5) := by
  simp [Statement, OpcodeRow.matchesWord, opcodeRow, encode, encodeShortLoad, mask_encodeOp03]

theorem lddSl (b t : Reg) (sp : BitVec 2) (c : ShortCmplt) (cc : BitVec 2) (im5 : BitVec 5) : Statement (.lddSl b t sp c cc im5) := by
  simp [Statement, OpcodeRow.matchesWord, opcodeRow, encode, encodeShortLoad, mask_encodeOp03]

theorem stbSs (b r : Reg) (sp : BitVec 2) (c : ShortCmplt) (cc : BitVec 2) (im5 : BitVec 5) : Statement (.stbSs b r sp c cc im5) := by
  simp [Statement, OpcodeRow.matchesWord, opcodeRow, encode, encodeShortStore, mask_encodeOp03]

theorem sthSs (b r : Reg) (sp : BitVec 2) (c : ShortCmplt) (cc : BitVec 2) (im5 : BitVec 5) : Statement (.sthSs b r sp c cc im5) := by
  simp [Statement, OpcodeRow.matchesWord, opcodeRow, encode, encodeShortStore, mask_encodeOp03]

theorem stwSs (b r : Reg) (sp : BitVec 2) (c : ShortCmplt) (cc : BitVec 2) (im5 : BitVec 5) : Statement (.stwSs b r sp c cc im5) := by
  simp [Statement, OpcodeRow.matchesWord, opcodeRow, encode, encodeShortStore, mask_encodeOp03]

theorem stdSs (b r : Reg) (sp : BitVec 2) (c : ShortCmplt) (cc : BitVec 2) (im5 : BitVec 5) : Statement (.stdSs b r sp c cc im5) := by
  simp [Statement, OpcodeRow.matchesWord, opcodeRow, encode, encodeShortStore, mask_encodeOp03]

theorem stbySs (b r : Reg) (sp : BitVec 2) (c : BytesCmplt) (cc : BitVec 2) (im5 : BitVec 5) : Statement (.stbySs b r sp c cc im5) := by
  simp [Statement, OpcodeRow.matchesWord, opcodeRow, encode, encodeStoreBytes, mask_encodeOp03]

theorem stdbySs (b r : Reg) (sp : BitVec 2) (c : BytesCmplt) (cc : BitVec 2) (im5 : BitVec 5) : Statement (.stdbySs b r sp c cc im5) := by
  simp [Statement, OpcodeRow.matchesWord, opcodeRow, encode, encodeStoreBytes, mask_encodeOp03]

theorem ldbIx (b x t : Reg) (sp : BitVec 2) (c : IndexCmplt) (cc : BitVec 2) : Statement (.ldbIx b x t sp c cc) := by
  simp [Statement, OpcodeRow.matchesWord, opcodeRow, encode, encodeIndexed, mask_encodeOp03]

theorem ldhIx (b x t : Reg) (sp : BitVec 2) (c : IndexCmplt) (cc : BitVec 2) : Statement (.ldhIx b x t sp c cc) := by
  simp [Statement, OpcodeRow.matchesWord, opcodeRow, encode, encodeIndexed, mask_encodeOp03]

theorem ldwIx (b x t : Reg) (sp : BitVec 2) (c : IndexCmplt) (cc : BitVec 2) : Statement (.ldwIx b x t sp c cc) := by
  simp [Statement, OpcodeRow.matchesWord, opcodeRow, encode, encodeIndexed, mask_encodeOp03]

theorem lddIx (b x t : Reg) (sp : BitVec 2) (c : IndexCmplt) (cc : BitVec 2) : Statement (.lddIx b x t sp c cc) := by
  simp [Statement, OpcodeRow.matchesWord, opcodeRow, encode, encodeIndexed, mask_encodeOp03]

end Sys2Proof.Laws.RowMatch
end

