-- ==== Sys2Proof/Laws/Step.lean ====
section
/-! SUPPORT. What a step is made of: the fetch, the decoder and the instruction's meaning; and the placing of a word where the
next fetch reads it. -/

namespace Sys2Proof.Machine

open Sys2Proof.Safety

/-- When the fetch answers a word (R125). -/
theorem fetch_eq_ok (s : State) (w : InstrWord) :
    fetch s = .ok w ↔ s.pc.toNat % 4 = 0 ∧ s.text[s.pc.toNat / 4]? = some w := by
  unfold fetch
  by_cases hp : s.pc.toNat % 4 = 0
  · rw [if_pos hp]
    cases s.text[s.pc.toNat / 4]? <;> simp [hp]
  · simp [hp]

/-- Everything a completed step implies. -/
theorem step_next {s u : State} (h : step s = .next u) :
    ∃ w i, fetch s = .ok w ∧ decodeWith s.params.decodeTable w = .ok i ∧ exec i s = .next u := by
  unfold step at h
  cases hf : fetch s with
  | error f => simp [hf] at h
  | ok w =>
    simp only [hf] at h
    cases hd : decodeWith s.params.decodeTable w with
    | error r => obtain ⟨w'⟩ := r; simp [hd] at h
    | ok i =>
      simp only [hd] at h
      exact ⟨w, i, rfl, hd, h⟩

/-- A step that has its word and its instruction is that instruction's meaning. -/
theorem step_eq_exec {s : State} {w : InstrWord} {i : Instr} (hf : fetch s = .ok w) (hd : decodeWith s.params.decodeTable w = .ok i) :
    step s = exec i s := by unfold step; simp only [hf, hd]

/-- The replaced word is read back. -/
theorem setWord_get (ws : List InstrWord) (n : Nat) (w : InstrWord) : (setWord ws n w)[n]? = some w := by
  induction n generalizing ws with
  | zero => cases ws <;> simp [setWord]
  | succ n ih => cases ws <;> simp [setWord, ih]

/-- The other words of the text stay. -/
theorem setWord_get_other (ws : List InstrWord) {n k : Nat} (w : InstrWord) (h : k ≠ n) (hk : k < ws.length) :
    (setWord ws n w)[k]? = ws[k]? := by
  induction n generalizing ws k with
  | zero =>
    cases ws with
    | nil => simp at hk
    | cons x xs => cases k <;> simp_all [setWord]
  | succ n ih =>
    cases ws with
    | nil => simp at hk
    | cons x xs =>
      cases k with
      | zero => simp [setWord]
      | succ k => simpa [setWord] using ih xs (by omega) (by simpa using hk)

/-- No steps. -/
theorem run_zero (s : State) : Sys2Proof.core.run 0 s = .next s := rfl

/-- One step, then the rest. -/
theorem run_succ {s t : State} (k : Nat) (h : step s = .next t) :
    Sys2Proof.core.run (k + 1) s = Sys2Proof.core.run k t := by
  have h' : Sys2Proof.core.step s = .next t := h
  simp only [Host.Core.run, h']

/-- A run that stops at its first step has no next state. -/
theorem run_stop {s : State} (k : Nat) (h : ∀ t, step s ≠ .next t) (u : State) :
    Sys2Proof.core.run (k + 1) s ≠ .next u := by
  intro hr
  have h' : ∀ t, Sys2Proof.core.step s ≠ .next t := h
  simp only [Host.Core.run] at hr
  split at hr
  · exact h' _ ‹_›
  · cases hr
  · cases hr

/-- Everything a completed instruction implies of the state it leaves: one of the three shapes below (R76, R105). -/
theorem exec_effect {i : Instr} {s u : State} (h : exec i s = .next u) :
    (∃ b t nb v, u = finishLoad s b t nb v) ∨
    (∃ a n v b nb, AllAllocated s a n ∧ u = advance (writeBase { s with mem := writeBytes s.mem a n v } b nb)) ∨
    (∃ a n v b, AllAllocated s a n ∧ u = advance (writeFreeBase { s with mem := writeBytes s.mem a n v } b)) := by
  rcases exec_next h with ⟨n, fmt, sp, b, t, o, nb, h⟩ | ⟨n, fmt, sp, b, r, o, nb, h⟩ | ⟨n, sp, b, r, c, cc, im5, h⟩
  · obtain ⟨off, pa, _, _, e⟩ := load_next h
    exact .inl ⟨_, _, _, _, e⟩
  · obtain ⟨off, pa, hr, e⟩ := store_next h
    exact .inr (.inl ⟨_, _, _, _, _, hr.present, e⟩)
  · obtain ⟨off, pa, _, _, hp, e⟩ := storeBytes_next h
    by_cases hm : bytesModifies c = true
    · simp only [hm, if_true] at e
      exact .inr (.inr ⟨_, _, _, _, hp, e⟩)
    · simp only [hm, Bool.false_eq_true, if_false] at e
      exact .inr (.inl ⟨_, _, _, b, none, hp, e⟩)

end Sys2Proof.Machine
end

