-- ==== Sys2Proof/Tests/Slice0.lean ====
section
/-! SUPPORT. Tests: the well-formedness checks, a word for every constructor, steps and addresses with the results of
spec/95_test_vectors.md, and for every statement with hypotheses a witness that meets them. A vector's name stands in the
test's comment. -/

namespace Sys2Proof.Tests

open Sys2Proof Sys2Proof.Machine Sys2Proof.Safety

/-! ### Small states and what a step shows -/

/-- A launch as the conventions of 95_test_vectors.md have it: registers, and bytes from an address on, which are the only
ones allocated. -/
def launch (w : Bool) (regs : List (Reg × Word)) (a : Nat) (bytes : List Byte) : State :=
  regs.foldl (fun s r => writeGr s r.1 r.2)
    { State.reset with
      pswW := w
      mem := (bytes.zipIdx.filter (fun c => c.1 != 0#8)).map (fun c => (a + c.2, c.1))
      alloc := [{ base := a, size := bytes.length }] }

/-- The eight bytes the vectors call `P8`. -/
def p8 : List Byte := [0x80, 0x81, 0x82, 0x83, 0x84, 0x85, 0x86, 0x87]

/-- The launch with its text being one word. -/
def withWord (s : State) (w : InstrWord) : State := { s with text := [w] }

/-- The launch with `STORE_BYTES_MODELLED` on (R104). -/
def withStoreBytes (s : State) : State := { s with params := { s.params with storeBytesModelled := true } }

/-- The launch with the model's own switch on as well (assumption 2). -/
def openForms (s : State) : State :=
  { s with params := { s.params with storeBytesModelled := true, runOpenForms := true } }

/-- A register of the next state. -/
def regOf (i : Reg) : Result → Option Word
  | .next s => some (readGr s i)
  | _ => none

/-- The bytes from an address on in the next state. -/
def bytesOf (a n : Nat) : Result → Option (List Byte)
  | .next s => some ((List.range n).map (fun j => lookupByte s.mem (a + j)))
  | _ => none

/-- The pc of the next state. -/
def pcOf : Result → Option Word
  | .next s => some s.pc
  | _ => none

/-- The fault a step stops in. -/
def faultOf : Result → Option Fault
  | .fault f => some f
  | _ => none

/-- The refusal a step stops in. -/
def refusalOf : Result → Option Refusal
  | .refused r => some r
  | _ => none

/-! ### Well-formedness (Table H-1) -/

/-- `MA` with displacement field 0 has no encoding; with any other it has (R61, R72). -/
theorem test_wellFormed_ma :
    WellFormed (.ldwSl 3 4 0 .ma 0 0) = false ∧ WellFormed (.stwSs 3 4 0 .ma 0 0) = false ∧
    WellFormed (.ldwSl 3 4 0 .ma 0 1) = true ∧ WellFormed (.stdSs 3 4 0 .ma 0 31) = true := by decide

/-- `O` with a non-zero displacement field has no encoding; with 0 it has (R61). -/
theorem test_wellFormed_o :
    WellFormed (.ldbSl 3 4 0 .o 0 1) = false ∧ WellFormed (.sthSs 3 4 0 .o 0 16) = false ∧
    WellFormed (.ldbSl 3 4 0 .o 0 0) = true ∧ WellFormed (.ldwSl 3 4 0 .mb 0 0) = true := by decide

/-! ### A word for every constructor, written out from the formats (R49 to R54) and the examples of files 40 to 43 -/

/-- Format `L14`: `op b t s im14`. L1, L2, L3, L12; L15, L16, L17, L18. -/
theorem test_decode_L14 :
    decode (0b010000#6 ++ 0b00011#5 ++ 0b00100#5 ++ 0b00#2 ++ 0b00000000001010#14) = .ok (.ldbL14 3 4 0 0x000A) ∧
    decode 0x44A63FFD#32 = .ok (.ldhL14 5 6 0 0x3FFD) ∧
    decode 0x48648008#32 = .ok (.ldwL14 3 4 2 0x0008) ∧
    decode 0x4C643FF1#32 = .ok (.ldwModL14 3 4 0 0x3FF1) ∧
    decode 0x61070000#32 = .ok (.stbL14 8 7 0 0x0000) ∧
    decode 0x6507000C#32 = .ok (.sthL14 8 7 0 0x000C) ∧
    decode 0x6BC73FF9#32 = .ok (.stwL14 30 7 0 0x3FF9) ∧
    decode 0x6D070008#32 = .ok (.stwModL14 8 7 0 0x0008) := by decide

/-- Formats `L11` (`op b t s im11a 10 i`) and `L10` (`op b t s im10a m op2 i`). L22, L24; L25, L26, L27, L30, L29. -/
theorem test_decode_L11_L10 :
    decode (0b010111#6 ++ 0b00011#5 ++ 0b00100#5 ++ 0b00#2 ++ 0b11111111110#11 ++ 0b10#2 ++ 0b1#1) =
      .ok (.ldwModL11 3 4 0 0x7FE 1) ∧
    decode 0x7D073FFD#32 = .ok (.stwModL11 8 7 0 0x7FF 1) ∧
    decode 0x50640020#32 = .ok (.lddL10 3 4 0 0x002 0) ∧
    decode 0x50640018#32 = .ok (.lddMaL10 3 4 0 0x001 0) ∧
    decode 0x50643FFD#32 = .ok (.lddMbL10 3 4 0 0x3FF 1) ∧
    decode 0x73C73FF1#32 = .ok (.stdL10 30 7 0 0x3FF 1) ∧
    decode (0b011100#6 ++ 0b11110#5 ++ 0b00111#5 ++ 0b00#2 ++ 0b0000000001#10 ++ 0b1#1 ++ 0b00#2 ++ 0b0#1) =
      .ok (.stdMaL10 30 7 0 0x001 0) ∧
    decode 0x73C73FED#32 = .ok (.stdMbL10 30 7 0 0x3FE 1) := by decide

/-- Format `SL`: `03 b im5 s a 1 cc ext4 m t`. S1, S4, S5, S12. -/
theorem test_decode_SL :
    decode (0b000011#6 ++ 0b00011#5 ++ 0b01010#5 ++ 0b00#2 ++ 0b0#1 ++ 0b1#1 ++ 0b00#2 ++ 0b0000#4 ++ 0b0#1 ++
      0b00100#5) = .ok (.ldbSl 3 4 0 .plain 0 0b01010) ∧
    decode 0x0C641064#32 = .ok (.ldhSl 3 4 0 .ma 0 0b00100) ∧
    decode 0x0C7930A4#32 = .ok (.ldwSl 3 4 0 .mb 0 0b11001) ∧
    decode 0x0C7010E4#32 = .ok (.lddSl 3 4 0 .ma 0 0b10000) ∧
    decode 0x0C6010A4#32 = .ok (.ldwSl 3 4 0 .o 0 0) ∧
    decode 0x0C683084#32 = .ok (.ldwSl 3 4 0 .plain 0 0b01000) := by decide

/-- Format `SS`: `03 b r s a 1 cc ext4 m im5`. S14 to S18; R105, R106. -/
theorem test_decode_SS :
    decode (0b000011#6 ++ 0b01000#5 ++ 0b00111#5 ++ 0b00#2 ++ 0b0#1 ++ 0b1#1 ++ 0b00#2 ++ 0b1000#4 ++ 0b0#1 ++
      0b00010#5) = .ok (.stbSs 8 7 0 .plain 0 0b00010) ∧
    decode 0x0D071264#32 = .ok (.sthSs 8 7 0 .ma 0 0b00100) ∧
    decode 0x0D0712A0#32 = .ok (.stwSs 8 7 0 .o 0 0) ∧
    decode 0x0FC732F1#32 = .ok (.stdSs 30 7 0 .mb 0 0b10001) ∧
    decode 0x0D071328#32 = .ok (.stbySs 8 7 0 .bm 0 0b01000) ∧
    decode 0x0D073370#32 = .ok (.stdbySs 8 7 0 .em 0 0b10000) := by decide

/-- Format `IX`: `03 b x s u 0 cc ext4 m t`. X1, X2, X4, X6; S20 for a word with a hint. -/
theorem test_decode_IX :
    decode (0b000011#6 ++ 0b00011#5 ++ 0b00101#5 ++ 0b00#2 ++ 0b0#1 ++ 0b0#1 ++ 0b00#2 ++ 0b0000#4 ++ 0b0#1 ++
      0b00100#5) = .ok (.ldbIx 3 5 4 0 .plain 0) ∧
    decode 0x0C652044#32 = .ok (.ldhIx 3 5 4 0 .s 0) ∧
    decode 0x0C6520A4#32 = .ok (.ldwIx 3 5 4 0 .sm 0) ∧
    decode 0x0C6520C4#32 = .ok (.lddIx 3 5 4 0 .s 0) ∧
    decode 0x0C601484#32 = .ok (.ldwSl 3 4 0 .plain 1 0) := by decide

/-- L31, L32, L33, S21, X15 and the word of zeros: no row. -/
theorem test_decode_rejects :
    decode 0x50640014#32 = .error (.notInScope 0x50640014) ∧ decode 0x50640012#32 = .error (.notInScope 0x50640012) ∧
    decode 0x5C640010#32 = .error (.notInScope 0x5C640010) ∧ decode 0x0C601104#32 = .error (.notInScope 0x0C601104) ∧
    decode 0x0C650204#32 = .error (.notInScope 0x0C650204) ∧ decode 0x00000000#32 = .error (.notInScope 0) := by decide

/-! ### Displacements (2.1) -/

/-- `low_sign_ext(im5, 5)`: the ends of the table and the four fields next to zero. -/
theorem test_lowSignExt5 :
    lowSignExt5 0b00000 = 0 ∧ lowSignExt5 0b00001 = -16 ∧ lowSignExt5 0b00010 = 1 ∧ lowSignExt5 0b11110 = 15 ∧
    lowSignExt5 0b11111 = -1 ∧ lowSignExt5 0b10001 = -8 ∧ lowSignExt5 0b01110 = 7 := by decide

/-- `L14`: rows of the table under both values of W. -/
theorem test_dispL14 :
    dispL14 .signXor false 3 0x3FFE = 8191 ∧ dispL14 .signXor false 3 0x0001 = -8192 ∧ dispL14 .signXor true 0 0x3FFF = -1 ∧
    dispL14 .signXor true 1 0x3FFF = -8193 ∧ dispL14 .signXor true 2 0x0001 = -24576 ∧ dispL14 .signXor true 3 0x3FFE = 32767 ∧
    dispL14 .signXor true 3 0x0001 = -32768 ∧ dispL14 .signXor true 2 0x1C40 = 20000 ∧ dispL14 .signXor true 2 0x23C1 = -20000 := by decide

/-- `L11` and `L10`: rows of the tables. -/
theorem test_dispL11_L10 :
    dispL11 .signXor false 0 0x7FF 0 = 8188 ∧ dispL11 .signXor false 0 0x7FF 1 = -4 ∧ dispL11 .signXor true 1 0x002 0 = 8200 ∧
    dispL11 .signXor true 2 0x7FE 1 = -16392 ∧ dispL11 .signXor true 3 0x000 1 = -32768 ∧ dispL11 .signXor true 3 0x7FF 0 = 32764 ∧
    dispL10 .signXor false 0 0x3FF 0 = 8184 ∧ dispL10 .signXor false 0 0x3FF 1 = -8 ∧ dispL10 .signXor true 1 0x3FF 1 = -8200 ∧
    dispL10 .signXor true 2 0x000 0 = 16384 ∧ dispL10 .signXor true 3 0x3FF 0 = 32760 := by decide

/-! ### Space selection and combination (2.2) -/

/-- A1 to A9. -/
theorem test_spaceSelect :
    spaceSelect false true .long 0 0x0000000040001000 = 5 ∧ spaceSelect false true .long 0 0xFFFFFFFF00000000 = 4 ∧
    spaceSelect false true .long 3 0x0000000040001000 = 3 ∧ spaceSelect true true .long 3 0x8000000000000000 = 6 ∧
    spaceSelect true true .long 1 0x00000000C0000000 = 4 ∧ spaceSelect true true .short 0 0xC000000000000000 = 7 ∧
    spaceSelect true true .short 2 0xC000000000000000 = 2 ∧ spaceSelect true false .short 2 0xC000000000000000 = 7 ∧
    spaceSelect false true .indexed 0 0x00000000C0000000 = 7 ∧
    spaceSelect false true .short 0 0x0000000040000000 = 5 := by decide

/-- The three `VaCombine` vectors. -/
theorem test_vaCombine :
    vaCombine defaultVaLayout 0x10 0x0000000000001000 = 0x000000000000001000001000 ∧
    vaCombine defaultVaLayout 0x20 0x4000000000001000 = 0x000000000000002000001000 ∧
    vaCombine defaultVaLayout 0x300 0x0000001200001000 = 0x000000000000031200001000 := by decide

/-! ### Absolute to physical (2.3) -/

theorem test_absToPhysW1 :
    absToPhysW1 0 0x3BFFFFFFFFFFFFFF = 0x3BFFFFFFFFFFFFFF ∧ absToPhysW1 0 0x3C00000000000000 = 0xF000000000000000 ∧
    absToPhysW1 3 0x3C00000000000000 = 0xF0C0000000000000 ∧ absToPhysW1 2 0x3C3FFFFFFFFFFFFF = 0xF0BFFFFFFFFFFFFF ∧
    absToPhysW1 0 0x3C40000000000000 = 0xFC40000000000000 ∧ absToPhysW1 0 0x3FFFFFFFFFFFFFFF = 0xFFFFFFFFFFFFFFFF ∧
    absToPhysW1 0 0xFBFFFFFFFFFFFFFF = 0x3BFFFFFFFFFFFFFF ∧ absToPhysW1 1 0x7C12345678ABCDEF = 0xF052345678ABCDEF := by
  decide

theorem test_absToPhysW0 :
    absToPhysW0 0 0x00000000EFFFFFFF = 0x00000000EFFFFFFF ∧ absToPhysW0 0 0x00000000F0000000 = 0xF000000000000000 ∧
    absToPhysW0 0xABCDEF01 0x00000000F0123456 = 0xF0ABCDEF01123456 ∧
    absToPhysW0 0xFFFFFFFF 0x00000000F0FFFFFF = 0xF0FFFFFFFFFFFFFF ∧
    absToPhysW0 0 0x00000000F1000000 = 0xFFFFFFFFF1000000 ∧ absToPhysW0 5 0x12345678F0000010 = 0xF000000005000010 ∧
    absToPhysW0 0 0xDEADBEEF00001000 = 0x0000000000001000 := by decide

/-! ### Long displacement family (2.4) -/

/-- L1: `LDB 5(%r3),%r4`. -/
theorem test_ldbL14 : regOf 4 (step (withWord (launch false [(3, 0x1000)] 0x1000 p8) 0x4064000A)) = some 0x85 := by decide

/-- L9: the sum wraps into the I/O space. -/
theorem test_ldbL14_io : refusalOf (step (withWord (launch false [] 0x1000 p8) 0x40043FFF)) =
    some (.unmodelledAddressSpace 0xFFFFFFFFFFFFFFFF) := by decide

/-- L2: `LDH -2(%r5),%r6`. -/
theorem test_ldhL14 : regOf 6 (step (withWord (launch false [(5, 0x1002)] 0x1000 p8) 0x44A63FFD)) = some 0x8081 := by decide

/-- L10: unaligned. -/
theorem test_ldhL14_unaligned : faultOf (step (withWord (launch false [(3, 0x1000)] 0x1000 p8) 0x44640002)) =
    some (.unalignedDataReference 0x1001) := by decide

/-- L5: the s-field is displacement under W = 1. -/
theorem test_ldwL14_wide : regOf 4 (step (withWord (launch true [(3, 0x1000)] 0x5004 p8) 0x48648008)) =
    some 0x80818283 := by decide

/-- L7: the offset of a 32-bit program is truncated. -/
theorem test_ldwL14_narrow : regOf 4 (step (withWord (launch false [(3, 0x1FFFFFFFC)] 0 p8) 0x48640010)) =
    some 0x84858687 := by decide

/-- L11: opcode 13 with `d >= 0` modifies after. -/
theorem test_ldwModL14_ma :
    let r := step (withWord (launch false [(3, 0x1000)] 0x1000 p8) 0x4C640010)
    regOf 4 r = some 0x80818283 ∧ regOf 3 r = some 0x1008 ∧ pcOf r = some 4 := by decide

/-- L12: opcode 13 with `d < 0` modifies before. -/
theorem test_ldwModL14_mb :
    let r := step (withWord (launch false [(3, 0x1008)] 0x1000 p8) 0x4C643FF1)
    regOf 4 r = some 0x80818283 ∧ regOf 3 r = some 0x1000 := by decide

/-- L15: `STB %r7,0(%r8)`. -/
theorem test_stbL14 :
    bytesOf 0x1000 4 (step (withWord (launch false [(7, 0x1234), (8, 0x1001)] 0x1000 [0, 0, 0, 0]) 0x61070000)) =
      some [0x00, 0x34, 0x00, 0x00] := by decide

/-- L16: `STH %r7,6(%r8)`. -/
theorem test_sthL14 :
    bytesOf 0x1000 8 (step (withWord (launch false [(7, 0xAABBCCDD), (8, 0x1000)] 0x1000 p8) 0x6507000C)) =
      some [0x80, 0x81, 0x82, 0x83, 0x84, 0x85, 0xCC, 0xDD] := by decide

/-- L17: `STW %r7,-4(%r30)`. -/
theorem test_stwL14 :
    bytesOf 0x1000 8 (step (withWord (launch false [(7, 0x1122334455667788), (30, 0x1008)] 0x1000 [0, 0, 0, 0, 0, 0, 0, 0])
      0x6BC73FF9)) = some [0, 0, 0, 0, 0x55, 0x66, 0x77, 0x88] := by decide

/-- L20: `r = b` stores the base as it was. -/
theorem test_stwModL14 :
    let r := step (withWord (launch false [(8, 0x1000)] 0x1000 [0, 0, 0, 0]) 0x6D080008)
    regOf 8 r = some 0x1004 ∧ bytesOf 0x1000 4 r = some [0x00, 0x00, 0x10, 0x00] := by decide

/-- L19: opcode 1B with `d < 0` modifies before. -/
theorem test_stwModL14_mb :
    let r := step (withWord (launch false [(7, 0xCAFEF00D), (30, 0x1040)] 0x1000 [0, 0, 0, 0]) 0x6FC73F81)
    regOf 30 r = some 0x1000 ∧ bytesOf 0x1000 4 r = some [0xCA, 0xFE, 0xF0, 0x0D] := by decide

/-- L21 and L22: opcode 17 modifies before when `d >= 0` and after when `d < 0`. -/
theorem test_ldwModL11 :
    (let r := step (withWord (launch false [(3, 0x1000)] 0x1000 (p8 ++ p8)) 0x5C640014)
     regOf 4 r = some 0x80818283 ∧ regOf 3 r = some 0x1008) ∧
    (let r := step (withWord (launch false [(3, 0x1008)] 0x1000 (p8 ++ p8)) 0x5C643FF5)
     regOf 4 r = some 0x80818283 ∧ regOf 3 r = some 0x1000) := by decide

/-- L23 and L24: opcode 1F likewise. -/
theorem test_stwModL11 :
    (let r := step (withWord (launch false [(7, 0xCAFEF00D), (30, 0x1000)] 0x1040 [0, 0, 0, 0]) 0x7FC70084)
     regOf 30 r = some 0x1040 ∧ bytesOf 0x1040 4 r = some [0xCA, 0xFE, 0xF0, 0x0D]) ∧
    (let r := step (withWord (launch false [(7, 0xCAFEF00D), (8, 0x1004)] 0x1000 [0, 0, 0, 0, 0, 0, 0, 0]) 0x7D073FFD)
     regOf 8 r = some 0x1000 ∧ bytesOf 0x1000 8 r = some [0, 0, 0, 0, 0xCA, 0xFE, 0xF0, 0x0D]) := by decide

/-- L25: `LDD 16(%r3),%r4`. -/
theorem test_lddL10 : regOf 4 (step (withWord (launch true [(3, 0x1000)] 0x1010 p8) 0x50640020)) =
    some 0x8081828384858687 := by decide

/-- L28: unaligned. -/
theorem test_lddL10_unaligned : faultOf (step (withWord (launch true [(3, 0x1004)] 0x1000 (p8 ++ p8)) 0x50640010)) =
    some (.unalignedDataReference 0x100C) := by decide

/-- L26: `LDD,MA 8(%r3),%r4`. -/
theorem test_lddMaL10 :
    let r := step (withWord (launch true [(3, 0x1000)] 0x1000 (p8 ++ p8)) 0x50640018)
    regOf 4 r = some 0x8081828384858687 ∧ regOf 3 r = some 0x1008 := by decide

/-- L27: `LDD,MB -8(%r3),%r4`. -/
theorem test_lddMbL10 :
    let r := step (withWord (launch true [(3, 0x1008)] 0x1000 (p8 ++ p8)) 0x50643FFD)
    regOf 4 r = some 0x8081828384858687 ∧ regOf 3 r = some 0x1000 := by decide

/-- L30: with W = 0 all 64 bits are stored. -/
theorem test_stdL10 :
    let r := step (withWord (launch false [(7, 0x1122334455667788), (30, 0x1008)] 0x1000 [0, 0, 0, 0, 0, 0, 0, 0]) 0x73C73FF1)
    regOf 30 r = some 0x1008 ∧
      bytesOf 0x1000 8 r = some [0x11, 0x22, 0x33, 0x44, 0x55, 0x66, 0x77, 0x88] := by decide

/-- `STD,MA %r7,8(%r30)` by the table of R75: offset `GR[30]`, then the sum to the base. -/
theorem test_stdMaL10 :
    let r := step (withWord (launch true [(7, 0x1122334455667788), (30, 0x1000)] 0x1000 [0, 0, 0, 0, 0, 0, 0, 0]) 0x73C70018)
    regOf 30 r = some 0x1008 ∧
      bytesOf 0x1000 8 r = some [0x11, 0x22, 0x33, 0x44, 0x55, 0x66, 0x77, 0x88] := by decide

/-- L29: `STD,MB %r7,-16(%r30)`. -/
theorem test_stdMbL10 :
    let r := step (withWord (launch true [(7, 0x1122334455667788), (30, 0x1010)] 0x1000 [0, 0, 0, 0, 0, 0, 0, 0]) 0x73C73FED)
    regOf 30 r = some 0x1000 ∧
      bytesOf 0x1000 8 r = some [0x11, 0x22, 0x33, 0x44, 0x55, 0x66, 0x77, 0x88] := by decide

/-! ### Short displacement family (2.5) -/

/-- S2 and S3: the ends of the displacement. -/
theorem test_ldbSl :
    regOf 4 (step (withWord (launch false [(3, 0x1010)] 0x1000 p8) 0x0C611004)) = some 0x80 ∧
    regOf 4 (step (withWord (launch false [(3, 0xFF8)] 0x1000 p8) 0x0C7E1004)) = some 0x87 := by decide

/-- S4: `LDH,MA 2(0,%r3),%r4`. -/
theorem test_ldhSl :
    let r := step (withWord (launch false [(3, 0x1000)] 0x1000 p8) 0x0C641064)
    regOf 4 r = some 0x8081 ∧ regOf 3 r = some 0x1002 := by decide

/-- S5: `LDW,MB -4(0,%r3),%r4`. -/
theorem test_ldwSl_mb :
    let r := step (withWord (launch false [(3, 0x1004)] 0x1000 p8) 0x0C7930A4)
    regOf 4 r = some 0x80818283 ∧ regOf 3 r = some 0x1000 := by decide

/-- S7: `O` with `t = b` is an ordinary load. -/
theorem test_ldwSl_o : regOf 3 (step (withWord (launch false [(3, 0x1004)] 0x1000 p8) 0x0C6010A3)) = some 0x84858687 := by
  decide

/-- S12: `LDD,MA 8(0,%r3),%r4`. -/
theorem test_lddSl :
    let r := step (withWord (launch true [(3, 0x1000)] 0x1000 p8) 0x0C7010E4)
    regOf 4 r = some 0x8081828384858687 ∧ regOf 3 r = some 0x1008 := by decide

/-- S14: `STB %r7,1(0,%r8)`. -/
theorem test_stbSs :
    bytesOf 0x1000 4 (step (withWord (launch false [(7, 0x1234), (8, 0x1000)] 0x1000 [0, 0, 0, 0]) 0x0D071202)) =
      some [0x00, 0x34, 0x00, 0x00] := by decide

/-- S15: `STH,MA %r7,2(0,%r8)`. -/
theorem test_sthSs :
    let r := step (withWord (launch false [(7, 0xAABBCCDD), (8, 0x1000)] 0x1000 [0, 0, 0, 0]) 0x0D071264)
    regOf 8 r = some 0x1002 ∧ bytesOf 0x1000 4 r = some [0xCC, 0xDD, 0x00, 0x00] := by decide

/-- S16: `STW,MB %r7,-4(0,%r30)`. -/
theorem test_stwSs :
    let r := step (withWord (launch false [(7, 0xCAFEF00D), (30, 0x1004)] 0x1000 [0, 0, 0, 0]) 0x0FC732B9)
    regOf 30 r = some 0x1000 ∧ bytesOf 0x1000 4 r = some [0xCA, 0xFE, 0xF0, 0x0D] := by decide

/-- S19: with W = 0 the upper half of the base does not reach the address. -/
theorem test_stdSs :
    let r := step (withWord (launch false [(7, 0x1122334455667788), (30, 0xFFFFFFFF00000FF8)] 0x1000
      [0, 0, 0, 0, 0, 0, 0, 0]) 0x0FC712D0)
    regOf 30 r = some 0xFFFFFFFF00000FF8 ∧
      bytesOf 0x1000 8 r = some [0x11, 0x22, 0x33, 0x44, 0x55, 0x66, 0x77, 0x88] := by decide

/-! ### Store bytes family (2.6) -/

/-- The launch of section 2.6, with `STORE_BYTES_MODELLED` on. -/
def bytesLaunch (a : Nat) (base : Word) : State :=
  withStoreBytes (launch false [(7, 0x1122334455667788), (8, base)] a [0, 0, 0, 0, 0, 0, 0, 0])

/-- B1, B2, B4 and B5: the beginning and the ending case. -/
theorem test_stbySs :
    bytesOf 0x1000 4 (step (withWord (bytesLaunch 0x1000 0x1001) 0x0D071300)) = some [0x00, 0x66, 0x77, 0x88] ∧
    bytesOf 0x1000 4 (step (withWord (bytesLaunch 0x1000 0x1001) 0x0D073300)) = some [0x55, 0x00, 0x00, 0x00] ∧
    bytesOf 0x1000 4 (step (withWord (bytesLaunch 0x1000 0x1000) 0x0D073300)) = some [0x00, 0x00, 0x00, 0x00] ∧
    bytesOf 0x1000 4 (step (withWord (bytesLaunch 0x1000 0x1000) 0x0D071306)) = some [0x00, 0x00, 0x00, 0x88] := by decide

/-- B7, B8 and B9. -/
theorem test_stdbySs :
    bytesOf 0x2000 8 (step (withWord (bytesLaunch 0x2000 0x2000) 0x0D071346)) =
      some [0x00, 0x00, 0x00, 0x44, 0x55, 0x66, 0x77, 0x88] ∧
    bytesOf 0x2000 8 (step (withWord (bytesLaunch 0x2000 0x2000) 0x0D073346)) =
      some [0x11, 0x22, 0x33, 0x00, 0x00, 0x00, 0x00, 0x00] ∧
    bytesOf 0x2000 8 (step (withWord (bytesLaunch 0x2000 0x2000) 0x0D071340)) =
      some [0x11, 0x22, 0x33, 0x44, 0x55, 0x66, 0x77, 0x88] := by decide

/-! ### Indexed family (2.7) -/

/-- X1 and X16: a byte index, unshifted and shifted by 0. -/
theorem test_ldbIx :
    regOf 4 (step (withWord (launch false [(3, 0x1000), (5, 0x7)] 0x1000 p8) 0x0C650004)) = some 0x87 ∧
    regOf 4 (step (withWord (launch false [(3, 0x1000), (5, 0x7)] 0x1000 p8) 0x0C652004)) = some 0x87 := by decide

/-- X2: `LDH,S %r5(0,%r3),%r4`. -/
theorem test_ldhIx :
    regOf 4 (step (withWord (launch false [(3, 0x1000), (5, 0x3)] 0x1000 p8) 0x0C652044)) = some 0x8687 := by decide

/-- X4 and X5: `SM`, and `M` with a negative index. -/
theorem test_ldwIx :
    (let r := step (withWord (launch false [(3, 0x1000), (5, 0x1)] 0x1000 p8) 0x0C6520A4)
     regOf 4 r = some 0x80818283 ∧ regOf 3 r = some 0x1004) ∧
    (let r := step (withWord (launch false [(3, 0x1004), (5, 0xFFFFFFFFFFFFFFFC)] 0x1000 p8) 0x0C6500A4)
     regOf 4 r = some 0x84858687 ∧ regOf 3 r = some 0x1000) := by decide

/-- X10: with W = 0 the base receives the full sum. -/
theorem test_ldwIx_fullSum :
    let r := step (withWord (launch false [(3, 0x1000), (5, 0xABCDEF0000000004)] 0x1000 p8) 0x0C6500A4)
    regOf 4 r = some 0x80818283 ∧ regOf 3 r = some 0xABCDEF0000001004 := by decide

/-- X6 and X7: `LDD,S`, and an unaligned index. -/
theorem test_lddIx :
    regOf 4 (step (withWord (launch true [(3, 0x1000), (5, 0x1)] 0x1000 (p8 ++ p8)) 0x0C6520C4)) =
      some 0x8081828384858687 ∧
    faultOf (step (withWord (launch true [(3, 0x1000), (5, 0x4)] 0x1000 (p8 ++ p8)) 0x0C6500C4)) =
      some (.unalignedDataReference 0x1004) := by decide

/-! ### Refusals of the decisions, and a step with translation (part 3) -/

/-- L13, S11, X11, S20, B11, and S22 at the default of `STORE_BYTES_MODELLED`. -/
theorem test_refusals :
    refusalOf (step (withWord (launch false [(3, 0x1000)] 0x1000 p8) 0x4C630010)) = some .loadModifySameRegister ∧
    refusalOf (step (withWord (launch false [(3, 0x1000)] 0x1000 p8) 0x0C6810A3)) = some .loadModifySameRegister ∧
    refusalOf (step (withWord (launch false [(3, 0x1000), (5, 4)] 0x1000 p8) 0x0C6500A3)) = some .loadModifySameRegister ∧
    refusalOf (step (withWord (launch false [(3, 0x1000)] 0x1000 p8) 0x0C601484)) = some .cacheHintNotModelled ∧
    refusalOf (step (withWord (bytesLaunch 0x1000 0x1000) 0x0D071328)) = some .storeBytesNotModelled ∧
    refusalOf (step (withWord (launch false [(8, 0x1001)] 0x1000 p8) 0x0D071300)) = some .storeBytesNotModelled := by decide

/-- The launch of program P3, with its `Translate` written as rows over the default `VaCombine`, registers and spaces as P3
has them. -/
def p3Launch : State :=
  { launch false [(3, 0x1000), (5, 0x40001000), (9, 0x1234567880002000), (4, 0x01020304)] 0x5000 [1, 2, 3, 4] with
    dataTranslation := true
    sr := #v[0, 0x77, 0, 0, 0x10, 0x20, 0x30, 0]
    alloc := [{ base := 0x5000, size := 4 }, { base := 0x9000, size := 4 }]
    params := { defaultParams with storeBytesModelled := true, translations :=
      [{ access := .read, va := 0x1000001000, size := 4, pa := 0x5000 },
       { access := .write, va := 0x3080002000, size := 4, pa := 0x9000 }] } }

/-- P3: the first and the last instruction, and an argument of `Translate` that faults. -/
theorem test_translation :
    regOf 4 (step (withWord p3Launch 0x0C601084)) = some 0x01020304 ∧
    bytesOf 0x9000 4 (step (withWord p3Launch 0x0D241280)) = some [1, 2, 3, 4] ∧
    faultOf (step (withWord p3Launch 0x48A60008)) =
      some (.dataTranslationFault 0x2040001004 .read) := by decide

/-! ### Witnesses: for every statement with hypotheses, states and operands that meet them -/

/-- An access reaches allocated bytes, as a test. -/
def reachesB (s : State) (k : Access) (fmt : Fmt) (n : Size) (sp : BitVec 2) (b : Reg) (o : Word) : Bool :=
  match dataAddress s k fmt sp (readGr s b) o with
  | .ok (off, pa) => decide (off.toNat % n.bytes = 0) && decide (AllAllocated s pa.toNat n.bytes)
  | .error _ => false

theorem reaches_of_test {s : State} {k : Access} {fmt : Fmt} {n : Size} {sp : BitVec 2} {b : Reg} {o : Word}
    (h : reachesB s k fmt n sp b o = true) : ∃ off pa, Reaches s k fmt n sp b o off pa := by
  unfold reachesB at h
  cases hd : dataAddress s k fmt sp (readGr s b) o with
  | error e => simp [hd] at h
  | ok p =>
    obtain ⟨off, pa⟩ := p
    simp only [hd, Bool.and_eq_true, decide_eq_true_eq] at h
    exact ⟨off, pa, hd, h.1, h.2⟩

/-! #### Encoding -/

/-- DecodeOfEncode: at the edges of Table H-1's condition. -/
theorem witness_DecodeOfEncode :
    WellFormed (.ldwSl 3 4 0 .ma 0 1) = true ∧ WellFormed (.ldwSl 3 4 0 .o 0 0) = true ∧
    WellFormed (.stbySs 31 31 3 .em 3 31) = true := by decide

/-- DecodedWordMatchesItsRow and EncodeOfDecodedWord: a word that encodes back to itself, and S9, whose bit `a` is not kept. -/
theorem witness_DecodedWord :
    (∃ i, decode 0x0C6030A4#32 = .ok i ∧ encode i = 0x0C6030A4#32) ∧
    (∃ i, decode 0x0C683084#32 = .ok i ∧ encode i = 0x0C683084#32 &&& ~~~0x00002000#32) :=
  ⟨⟨.ldwSl 3 4 0 .mb 0 0, by decide⟩, ⟨.ldwSl 3 4 0 .plain 0 0b01000, by decide⟩⟩

/-- EncodeOfDecodedWord: `STBY,E` and `STDBY,E`, whose bit `a` is not ignored, encode back to themselves. -/
theorem witness_EncodeOfDecodedWord_ending :
    (∃ i, decode 0x0D073300#32 = .ok i ∧ encode i = 0x0D073300#32) ∧
    (∃ i, decode 0x0D073346#32 = .ok i ∧ encode i = 0x0D073346#32) :=
  ⟨⟨.stbySs 8 7 0 .e 0 0, by decide⟩, ⟨.stdbySs 8 7 0 .e 0 0b00110, by decide⟩⟩

/-- AnyTableDecodesOrRejectsByName: a table of one row that names another major opcode for LDB, with a word of it and a word
of the default table, which it rejects. -/
theorem witness_AnyTable :
    let table : List DecodeRow := [⟨.ldbL14, ⟨0xFC000000#32, 0x04000000#32⟩⟩]
    decodeWith table 0x0464000A#32 = .ok (.ldbL14 3 4 0 0x000A) ∧
    decodeWith table 0x4064000A#32 = .error (.notInScope 0x4064000A#32) := by decide

/-- DecoderRejectsExactlyUnmatchedWords: a word with no row, and the last word of a row. -/
theorem witness_DecoderRejects :
    decode 0x50640014#32 = .error (.notInScope 0x50640014) ∧ (opcodeRows.all fun r => !r.matchesWord 0x50640014#32) = true ∧
    (opcodeRows.any fun r => r.matchesWord 0x43FFFFFF#32) = true := by decide

/-- ShortCompleterTable: each clause, at the edges of its range. -/
theorem witness_ShortCompleterTable :
    shortCompleter 0 0 0 = .plain ∧ shortCompleter 1 0 31 = .plain ∧ shortCompleter 0 1 1 = .ma ∧
    shortCompleter 0 1 31 = .ma ∧ shortCompleter 1 1 0 = .mb ∧ shortCompleter 1 1 31 = .mb ∧ shortCompleter 0 1 0 = .o := by
  decide

/-- The clauses on words of ShortCompleterTable, StoreBytesCompleterTable and IndexCompleterTable: the first and the last
`ext4` of each range. -/
theorem witness_completer_words :
    (∀ w ∈ ([0x0C6A1004#32, 0x0C7010E4#32] : List InstrWord),
      fieldOp w = 0x03#6 ∧ fieldShort w = 1#1 ∧ fieldExt4 w < 0x4#4) ∧
    (∀ w ∈ ([0x0D071202#32, 0x0FC732F1#32] : List InstrWord),
      fieldOp w = 0x03#6 ∧ fieldShort w = 1#1 ∧ 0x8#4 ≤ fieldExt4 w ∧ fieldExt4 w < 0xC#4) ∧
    (∀ w ∈ ([0x0D071300#32, 0x0D073370#32] : List InstrWord),
      fieldOp w = 0x03#6 ∧ fieldShort w = 1#1 ∧ (fieldExt4 w = 0xC#4 ∨ fieldExt4 w = 0xD#4)) ∧
    (∀ w ∈ ([0x0C650004#32, 0x0C6520C4#32] : List InstrWord),
      fieldOp w = 0x03#6 ∧ fieldShort w = 0#1 ∧ fieldExt4 w < 0x4#4) := by
  simp [fieldOp, fieldShort, fieldExt4]

/-! #### Address formation -/

/-- P3's launch for a 64-bit program, with 16-bit space registers, one of them holding more. -/
def wideSpaces : State :=
  { p3Launch with pswW := true, sr := #v[0, 0x77, 0, 0, 0xABC0010, 0x20, 0x30, 0],
                  params := { p3Launch.params with spaceBits := 16 } }

/-- LongSpaceSelection: with W = 1 and translation enabled a long displacement reads `SR[4]`, `SPACE_BITS` wide, whatever the
s-field, and another quadrant faults. -/
theorem witness_LongSpaceSelection_wide :
    wideSpaces.dataTranslation = true ∧ wideSpaces.pswW = true ∧
    dataAddress wideSpaces .read .long 3 0x1000 0x1000 = .ok (0x1000, 0x5000) ∧
    dataAddress wideSpaces .read .long 0 0x4000000000001000 0x1000 = .error (.dataTranslationFault 0x2000001000 .read) := by
  decide

/-- LongSpaceSelection, ShortAndIndexedSpaceSelection and DisabledTranslationUsesOffset: translation enabled and disabled. -/
theorem witness_translation_switch :
    p3Launch.dataTranslation = true ∧ State.reset.dataTranslation = false ∧ Fmt.short ≠ .long ∧ Fmt.indexed ≠ .long := by
  decide

/-- AddressFormationKeepsLowBits: an address formed with translation disabled and one formed with translation enabled. -/
theorem witness_AddressFormationKeepsLowBits :
    (∃ off pa, dataAddress State.reset .read .long 0 0 0x1007 = .ok (off, pa)) ∧
    (∃ off pa, dataAddress p3Launch .read .short 0 0x1000 0x1003 = .ok (off, pa)) :=
  ⟨⟨0x1007, 0x1007, by decide⟩, ⟨0x1003, 0x5003, by decide⟩⟩

/-- Another layout than the default: 16 space bits above 32 offset bits, side by side. -/
theorem test_vaCombine_layout :
    vaCombine [⟨32, none, some 0⟩, ⟨16, some 0, none⟩] 0x12345 0xFFFFFFFF00001000 = 0x234500001000 := by decide

/-- UpperHalfNeverReachesNarrowAddress: two bases and two offsets that differ in their upper halves only. -/
theorem witness_UpperHalf :
    State.reset.pswW = false ∧ (0xDEADBEEF00001000#64).setWidth 32 = (0x1000#64).setWidth 32 ∧
    (0x1FFFFFFFC#64).setWidth 32 = (0xFFFFFFFC#64).setWidth 32 ∧
    (∃ off pa, dataAddress State.reset .read .short 0 0xDEADBEEF00001000 0x1000000004 = .ok (off, pa)) :=
  ⟨by decide, by decide, by decide, ⟨4, 4, by decide⟩⟩

/-! #### Registers and memory -/

/-- RegisterFileLaws: a register that is not 0, and another register than the one written. -/
theorem witness_RegisterFileLaws : (1#5 ≠ 0#5) ∧ (31#5 ≠ 0#5) ∧ (0#5 ≠ 31#5) := by decide

/-- StoredBytesAreBigEndian and ReadAfterWrite: a doubleword write, and reads that end and begin where it begins and ends. -/
theorem witness_memWrite :
    (∃ u, memWrite (launch false [] 0x1000 (p8 ++ p8)) 0x1004 8 0x1122334455667788 = .ok u) ∧
    (0x1000 + 4 ≤ 0x1004 ∨ 0x1004 + 8 ≤ 0x1000) ∧ (0x100C + 4 ≤ 0x1004 ∨ 0x1004 + 8 ≤ 0x100C) :=
  ⟨⟨_, rfl⟩, by decide, by decide⟩

/-- UnallocatedBytesRefuseTheAccess: an access that ends one byte past the allocation, one that ends with it, and one that
ends at the top of the address range. -/
theorem witness_UnallocatedBytes :
    ¬ AllAllocated (launch false [] 0x1000 p8) (0x1005#64).toNat 4 ∧
    AllAllocated (launch false [] 0x1000 p8) (0x1004#64).toNat 4 ∧
    (0xFFFFFFFFFFFFFFFC#64).toNat + 4 ≤ 2 ^ 64 ∧ ¬ AllAllocated State.reset (0xFFFFFFFFFFFFFFFC#64).toNat 4 := by decide

/-- IoAndPdcAccessesRefused: the last I/O address, for both values of PSW W-bit, and the first PDC address. -/
theorem witness_IoAndPdc :
    (∃ off pa, dataAddress State.reset .read .long 0 0 (-1) = .ok (off, pa) ∧ spaceOfW0 off ≠ .memory) ∧
    (∃ off pa, dataAddress { State.reset with pswW := true } .write .short 0 0 (-1) = .ok (off, pa) ∧
      spaceOfW1 off ≠ .memory) ∧
    (∃ off pa, dataAddress State.reset .read .long 0 0 0xF0000000 = .ok (off, pa) ∧ spaceOfW0 off ≠ .memory) :=
  ⟨⟨0xFFFFFFFF, 0xFFFFFFFFFFFFFFFF, by decide⟩, ⟨-1, 0xFFFFFFFFFFFFFFFF, by decide⟩, ⟨0xF0000000, _, rfl, by decide⟩⟩

/-! #### The families -/

/-- A launch on which every form below reaches allocated bytes, with both switches on: base 3 at 0x1008, index 5. -/
def place (w : Bool) : State :=
  openForms (launch w [(3, 0x1008), (5, 1), (7, 0x1122334455667788)] 0x1000 (p8 ++ p8 ++ p8))

/-- The eight long displacement loads, base 3, target 4, with displacement 0, 8 or -8. -/
def longLoads : List Instr :=
  [.ldbL14 3 4 0 0, .ldhL14 3 4 0 0, .ldwL14 3 4 0 0x3FF1, .ldwModL14 3 4 0 0x3FF1, .ldwModL11 3 4 0 2 0,
   .lddL10 3 4 0 0 0, .lddMaL10 3 4 0 1 0, .lddMbL10 3 4 0 0x3FF 1]

/-- The eight long displacement stores. -/
def longStores : List Instr :=
  [.stbL14 3 7 0 0, .sthL14 3 7 0 0, .stwL14 3 7 0 0x3FF1, .stwModL14 3 7 0 0x10, .stwModL11 3 7 0 0x7FE 1,
   .stdL10 3 7 0 0 0, .stdMaL10 3 7 0 1 0, .stdMbL10 3 7 0 0x3FF 1]

/-- The four short displacement loads, with the four completers and a hint. -/
def shortLoads : List Instr :=
  [.ldbSl 3 4 0 .plain 0 2, .ldhSl 3 4 0 .ma 0 2, .ldwSl 3 4 0 .mb 3 0b11001, .lddSl 3 4 0 .o 0 0]

/-- The four short displacement stores, likewise. -/
def shortStores : List Instr :=
  [.stbSs 3 7 0 .plain 0 2, .sthSs 3 7 0 .ma 0 2, .stwSs 3 7 0 .mb 3 0b11001, .stdSs 3 7 0 .o 0 0]

/-- The four indexed loads, with the four completers and a hint. -/
def indexedLoads : List Instr :=
  [.ldbIx 3 5 4 0 .plain 0, .ldhIx 3 5 4 0 .s 0, .ldwIx 3 5 4 0 .m 3, .lddIx 3 5 4 0 .sm 0]

/-- LongLoadsComplete: each of the eight, for both values of PSW W-bit. -/
theorem witness_LongLoadsComplete (w : Bool) (i : Instr) (hi : i ∈ longLoads) :
    ∃ f off pa, longLoadForm (place w) i = some f ∧ (f.mod = .none ∨ f.other ≠ f.b) ∧
      Reaches (place w) .read .long f.size f.sp f.b (f.offset (place w)) off pa := by
  have h : ∀ w, ∀ i ∈ longLoads, ∃ f ∈ longLoadForm (place w) i, (f.mod = .none ∨ f.other ≠ f.b) ∧
      reachesB (place w) .read .long f.size f.sp f.b (f.offset (place w)) = true := by decide
  obtain ⟨f, hf, hm, hr⟩ := h w i hi
  obtain ⟨off, pa, hr⟩ := reaches_of_test hr
  exact ⟨f, off, pa, hf, hm, hr⟩

/-- LongStoresComplete: each of the eight, for both values of PSW W-bit. -/
theorem witness_LongStoresComplete (w : Bool) (i : Instr) (hi : i ∈ longStores) :
    ∃ f off pa, longStoreForm (place w) i = some f ∧
      Reaches (place w) .write .long f.size f.sp f.b (f.offset (place w)) off pa := by
  have h : ∀ w, ∀ i ∈ longStores, ∃ f ∈ longStoreForm (place w) i,
      reachesB (place w) .write .long f.size f.sp f.b (f.offset (place w)) = true := by decide
  obtain ⟨f, hf, hr⟩ := h w i hi
  obtain ⟨off, pa, hr⟩ := reaches_of_test hr
  exact ⟨f, off, pa, hf, hr⟩

/-- ShortLoadsComplete: each of the four. -/
theorem witness_ShortLoadsComplete (w : Bool) (i : Instr) (hi : i ∈ shortLoads) :
    ∃ f off pa, shortLoadForm i = some f ∧ HintAdmitted (place w) f.cc ∧ (f.modifies → f.other ≠ f.b) ∧
      Reaches (place w) .read .short f.size f.sp f.b (f.offset (place w)) off pa := by
  have h : ∀ w, ∀ i ∈ shortLoads, ∃ f ∈ shortLoadForm i, HintAdmitted (place w) f.cc ∧ (f.modifies → f.other ≠ f.b) ∧
      reachesB (place w) .read .short f.size f.sp f.b (f.offset (place w)) = true := by decide
  obtain ⟨f, hf, hh, hm, hr⟩ := h w i hi
  obtain ⟨off, pa, hr⟩ := reaches_of_test hr
  exact ⟨f, off, pa, hf, hh, hm, hr⟩

/-- ShortStoresComplete: each of the four. -/
theorem witness_ShortStoresComplete (w : Bool) (i : Instr) (hi : i ∈ shortStores) :
    ∃ f off pa, shortStoreForm i = some f ∧ HintAdmitted (place w) f.cc ∧
      Reaches (place w) .write .short f.size f.sp f.b (f.offset (place w)) off pa := by
  have h : ∀ w, ∀ i ∈ shortStores, ∃ f ∈ shortStoreForm i, HintAdmitted (place w) f.cc ∧
      reachesB (place w) .write .short f.size f.sp f.b (f.offset (place w)) = true := by decide
  obtain ⟨f, hf, hh, hr⟩ := h w i hi
  obtain ⟨off, pa, hr⟩ := reaches_of_test hr
  exact ⟨f, off, pa, hf, hh, hr⟩

/-- IndexedLoadsComplete: each of the four. -/
theorem witness_IndexedLoadsComplete (w : Bool) (i : Instr) (hi : i ∈ indexedLoads) :
    ∃ f off pa, indexForm i = some f ∧ HintAdmitted (place w) f.cc ∧ (f.modifies → f.t ≠ f.b) ∧
      Reaches (place w) .read .indexed f.size f.sp f.b (f.offset (place w)) off pa := by
  have h : ∀ w, ∀ i ∈ indexedLoads, ∃ f ∈ indexForm i, HintAdmitted (place w) f.cc ∧ (f.modifies → f.t ≠ f.b) ∧
      reachesB (place w) .read .indexed f.size f.sp f.b (f.offset (place w)) = true := by decide
  obtain ⟨f, hf, hh, hm, hr⟩ := h w i hi
  obtain ⟨off, pa, hr⟩ := reaches_of_test hr
  exact ⟨f, off, pa, hf, hh, hm, hr⟩

/-- An access that needs translation: P3's first instruction (for the families of the short and long formats). -/
theorem witness_completes_translated :
    reachesB p3Launch .read .short .word 0 3 0x1000 = true ∧ reachesB p3Launch .read .long .word 0 3 0x1000 = true ∧
    reachesB p3Launch .read .indexed .word 0 3 0x1000 = true ∧ reachesB p3Launch .write .short .word 0 9 0x80002000 = true := by
  decide

/-- The positions 0 to 7 of the store bytes forms stay in an allocated doubleword. -/
theorem place_allocated : ∀ k < 8, ∀ j < 8, allocated (place false).alloc (0x1008 + k - k + j) = true := by decide

/-- StoreBytesComplete and StoreBytesKeepTheirFrame: `STBY,B 1`, `STBY,E 1`, `STDBY,B 7` and `STDBY,E 0`, which stores
nothing. -/
theorem witness_StoreBytesComplete :
    ∀ i ∈ ([.stbySs 3 7 0 .b 0 2, .stbySs 3 7 0 .e 0 2, .stdbySs 3 7 0 .b 3 0b01110, .stdbySs 3 7 0 .e 0 0] : List Instr),
    ∃ f off pa, bytesForm i = some f ∧ HintAdmitted (place false) f.cc ∧ (place false).params.storeBytesModelled = true ∧
      ¬ f.modifies ∧ f.addresses (place false) off pa ∧
      ∀ j, f.stores off j → allocated (place false).alloc (pa.toNat - f.position off + j) = true := by
  intro i hi
  simp only [List.mem_cons, List.not_mem_nil, or_false] at hi
  rcases hi with rfl | rfl | rfl | rfl
  · refine ⟨_, 0x1009, 0x1009, rfl, by decide, rfl, by decide, rfl, fun j hj => place_allocated 1 (by omega) j ?_⟩
    have := hj.1; simp only [Size.bytes] at this; omega
  · refine ⟨_, 0x1009, 0x1009, rfl, by decide, rfl, by decide, rfl, fun j hj => place_allocated 1 (by omega) j ?_⟩
    have := hj.1; simp only [Size.bytes] at this; omega
  · refine ⟨_, 0x100F, 0x100F, rfl, by decide, rfl, by decide, rfl, fun j hj => place_allocated 7 (by omega) j ?_⟩
    exact hj.1
  · refine ⟨_, 0x1008, 0x1008, rfl, by decide, rfl, by decide, rfl, fun j hj => place_allocated 0 (by omega) j ?_⟩
    exact hj.1

/-- StoreBytesModifyComplete: `STBY,B,M 4` and `STDBY,E,M 7`. -/
theorem witness_StoreBytesModifyComplete :
    ∀ i ∈ ([.stbySs 3 7 0 .bm 0 0b01000, .stdbySs 3 7 0 .em 0 0b01110] : List Instr),
    ∃ f off pa, bytesForm i = some f ∧ (place false).params.storeBytesModelled = true ∧ (place false).params.runOpenForms = true ∧
      f.modifies ∧ f.addresses (place false) off pa ∧
      ∀ j, f.stores off j → allocated (place false).alloc (pa.toNat - f.position off + j) = true := by
  intro i hi
  simp only [List.mem_cons, List.not_mem_nil, or_false] at hi
  rcases hi with rfl | rfl
  · refine ⟨_, 0x100C, 0x100C, rfl, rfl, rfl, by decide, rfl, fun j hj => ?_⟩
    have := place_allocated 0 (by omega) (4 + j) (by have := hj.1; simp only [Size.bytes] at this; omega)
    rwa [show 0x1008 + 0 - 0 + (4 + j) = 0x100C + j by omega] at this
  · refine ⟨_, 0x100F, 0x100F, rfl, rfl, rfl, by decide, rfl, fun j hj => place_allocated 7 (by omega) j ?_⟩
    exact hj.1

/-- SameRegisterLoadsComplete: one form of each of the three families, `GR[0]` among them. -/
theorem witness_SameRegisterLoadsComplete :
    (place false).params.runOpenForms = true ∧
    (∃ f ∈ longLoadForm (place false) (.ldwModL14 3 3 0 0x10), f.b = 3 ∧ f.other = 3 ∧ f.mod ≠ .none ∧
      reachesB (place false) .read .long f.size f.sp 3 (f.offset (place false)) = true) ∧
    (∃ f ∈ shortLoadForm (.ldwSl 3 3 0 .ma 0 0b01000), f.b = 3 ∧ f.other = 3 ∧ f.modifies ∧
      reachesB (place false) .read .short f.size f.sp 3 (f.offset (place false)) = true) ∧
    (∃ f ∈ indexForm (.ldwIx 3 5 3 0 .m 0), f.b = 3 ∧ f.t = 3 ∧ f.modifies ∧
      reachesB (place false) .read .indexed f.size f.sp 3 (f.offset (place false)) = true) ∧
    (openForms State.reset).params.runOpenForms = true ∧
    (∃ f ∈ longLoadForm (openForms State.reset) (.lddMaL10 0 0 0 1 0), f.b = 0 ∧ f.other = 0 ∧ f.mod ≠ .none ∧
      reachesB (openForms State.reset) .read .long f.size f.sp 0 (f.offset (openForms State.reset)) = true) := by decide

/-! #### Frames and stops -/

/-- LoadsKeepTheirFrame, StoresKeepTheirFrame, StoreBytesKeepTheirFrame: an instruction of each family answers a next
state. -/
theorem witness_frames :
    ∀ i ∈ longLoads ++ longStores ++ shortLoads ++ shortStores ++ indexedLoads ++
        [.stbySs 3 7 0 .bm 0 2, .stdbySs 3 7 0 .e 0 0b01110],
      (pcOf (exec i (place false))).isSome = true := by decide

/-- InstructionsStopOnlyForListedCauses: a fault and a refusal. -/
theorem witness_stops :
    faultOf (exec (.ldhL14 3 4 0 2) (place false)) = some (.unalignedDataReference 0x1009) ∧
    refusalOf (exec (.ldwL14 0 4 0 0) (place false)) = some (.unmodelledAddressSpace 0) := by decide

/-- UnalignedAccessesFault: each of its five clauses, at the offset just past an aligned one. -/
theorem witness_UnalignedAccessesFault :
    let s := place false
    (∃ f ∈ longLoadForm s (.ldhL14 3 4 0 2), f.mod = .none ∧
      dataAddress s .read .long f.sp (readGr s f.b) (f.offset s) = .ok (0x1009, 0x1009) ∧
      (0x1009#64).toNat % f.size.bytes ≠ 0) ∧
    (∃ f ∈ longStoreForm s (.stwL14 3 7 0 4),
      dataAddress s .write .long f.sp (readGr s f.b) (f.offset s) = .ok (0x100A, 0x100A) ∧
      (0x100A#64).toNat % f.size.bytes ≠ 0) ∧
    (∃ f ∈ shortLoadForm (.lddSl 3 4 0 .mb 0 0b01000), HintAdmitted s f.cc ∧ f.other ≠ f.b ∧
      dataAddress s .read .short f.sp (readGr s f.b) (f.offset s) = .ok (0x100C, 0x100C) ∧
      (0x100C#64).toNat % f.size.bytes ≠ 0) ∧
    (∃ f ∈ shortStoreForm (.sthSs 3 7 0 .plain 1 0b00010), HintAdmitted s f.cc ∧
      dataAddress s .write .short f.sp (readGr s f.b) (f.offset s) = .ok (0x1009, 0x1009) ∧
      (0x1009#64).toNat % f.size.bytes ≠ 0) ∧
    (∃ f ∈ indexForm (.ldwIx 3 5 4 0 .plain 0), HintAdmitted s f.cc ∧ ¬ f.modifies ∧
      dataAddress s .read .indexed f.sp (readGr s f.b) (f.offset s) = .ok (0x1009, 0x1009) ∧
      (0x1009#64).toNat % f.size.bytes ≠ 0) := by decide

/-- TranslationFailuresFault: each of its six clauses, on P3's launch, at addresses no row covers. -/
theorem witness_TranslationFailuresFault :
    let s := p3Launch
    (∃ f ∈ longLoadForm s (.ldwL14 5 6 0 8), f.mod = .none ∧
      dataAddress s .read .long f.sp (readGr s f.b) (f.offset s) =
        .error (.dataTranslationFault 0x2040001004 .read)) ∧
    (∃ f ∈ longStoreForm s (.stbL14 3 4 0 0),
      dataAddress s .write .long f.sp (readGr s f.b) (f.offset s) =
        .error (.dataTranslationFault 0x1000001000 .write)) ∧
    (∃ f ∈ shortLoadForm (.ldwSl 3 4 1 .ma 0 0b01000), HintAdmitted s f.cc ∧ f.other ≠ f.b ∧
      dataAddress s .read .short f.sp (readGr s f.b) (f.offset s) =
        .error (.dataTranslationFault 0x7700001000 .read)) ∧
    (∃ f ∈ shortStoreForm (.stbSs 9 4 0 .plain 0 0b01000), HintAdmitted s f.cc ∧
      dataAddress s .write .short f.sp (readGr s f.b) (f.offset s) =
        .error (.dataTranslationFault 0x3080002004 .write)) ∧
    (∃ f ∈ bytesForm (.stbySs 9 4 0 .e 0 0b01000), HintAdmitted s f.cc ∧ s.params.storeBytesModelled = true ∧ ¬ f.modifies ∧
      dataAddress s .write .short f.sp (readGr s f.b) (readGr s f.b + lowSignExt5 f.im5) =
        .error (.dataTranslationFault 0x3080002004 .write)) ∧
    (∃ f ∈ indexForm (.ldbIx 9 0 4 0 .m 0), HintAdmitted s f.cc ∧ f.t ≠ f.b ∧
      dataAddress s .read .indexed f.sp (readGr s f.b) (f.offset s) =
        .error (.dataTranslationFault 0x3080002000 .read)) := by decide

/-- A launch that allocates three bytes. -/
def threeBytes : State := withStoreBytes (launch false [(3, 0x1000)] 0x1000 [1, 2, 3])

/-- UnallocatedAccessesAreRefused: each of its six clauses, at an aligned access that ends past the allocation, and a store
bytes form whose last byte alone is past it. -/
theorem witness_UnallocatedAccesses :
    let s := threeBytes
    (∃ f ∈ longLoadForm s (.ldwL14 3 4 0 0), f.mod = .none ∧
      dataAddress s .read .long f.sp (readGr s f.b) (f.offset s) = .ok (0x1000, 0x1000) ∧
      (0x1000#64).toNat % f.size.bytes = 0 ∧ ¬ AllAllocated s (0x1000#64).toNat f.size.bytes) ∧
    (∃ f ∈ longStoreForm s (.stbL14 3 4 0 0x3FFF),
      dataAddress s .write .long f.sp (readGr s f.b) (f.offset s) = .ok (0xFFF, 0xFFF) ∧
      (0xFFF#64).toNat % f.size.bytes = 0 ∧ ¬ AllAllocated s (0xFFF#64).toNat f.size.bytes) ∧
    (∃ f ∈ shortLoadForm (.lddSl 3 4 0 .plain 0 0), HintAdmitted s f.cc ∧ ¬ f.modifies ∧
      dataAddress s .read .short f.sp (readGr s f.b) (f.offset s) = .ok (0x1000, 0x1000) ∧
      (0x1000#64).toNat % f.size.bytes = 0 ∧ ¬ AllAllocated s (0x1000#64).toNat f.size.bytes) ∧
    (∃ f ∈ shortStoreForm (.sthSs 3 4 0 .plain 0 0b00100), HintAdmitted s f.cc ∧
      dataAddress s .write .short f.sp (readGr s f.b) (f.offset s) = .ok (0x1002, 0x1002) ∧
      (0x1002#64).toNat % f.size.bytes = 0 ∧ ¬ AllAllocated s (0x1002#64).toNat f.size.bytes) ∧
    (∃ f ∈ bytesForm (.stbySs 3 4 0 .b 0 0), HintAdmitted s f.cc ∧ s.params.storeBytesModelled = true ∧ ¬ f.modifies ∧
      f.addresses s 0x1000 0x1000 ∧ f.stores 0x1000 3 ∧
      allocated s.alloc ((0x1000#64).toNat - f.position 0x1000 + 3) = false) ∧
    (∃ f ∈ indexForm (.ldwIx 3 0 4 0 .m 0), HintAdmitted s f.cc ∧ f.t ≠ f.b ∧
      dataAddress s .read .indexed f.sp (readGr s f.b) (f.offset s) = .ok (0x1000, 0x1000) ∧
      (0x1000#64).toNat % f.size.bytes = 0 ∧ ¬ AllAllocated s (0x1000#64).toNat f.size.bytes) :=
  ⟨by decide, by decide, by decide, by decide,
   ⟨_, rfl, by decide, rfl, by decide, rfl, ⟨by decide, by decide⟩, by decide⟩, by decide⟩

/-- CacheHintsRefusedUnderD11, CacheHintsHaveNoEffect, SameRegisterLoadsRefusedUnderD19 and StoreBytesRefusedUnderD20: both
settings of the launch, a hint, and the forms refused. -/
theorem witness_decisions :
    State.reset.params.runOpenForms = false ∧ threeBytes.params.runOpenForms = false ∧ (place false).params.runOpenForms = true ∧
    hintOf (.ldbIx 3 5 4 0 .plain 3) = some 3#2 ∧ hintOf (.stdbySs 3 7 0 .b 1 0) = some 1#2 ∧ (1#2 ≠ 0#2) ∧
    (∃ f ∈ longLoadForm (place false) (.lddMbL10 3 3 0 0 0), f.mod ≠ .none ∧ f.other = f.b) ∧
    (∃ f ∈ shortLoadForm (.ldbSl 3 3 0 .mb 0 0), f.cc = 0#2 ∧ f.modifies ∧ f.other = f.b) ∧
    (∃ f ∈ indexForm (.lddIx 3 5 3 0 .sm 0), f.cc = 0#2 ∧ f.modifies ∧ f.t = f.b) ∧
    (∃ f ∈ bytesForm (.stbySs 3 7 0 .bm 0 0), HintAdmitted threeBytes f.cc ∧ f.modifies) ∧
    State.reset.params.storeBytesModelled = false := by decide

/-- ByteAccessesNeverUnaligned: a byte form of each kind. -/
theorem witness_ByteAccesses :
    (∃ f, bytesForm (.stbySs 3 7 0 .e 0 2) = some f) ∧
    (∃ f ∈ longLoadForm (place false) (.ldbL14 3 4 0 2), f.size = .byte) ∧
    (∃ f ∈ longStoreForm (place false) (.stbL14 3 4 0 2), f.size = .byte) ∧
    (∃ f ∈ shortLoadForm (.ldbSl 3 4 0 .plain 0 2), f.size = .byte) ∧
    (∃ f ∈ shortStoreForm (.stbSs 3 4 0 .plain 0 2), f.size = .byte) ∧
    (∃ f ∈ indexForm (.ldbIx 3 5 4 0 .plain 0), f.size = .byte) :=
  ⟨⟨_, rfl⟩, by decide, by decide, by decide, by decide, by decide⟩

/-! #### The machine -/

/-- A program of two words, the second of which the decoder rejects. -/
def twoWords : State := { place false with text := [0x4064000A#32, 0x50640014#32] }

/-- StepRunsDecodedInstruction, StepStopsWithoutInstruction and PlacedWordIsFetched: a word at the pc that decodes, one that
does not, and a pc at the end of the text. -/
theorem witness_step :
    (twoWords.pc.toNat % 4 = 0 ∧ twoWords.text[twoWords.pc.toNat / 4]? = some 0x4064000A#32 ∧
      decodeWith twoWords.params.decodeTable 0x4064000A#32 = .ok (.ldbL14 3 4 0 0x000A)) ∧
    (let s := { twoWords with pc := 4 }
     s.pc.toNat % 4 = 0 ∧ s.text[s.pc.toNat / 4]? = some 0x50640014#32 ∧
      decodeWith s.params.decodeTable 0x50640014#32 = .error (.notInScope 0x50640014)) ∧
    (let s := { twoWords with pc := 8 }
     s.pc.toNat = 4 * s.text.length) := by decide

/-- StepKeepsLaunchAndAdvancesPc, StepKeepsInv and UnallocatedBytesNeverChange: a step that completes from a state that meets
the invariant, and a byte just past the allocation. -/
theorem witness_StepKeepsInv :
    Inv twoWords ∧ (pcOf (step twoWords)).isSome = true ∧ allocated twoWords.alloc 0x1018 = false := by decide

/-- RunsTerminate: a run that takes all its steps. -/
theorem witness_RunsTerminate :
    PcInText (withWord (place false) 0x4064000A) ∧
    (∃ u, Sys2Proof.core.run 1 (withWord (place false) 0x4064000A) = .next u) := ⟨by decide, ⟨_, rfl⟩⟩

/-- DisabledTranslationHidesSpaces: a state with translation disabled whose step completes. -/
theorem witness_DisabledTranslationHidesSpaces :
    twoWords.dataTranslation = false ∧ (pcOf (step twoWords)).isSome = true := by decide

/-! #### The row as the host asks it -/

/-- A table word placed at reset decodes and runs as the first instruction: `LDB 0(%r0),%r0`. -/
theorem test_withFetchWord :
    decodeTableWord 32 0x40000000 = some (.ldbL14 0 0 0 0) ∧
    pcOf (step (State.reset.withFetchWord 32 0x40000000)) = some 4 ∧ decodeTableWord 40 0x40000000 = none := by decide

/-- A word of each of the 30 rows, with base register 3 and every other operand 0, completes as the first instruction after
reset once the launch has `STORE_BYTES_MODELLED` on; at its default, off, those of STBY and STDBY are refused by name (D20)
and the other 28 complete. -/
theorem test_every_row_runs_from_reset :
    let word := fun row : DecodeRow => (row.words.pattern ||| 0x00600000#32).toNat
    (∀ row ∈ opcodeTable, pcOf (step ((withStoreBytes State.reset).withFetchWord 32 (word row))) = some 4) ∧
    (∀ row ∈ opcodeTable, pcOf (step (State.reset.withFetchWord 32 (word row))) =
      if row.name = .stbySs ∨ row.name = .stdbySs then none else some 4) ∧
    refusalOf (step (State.reset.withFetchWord 32 0x0C601300)) = some .storeBytesNotModelled ∧
    refusalOf (step (State.reset.withFetchWord 32 0x0C601340)) = some .storeBytesNotModelled := by decide

/-- With every operand 0 a modifying load names `GR[0]` as base and target, and is refused (D19). -/
theorem test_zero_operands_same_register :
    refusalOf (step (State.reset.withFetchWord 32 0x4C000000)) = some .loadModifySameRegister ∧
    pcOf (step ((openForms State.reset).withFetchWord 32 0x4C000000)) = some 4 := by decide

end Sys2Proof.Tests
end

section
/-! Address formation without a space register: the physical address of an absolute address in each of the three address
spaces, as a number (20_memory.md sections 5 and 6), and address formation with data translation disabled (R28). -/

namespace Sys2Proof.Machine

/-! ### 62-bit absolute addresses (R34, R36) -/

theorem absToPhysW1_toNat_of_memory {a : Word} (pdcBits : BitVec 2) (h : spaceOfW1 a = .memory) :
    (absToPhysW1 pdcBits a).toNat = a.toNat % 2 ^ 62 := by
  simp only [absToPhysW1, h]
  rw [toNat_append, toNat_extract]
  simp

theorem absToPhysW1_toNat_of_io {a : Word} (pdcBits : BitVec 2) (h : spaceOfW1 a = .io) :
    (absToPhysW1 pdcBits a).toNat = 0x3 * 2 ^ 62 + a.toNat % 2 ^ 62 := by
  simp only [absToPhysW1, h]
  rw [toNat_append, toNat_extract]
  simp

theorem absToPhysW1_toNat_of_pdc {a : Word} (pdcBits : BitVec 2) (h : spaceOfW1 a = .pdc) :
    (absToPhysW1 pdcBits a).toNat = 0xF0 * 2 ^ 56 + pdcBits.toNat * 2 ^ 54 + a.toNat % 2 ^ 54 := by
  simp only [absToPhysW1, h]
  rw [toNat_append, toNat_append, toNat_extract, BitVec.toNat_ofNat]
  omega

/-- Settles O16: `spaceOfW1_eq` says which address space the address lies in, and each space has its extension. -/
theorem absoluteToPhysicalWide : Obligations.AbsoluteToPhysicalWide := by
  intro pdcBits a
  have hspace := spaceOfW1_eq a
  split_ifs at hspace ⊢
  · exact absToPhysW1_toNat_of_pdc pdcBits hspace
  · exact absToPhysW1_toNat_of_io pdcBits hspace
  · exact absToPhysW1_toNat_of_memory pdcBits hspace

/-! ### 32-bit absolute addresses (R39) -/

theorem absToPhysW0_toNat_of_memory {a : Word} (pdcBits : BitVec 32) (h : spaceOfW0 a = .memory) :
    (absToPhysW0 pdcBits a).toNat = a.toNat % 2 ^ 32 := by
  simp only [absToPhysW0, h]
  rw [toNat_append, toNat_extract]
  simp

theorem absToPhysW0_toNat_of_io {a : Word} (pdcBits : BitVec 32) (h : spaceOfW0 a = .io) :
    (absToPhysW0 pdcBits a).toNat = 0xFFFFFFFF * 2 ^ 32 + a.toNat % 2 ^ 32 := by
  simp only [absToPhysW0, h]
  rw [toNat_append, toNat_extract]
  simp

theorem absToPhysW0_toNat_of_pdc {a : Word} (pdcBits : BitVec 32) (h : spaceOfW0 a = .pdc) :
    (absToPhysW0 pdcBits a).toNat = 0xF0 * 2 ^ 56 + pdcBits.toNat * 2 ^ 24 + a.toNat % 2 ^ 24 := by
  simp only [absToPhysW0, h]
  rw [toNat_append, toNat_append, toNat_extract, BitVec.toNat_ofNat]
  omega

/-- Settles O17: `spaceOfW0_eq` says which address space the address lies in, and each space has its extension. -/
theorem absoluteToPhysicalNarrow : Obligations.AbsoluteToPhysicalNarrow := by
  intro pdcBits a
  have hspace := spaceOfW0_eq a
  split_ifs at hspace ⊢
  · exact absToPhysW0_toNat_of_pdc pdcBits hspace
  · exact absToPhysW0_toNat_of_io pdcBits hspace
  · exact absToPhysW0_toNat_of_memory pdcBits hspace

/-! ### Data translation disabled (R28) -/

/-- With data translation disabled an address is the narrowed offset, extended as an absolute address (R28): the space
selection of `dataAddress_enabled` is not reached. -/
theorem dataAddress_disabled {s : State} (k : Access) (fmt : Fmt) (sp : BitVec 2) (base o : Word)
    (h : s.dataTranslation = false) :
    dataAddress s k fmt sp base o = .ok (narrowOffset s.pswW o, absToPhys s.pswW (narrowOffset s.pswW o)) := by
  simp [dataAddress, h]

/-- Settles O15: the branch of address formation that selects no space register. -/
theorem disabledTranslationUsesOffset : Obligations.DisabledTranslationUsesOffset :=
  fun _ k fmt sp base o h => dataAddress_disabled k fmt sp base o h

end Sys2Proof.Machine
end

section
/-! Decoding what was encoded (30_encoding.md R48 to R54, R61 to R69): each format reads back the operands it was written
with, and the opcode, `ext4` and `m`/`op2` numbers lead the decoder to the row the encoder wrote. -/

namespace Sys2Proof

/-! ### Each format reads back its operands -/

@[simp] theorem decodeL14_encodeL14 (op : BitVec 6) (b t : Reg) (sp : BitVec 2) (im14 : BitVec 14)
    (k : Reg → Reg → BitVec 2 → BitVec 14 → Instr) : decodeL14 (encodeL14 op b t sp im14) k = k b t sp im14 := by
  simp [decodeL14]

@[simp] theorem decodeL11_encodeL11 (op : BitVec 6) (b t : Reg) (sp : BitVec 2) (im11a : BitVec 11) (i : BitVec 1)
    (k : Reg → Reg → BitVec 2 → BitVec 11 → BitVec 1 → Instr) :
    decodeL11 (encodeL11 op b t sp im11a i) k = .ok (k b t sp im11a i) := by
  simp [decodeL11]

@[simp] theorem decodeL10_encodeL10_plain (op : BitVec 6) (b t : Reg) (sp : BitVec 2) (im10a : BitVec 10) (i : BitVec 1)
    (plain ma mb : Reg → Reg → BitVec 2 → BitVec 10 → BitVec 1 → Instr) :
    decodeL10 (encodeL10 op b t sp im10a 0b000#3 i) plain ma mb = .ok (plain b t sp im10a i) := by
  simp [decodeL10]

@[simp] theorem decodeL10_encodeL10_ma (op : BitVec 6) (b t : Reg) (sp : BitVec 2) (im10a : BitVec 10) (i : BitVec 1)
    (plain ma mb : Reg → Reg → BitVec 2 → BitVec 10 → BitVec 1 → Instr) :
    decodeL10 (encodeL10 op b t sp im10a 0b100#3 i) plain ma mb = .ok (ma b t sp im10a i) := by
  simp [decodeL10]

@[simp] theorem decodeL10_encodeL10_mb (op : BitVec 6) (b t : Reg) (sp : BitVec 2) (im10a : BitVec 10) (i : BitVec 1)
    (plain ma mb : Reg → Reg → BitVec 2 → BitVec 10 → BitVec 1 → Instr) :
    decodeL10 (encodeL10 op b t sp im10a 0b110#3 i) plain ma mb = .ok (mb b t sp im10a i) := by
  simp [decodeL10]

/-- Opcode 03 leads to the tests of `ext4` and bit 12 (R69). -/
theorem decode_of_op03 {w : InstrWord} (h : fieldOp w = 0x03#6) : decode w = decodeOp03 w := by
  simp [decode, h]

@[simp] theorem decode_encodeOp03 (b mid : Reg) (sp : BitVec 2) (a short : BitVec 1) (cc : BitVec 2) (ext4 : BitVec 4)
    (m : BitVec 1) (low : BitVec 5) :
    decode (encodeOp03 b mid sp a short cc ext4 m low) = decodeOp03 (encodeOp03 b mid sp a short cc ext4 m low) :=
  decode_of_op03 (by simp)

/-- Settles O1: the opcode of each row, and in opcode 03 its `ext4` and bit 12, lead to the row's format, whose fields and
completer bits are read back; Table H-1 needs the well-formedness of the term. -/
theorem decodeOfEncode : Obligations.DecodeOfEncode := by
  intro i hwf
  cases i
  case ldbL14 | ldhL14 | ldwL14 | ldwModL14 | stbL14 | sthL14 | stwL14 | stwModL14 => simp [encode, decode]
  case ldwModL11 | stwModL11 => simp [encode, decode]
  case lddL10 | lddMaL10 | lddMbL10 | stdL10 | stdMaL10 | stdMbL10 => simp [encode, decode]
  case ldbSl _ _ _ c _ d | ldhSl _ _ _ c _ d | ldwSl _ _ _ c _ d | lddSl _ _ _ c _ d =>
    have hc : c.admits d = true := hwf
    simp [encode, encodeShortLoad, decodeOp03, decodeShortLoad, hc]
  case stbSs _ _ _ c _ d | sthSs _ _ _ c _ d | stwSs _ _ _ c _ d | stdSs _ _ _ c _ d =>
    have hc : c.admits d = true := hwf
    simp [encode, encodeShortStore, decodeOp03, decodeShortStore, hc]
  case stbySs | stdbySs => simp [encode, encodeStoreBytes, decodeOp03, decodeStoreBytes]
  case ldbIx | ldhIx | ldwIx | lddIx => simp [encode, encodeIndexed, decodeOp03, decodeIndexed]

end Sys2Proof
end

section
/-! The rows of the opcode table as tests of the fields their masks keep (INDEX.md, "Reading opcode_table.json"), and the
table's answer against that of the procedure `Decode(inst)` (R69). -/

namespace Sys2Proof

/-! ### What each row's mask keeps of a word -/

theorem and_maskL14 (w : InstrWord) : w &&& 0xFC000000#32 = fieldOp w ++ 0#26 := by
  have h := Laws.RowMatch.mask_encodeL14 (fieldOp w) (fieldB w) (fieldMid w) (fieldS w) (fieldIm14 w)
  rwa [encodeL14_fields] at h

theorem and_maskL11 (w : InstrWord) : w &&& 0xFC000006#32 = fieldOp w ++ 0#23 ++ fieldOp2 w ++ 0#1 := by
  unfold fieldOp fieldOp2
  apply BitVec.eq_of_getLsbD_eq; intro k hk
  simp only [BitVec.getLsbD_and, BitVec.getLsbD_append, BitVec.getLsbD_extractLsb']
  interval_cases k <;> simp

theorem and_maskL10 (w : InstrWord) : w &&& 0xFC00000E#32 = fieldOp w ++ 0#22 ++ fieldMOp2 w ++ 0#1 := by
  have h := Laws.RowMatch.mask_encodeL10 (fieldOp w) (fieldB w) (fieldMid w) (fieldS w) (fieldIm10a w) (fieldMOp2 w)
    (fieldI w)
  rwa [encodeL10_fields] at h

theorem and_maskOp03 (w : InstrWord) :
    w &&& 0xFC0013C0#32 = fieldOp w ++ 0#13 ++ fieldShort w ++ 0#2 ++ fieldExt4 w ++ 0#6 := by
  unfold fieldOp fieldShort fieldExt4
  apply BitVec.eq_of_getLsbD_eq; intro k hk
  simp only [BitVec.getLsbD_and, BitVec.getLsbD_append, BitVec.getLsbD_extractLsb']
  interval_cases k <;> simp

/-! ### The tests of a row are tests of the fields its mask keeps -/

/-- The rows of format `L14`: an opcode (R49, R67). -/
def rowL14 (op : BitVec 6) : OpcodeRow := ⟨0xFC000000#32, op ++ 0#26⟩

/-- The rows of format `L11`: an opcode and `op2` (R50, R67). -/
def rowL11 (op : BitVec 6) : OpcodeRow := ⟨0xFC000006#32, op ++ 0#23 ++ 0b10#2 ++ 0#1⟩

/-- The rows of format `L10`: an opcode, `m` and `op2` (R51, R67). -/
def rowL10 (op : BitVec 6) (mop2 : BitVec 3) : OpcodeRow := ⟨0xFC00000E#32, op ++ 0#22 ++ mop2 ++ 0#1⟩

/-- The rows of opcode 03: bit 12 and `ext4` (R52 to R54, R66). -/
def rowOp03 (short : BitVec 1) (ext4 : BitVec 4) : OpcodeRow :=
  ⟨0xFC0013C0#32, 0x03#6 ++ 0#13 ++ short ++ 0#2 ++ ext4 ++ 0#6⟩

/-- Two words made of fields side by side are equal exactly when the fields are. -/
theorem append_eq_append_iff {n m : Nat} {x x' : BitVec n} {y y' : BitVec m} :
    x ++ y = x' ++ y' ↔ x = x' ∧ y = y' := by
  constructor
  · intro h
    have hx := congrArg (BitVec.extractLsb' m n) h
    have hy := congrArg (BitVec.extractLsb' 0 m) h
    simp only [BitVec.extractLsb'_append_eq_left, BitVec.extractLsb'_append_eq_right] at hx hy
    exact ⟨hx, hy⟩
  · rintro ⟨rfl, rfl⟩; rfl

@[simp] theorem rowL14_matchesWord (op : BitVec 6) (w : InstrWord) :
    (rowL14 op).matchesWord w = decide (fieldOp w = op) := by
  rw [OpcodeRow.matchesWord, rowL14, and_maskL14, beq_eq_decide, decide_eq_decide, append_eq_append_iff (n := 6)]
  simp only [and_true]

@[simp] theorem rowL11_matchesWord (op : BitVec 6) (w : InstrWord) :
    (rowL11 op).matchesWord w = decide (fieldOp w = op ∧ fieldOp2 w = 0b10#2) := by
  rw [OpcodeRow.matchesWord, rowL11, and_maskL11, beq_eq_decide, decide_eq_decide, append_eq_append_iff (n := 31),
    append_eq_append_iff, append_eq_append_iff]
  simp only [and_true]

@[simp] theorem rowL10_matchesWord (op : BitVec 6) (mop2 : BitVec 3) (w : InstrWord) :
    (rowL10 op mop2).matchesWord w = decide (fieldOp w = op ∧ fieldMOp2 w = mop2) := by
  rw [OpcodeRow.matchesWord, rowL10, and_maskL10, beq_eq_decide, decide_eq_decide, append_eq_append_iff (n := 31),
    append_eq_append_iff, append_eq_append_iff]
  simp only [and_true]

@[simp] theorem rowOp03_matchesWord (short : BitVec 1) (ext4 : BitVec 4) (w : InstrWord) :
    (rowOp03 short ext4).matchesWord w =
      decide ((fieldOp w = 0x03#6 ∧ fieldShort w = short) ∧ fieldExt4 w = ext4) := by
  rw [OpcodeRow.matchesWord, rowOp03, and_maskOp03, beq_eq_decide, decide_eq_decide, append_eq_append_iff (n := 26),
    append_eq_append_iff, append_eq_append_iff, append_eq_append_iff, append_eq_append_iff]
  simp only [and_true]

/-! ### The opcode table in these rows (R3, R66, R67) -/

theorem longTable_eq : longTable =
    [⟨.ldbL14, rowL14 0x10#6⟩, ⟨.ldhL14, rowL14 0x11#6⟩, ⟨.ldwL14, rowL14 0x12#6⟩, ⟨.ldwModL14, rowL14 0x13#6⟩,
     ⟨.stbL14, rowL14 0x18#6⟩, ⟨.sthL14, rowL14 0x19#6⟩, ⟨.stwL14, rowL14 0x1A#6⟩, ⟨.stwModL14, rowL14 0x1B#6⟩,
     ⟨.ldwModL11, rowL11 0x17#6⟩, ⟨.stwModL11, rowL11 0x1F#6⟩,
     ⟨.lddL10, rowL10 0x14#6 0b000#3⟩, ⟨.lddMaL10, rowL10 0x14#6 0b100#3⟩, ⟨.lddMbL10, rowL10 0x14#6 0b110#3⟩,
     ⟨.stdL10, rowL10 0x1C#6 0b000#3⟩, ⟨.stdMaL10, rowL10 0x1C#6 0b100#3⟩, ⟨.stdMbL10, rowL10 0x1C#6 0b110#3⟩] := by
  decide

theorem op03Table_eq : op03Table =
    [⟨.ldbSl, rowOp03 1#1 0x0#4⟩, ⟨.ldhSl, rowOp03 1#1 0x1#4⟩, ⟨.ldwSl, rowOp03 1#1 0x2#4⟩, ⟨.lddSl, rowOp03 1#1 0x3#4⟩,
     ⟨.stbSs, rowOp03 1#1 0x8#4⟩, ⟨.sthSs, rowOp03 1#1 0x9#4⟩, ⟨.stwSs, rowOp03 1#1 0xA#4⟩, ⟨.stdSs, rowOp03 1#1 0xB#4⟩,
     ⟨.stbySs, rowOp03 1#1 0xC#4⟩, ⟨.stdbySs, rowOp03 1#1 0xD#4⟩,
     ⟨.ldbIx, rowOp03 0#1 0x0#4⟩, ⟨.ldhIx, rowOp03 0#1 0x1#4⟩, ⟨.ldwIx, rowOp03 0#1 0x2#4⟩, ⟨.lddIx, rowOp03 0#1 0x3#4⟩] := by
  decide

/-- Settles O58: in opcode 03 by bit 12, whose rows test `ext4` in the order the procedure does; in the twelve other opcodes
of the table by the rows of that opcode; and a word of any other opcode is rejected by both. -/
theorem defaultTableDecodesAsProcedure : Obligations.DefaultTableDecodesAsProcedure := by
  intro w
  simp only [opcodeTable, longTable_eq, op03Table_eq, List.cons_append, List.nil_append, decodeWith,
    rowL14_matchesWord, rowL11_matchesWord, rowL10_matchesWord, rowOp03_matchesWord, decide_eq_true_eq]
  by_cases h03 : fieldOp w = 0x03#6
  · rw [decode_of_op03 h03]
    by_cases hs : fieldShort w = 1#1
    · simp [h03, hs, decodeOp03, RowName.read]
    · simp [h03, (BitVec.eq_zero_or_eq_one _).resolve_right hs, decodeOp03, RowName.read]
  · simp only [h03, false_and, if_false]
    by_cases hop : fieldOp w ∈
        [0x10#6, 0x11#6, 0x12#6, 0x13#6, 0x14#6, 0x17#6, 0x18#6, 0x19#6, 0x1A#6, 0x1B#6, 0x1C#6, 0x1F#6]
    · simp only [List.mem_cons, List.not_mem_nil, or_false] at hop
      rcases hop with h | h | h | h | h | h | h | h | h | h | h | h <;>
        simp [h, decode, decodeL10, decodeL11, RowName.read]
    · simp only [List.mem_cons, List.not_mem_nil, or_false, not_or] at hop
      simp [hop, h03, decode]

end Sys2Proof
end

section
/-! What decoding by a table implies, the rows of the opcode table, what encoding a decoded word gives back, and the completer
tables on the words of opcode 03. -/

namespace Sys2Proof

open Safety

/-! ### Decoding by any table (R68; D21, D24) -/

/-- A word no row matches is rejected by name. -/
theorem decodeWith_of_unmatched {table : List DecodeRow} {w : InstrWord}
    (h : ∀ row ∈ table, row.words.matchesWord w = false) : decodeWith table w = .error (.notInScope w) := by
  induction table with
  | nil => rfl
  | cons r rs ih =>
    rw [List.forall_mem_cons] at h
    simp [decodeWith, h.1, ih h.2]

/-- Everything a rejected word implies. -/
theorem decodeWith_error {table : List DecodeRow} {w : InstrWord} {r : Reject} (h : decodeWith table w = .error r) :
    (∀ row ∈ table, row.words.matchesWord w = false) ∧ r = .notInScope w := by
  induction table with
  | nil => exact ⟨by simp, (Except.error.inj h).symm⟩
  | cons r' rs ih =>
    cases hm : r'.words.matchesWord w with
    | true => simp [decodeWith, hm] at h
    | false =>
      obtain ⟨hrs, hr⟩ := ih (by simpa [decodeWith, hm] using h)
      exact ⟨List.forall_mem_cons.mpr ⟨hm, hrs⟩, hr⟩

/-- Whatever a row reads has an encoding: a short completer is read with the field it admits (R61, R72). -/
theorem read_wellFormed (name : RowName) (w : InstrWord) : WellFormed (name.read w) = true := by
  cases name
  case ldbSl | ldhSl | ldwSl | lddSl | stbSs | sthSs | stwSs | stdSs => exact shortCompleter_admits ..
  all_goals rfl

/-- Settles O59: by what `decodeWith` answers for a matched and for an unmatched word. -/
theorem anyTableDecodesOrRejectsByName : Obligations.AnyTableDecodesOrRejectsByName := by
  intro table w
  refine ⟨⟨fun ⟨r, h⟩ => (decodeWith_error h).1, fun h => ⟨_, decodeWith_of_unmatched h⟩⟩,
    fun r h => (decodeWith_error h).2, fun i h => ?_⟩
  obtain ⟨r, _, _, rfl⟩ := decodeWith_ok h
  exact read_wellFormed r.name w

/-- Settles O3: what holds of any table, at the opcode table, which decodes as the procedure does. -/
theorem decoderRejectsExactlyUnmatchedWords : Obligations.DecoderRejectsExactlyUnmatchedWords := by
  intro w
  obtain ⟨hiff, hname, -⟩ := anyTableDecodesOrRejectsByName opcodeTable w
  rw [defaultTableDecodesAsProcedure w] at hiff hname
  exact ⟨by simpa only [opcodeRows, List.forall_mem_map] using hiff, hname⟩

/-! ### Decoding by the opcode table -/

/-- Everything a decoded word implies of the opcode table. -/
theorem decode_ok {w : InstrWord} {i : Instr} (h : decode w = .ok i) :
    ∃ r ∈ opcodeTable, r.words.matchesWord w = true ∧ i = r.name.read w :=
  decodeWith_ok (defaultTableDecodesAsProcedure w ▸ h)

/-- The row of what a name reads depends on the name only. -/
theorem opcodeRow_read (name : RowName) (w : InstrWord) : opcodeRow (name.read w) = opcodeRow (name.read 0#32) := by
  cases name <;> rfl

theorem opcodeRow_read_of_mem {r : DecodeRow} (h : r ∈ opcodeTable) (w : InstrWord) :
    opcodeRow (r.name.read w) = r.words := by
  have hrows : ∀ r ∈ opcodeTable, opcodeRow (r.name.read 0#32) = r.words := by decide
  rw [opcodeRow_read, hrows r h]

/-- Settles O2: the row that read the word is the row of the instruction. -/
theorem decodedWordMatchesItsRow : Obligations.DecodedWordMatchesItsRow := by
  intro w i h
  obtain ⟨r, hr, hm, rfl⟩ := decode_ok h
  exact ⟨read_wellFormed r.name w, (opcodeRow_read_of_mem hr w).symm ▸ hm⟩

/-- Two rows whose patterns differ at a bit both masks keep match no word in common. -/
theorem OpcodeRow.not_matchesWord_both {p q : OpcodeRow} (h : p.mask &&& q.mask &&& (p.pattern ^^^ q.pattern) ≠ 0#32)
    (w : InstrWord) : ¬ (p.matchesWord w = true ∧ q.matchesWord w = true) := by
  simp only [OpcodeRow.matchesWord, beq_iff_eq]
  rintro ⟨hp, hq⟩
  apply h
  rw [← hp, ← hq]
  ext k hk
  simp only [BitVec.getElem_and, BitVec.getElem_xor, BitVec.getElem_zero]
  cases w[k] <;> cases p.mask[k] <;> cases q.mask[k] <;> rfl

/-- Settles O4: any two rows differ at a bit both masks keep. -/
theorem rowsAreDisjoint : Obligations.RowsAreDisjoint := by
  have hbit : opcodeRows.Pairwise fun p q => p.mask &&& q.mask &&& (p.pattern ^^^ q.pattern) ≠ 0#32 := by decide
  exact hbit.imp fun h => OpcodeRow.not_matchesWord_both h

/-! ### Encoding what was decoded -/

theorem shortCompleter_mBit (a m : BitVec 1) (im5 : BitVec 5) : (shortCompleter a m im5).mBit = m := by
  revert a m im5; decide

/-- The bit `a` written for a completer: 0 where Table H-1 has "don't care" (R61; I5). -/
theorem shortCompleter_aBit (a m : BitVec 1) (im5 : BitVec 5) :
    (shortCompleter a m im5).aBit = if m = 0#1 then 0#1 else a := by
  revert a m im5; decide

theorem bytesCompleter_mBit (a m : BitVec 1) : (bytesCompleter a m).mBit = m := by revert a m; decide

theorem bytesCompleter_aBit (a m : BitVec 1) : (bytesCompleter a m).aBit = a := by revert a m; decide

theorem indexCompleter_mBit (u m : BitVec 1) : (indexCompleter u m).mBit = m := by revert u m; decide

theorem indexCompleter_uBit (u m : BitVec 1) : (indexCompleter u m).uBit = u := by revert u m; decide

/-- Clearing bit 13 of a word of opcode 03 clears its field `a`. -/
theorem encodeOp03_and_not_a (b mid : Reg) (sp : BitVec 2) (a short : BitVec 1) (cc : BitVec 2) (ext4 : BitVec 4)
    (m : BitVec 1) (low : BitVec 5) :
    encodeOp03 b mid sp a short cc ext4 m low &&& ~~~0x00002000#32 = encodeOp03 b mid sp 0#1 short cc ext4 m low := by
  unfold encodeOp03
  apply BitVec.eq_of_getLsbD_eq; intro k hk
  simp only [BitVec.getLsbD_and, BitVec.getLsbD_append]
  interval_cases k <;> simp

/-- A short displacement word written back is the word itself, or with `m = 0` the word without its bit `a` (R61; I5). -/
theorem encodeOp03_shortCompleter {w : InstrWord} (hop : fieldOp w = 0x03#6) (im5 : BitVec 5) :
    let c := shortCompleter (fieldA w) (fieldM w) im5
    let w' := encodeOp03 (fieldB w) (fieldMid w) (fieldS w) c.aBit (fieldShort w) (fieldCc w) (fieldExt4 w) c.mBit
      (fieldLow w)
    w' = w ∨ (fieldM w = 0#1 ∧ w' = w &&& ~~~0x00002000#32) := by
  intro c w'
  have hfields := encodeOp03_fields w hop
  by_cases hm : fieldM w = 0#1
  · right
    simp only [w', c, shortCompleter_mBit, shortCompleter_aBit, if_pos hm]
    exact ⟨hm, by rw [← encodeOp03_and_not_a _ _ _ (fieldA w), hfields]⟩
  · left
    simpa only [w', c, shortCompleter_mBit, shortCompleter_aBit, if_neg hm] using hfields

/-- Settles O5: format by format, a word is what its fields make, and only Table H-1 forgets a bit. -/
theorem encodeOfDecodedWord : Obligations.EncodeOfDecodedWord := by
  intro w i h
  obtain ⟨⟨name, words⟩, hr, hm, rfl⟩ := decode_ok h
  simp only [opcodeTable, longTable_eq, op03Table_eq, List.mem_append, List.mem_cons, DecodeRow.mk.injEq,
    List.not_mem_nil] at hr
  cases name <;> simp only [reduceCtorEq, false_and, false_or, or_false, true_and] at hr <;> subst hr <;>
    simp only [rowL14_matchesWord, rowL11_matchesWord, rowL10_matchesWord, rowOp03_matchesWord, decide_eq_true_eq] at hm
  case ldbL14 | ldhL14 | ldwL14 | ldwModL14 | stbL14 | sthL14 | stwL14 | stwModL14 =>
    left; simpa [encode, RowName.read, decodeL14, hm] using encodeL14_fields w
  case ldwModL11 | stwModL11 =>
    left; simpa [encode, RowName.read, hm.1] using encodeL11_fields w hm.2
  case lddL10 | lddMaL10 | lddMbL10 | stdL10 | stdMaL10 | stdMbL10 =>
    left; simpa [encode, RowName.read, hm.1, hm.2] using encodeL10_fields w
  case ldbSl | ldhSl | ldwSl | lddSl =>
    obtain ⟨⟨hop, hs⟩, he⟩ := hm
    simpa [encode, encodeShortLoad, RowName.read, decodeShortLoad, hop, hs, he]
      using encodeOp03_shortCompleter hop (fieldMid w)
  case stbSs | sthSs | stwSs | stdSs =>
    obtain ⟨⟨hop, hs⟩, he⟩ := hm
    simpa [encode, encodeShortStore, RowName.read, decodeShortStore, hop, hs, he]
      using encodeOp03_shortCompleter hop (fieldLow w)
  case stbySs | stdbySs =>
    obtain ⟨⟨hop, hs⟩, he⟩ := hm
    left
    simpa [encode, encodeStoreBytes, RowName.read, decodeStoreBytes, bytesCompleter_aBit, bytesCompleter_mBit, hs, he]
      using encodeOp03_fields w hop
  case ldbIx | ldhIx | ldwIx | lddIx =>
    obtain ⟨⟨hop, hs⟩, he⟩ := hm
    left
    simpa [encode, encodeIndexed, RowName.read, decodeIndexed, indexCompleter_uBit, indexCompleter_mBit, hs, he]
      using encodeOp03_fields w hop

/-! ### Words of the spec, and the words of opcode 03, table by table (R61 to R63, R66) -/

/-- Settles O6: eight evaluations of the decoder. -/
theorem specWordsDecode : Obligations.SpecWordsDecode := by
  unfold Obligations.SpecWordsDecode; decide

/-- Table H-1, read (R61). -/
theorem shortCompleter_table (a m : BitVec 1) (im5 : BitVec 5) :
    (m = 0#1 → shortCompleter a m im5 = .plain) ∧
    (a = 0#1 → m = 1#1 → im5 ≠ 0#5 → shortCompleter a m im5 = .ma) ∧
    (a = 1#1 → m = 1#1 → shortCompleter a m im5 = .mb) ∧
    (a = 0#1 → m = 1#1 → im5 = 0#5 → shortCompleter a m im5 = .o) := by
  revert a m im5; decide

/-- Settles O7: the four `ext4` values of the loads and of the stores each lead to one arm of the decoder. -/
theorem shortCompleterTable : Obligations.ShortCompleterTable := by
  refine ⟨shortCompleter_table, fun w hop hs hlt => ?_, fun w hop hs hge hlt => ?_⟩
  · have he : fieldExt4 w = 0x0#4 ∨ fieldExt4 w = 0x1#4 ∨ fieldExt4 w = 0x2#4 ∨ fieldExt4 w = 0x3#4 := by bv_omega
    rw [decode_of_op03 hop]
    rcases he with he | he | he | he <;>
      exact ⟨_, _, by simp only [decodeOp03, hs, he]; rfl, rfl, rfl, rfl⟩
  · have he : fieldExt4 w = 0x8#4 ∨ fieldExt4 w = 0x9#4 ∨ fieldExt4 w = 0xA#4 ∨ fieldExt4 w = 0xB#4 := by bv_omega
    rw [decode_of_op03 hop]
    rcases he with he | he | he | he <;>
      exact ⟨_, _, by simp only [decodeOp03, hs, he]; rfl, rfl, rfl, rfl⟩

theorem bytesCompleter_ending (a m : BitVec 1) :
    bytesCompleter a m = .e ∨ bytesCompleter a m = .em ↔ a = 1#1 := by revert a m; decide

theorem bytesCompleter_modifies (a m : BitVec 1) :
    bytesCompleter a m = .bm ∨ bytesCompleter a m = .em ↔ m = 1#1 := by revert a m; decide

/-- Settles O8: Table H-2 at the bits `a` and `m` of the word, in the arms of the decoder for `ext4` C and D. -/
theorem storeBytesCompleterTable : Obligations.StoreBytesCompleterTable := by
  refine ⟨by decide, fun w hop hs he => ?_⟩
  rw [decode_of_op03 hop]
  rcases he with he | he <;>
    exact ⟨_, _, by simp only [decodeOp03, hs, he]; rfl, rfl, rfl, bytesCompleter_ending .., bytesCompleter_modifies ..⟩

theorem indexCompleter_modifies (u m : BitVec 1) :
    indexCompleter u m = .m ∨ indexCompleter u m = .sm ↔ m = 1#1 := by revert u m; decide

theorem indexCompleter_shifts (u m : BitVec 1) :
    indexCompleter u m = .s ∨ indexCompleter u m = .sm ↔ u = 1#1 := by revert u m; decide

/-- Settles O9: Table H-3 at the bits `u` and `m` of the word, in the four arms of the decoder with bit 12 zero. -/
theorem indexCompleterTable : Obligations.IndexCompleterTable := by
  refine ⟨by decide, fun w hop hs hlt => ?_⟩
  have he : fieldExt4 w = 0x0#4 ∨ fieldExt4 w = 0x1#4 ∨ fieldExt4 w = 0x2#4 ∨ fieldExt4 w = 0x3#4 := by bv_omega
  rw [decode_of_op03 hop]
  rcases he with he | he | he | he <;>
    exact ⟨_, _, by simp only [decodeOp03, hs, he]; rfl, rfl, rfl, indexCompleter_modifies .., indexCompleter_shifts ..⟩

end Sys2Proof
end

section
/-! What a completed step leaves (60_exceptions.md R114, 70_reset_and_hazards.md R125 to R128), from the three shapes
`exec_effect` says a completed instruction can have; the invariant, and the length of a run. -/

namespace Sys2Proof.Machine

open Sys2Proof Sys2Proof.Safety

/-! ### A completed instruction -/

/-- A completed instruction leaves memory, or stores bytes that are all allocated. -/
theorem exec_mem {i : Instr} {s u : State} (h : exec i s = .next u) :
    u.mem = s.mem ∨ ∃ a n v, AllAllocated s a n ∧ u.mem = writeBytes s.mem a n v := by
  rcases exec_effect h with ⟨b, t, nb, v, rfl⟩ | ⟨a, n, v, b, nb, hall, rfl⟩ | ⟨a, n, v, b, hall, rfl⟩
  · exact .inl (by simp)
  · exact .inr ⟨a, n, v, hall, by simp⟩
  · exact .inr ⟨a, n, v, hall, by simp⟩

theorem exec_sameLaunch {i : Instr} {s u : State} (h : exec i s = .next u) : SameLaunch s u := by
  rcases exec_effect h with ⟨b, t, nb, v, rfl⟩ | ⟨a, n, v, b, nb, -, rfl⟩ | ⟨a, n, v, b, -, rfl⟩
  · exact sameLaunch_finishLoad ..
  · constructor <;> simp
  · constructor <;> simp

theorem exec_pc {i : Instr} {s u : State} (h : exec i s = .next u) : u.pc = s.pc + 4#64 := by
  rcases exec_effect h with ⟨b, t, nb, v, rfl⟩ | ⟨a, n, v, b, nb, -, rfl⟩ | ⟨a, n, v, b, -, rfl⟩ <;> simp

/-- No instruction writes entry 0 of the register file (R11). -/
theorem exec_entry_zero {i : Instr} {s u : State} (h : exec i s = .next u) : u.gr[0] = s.gr[0] := by
  rcases exec_effect h with ⟨b, t, nb, v, rfl⟩ | ⟨a, n, v, b, nb, -, rfl⟩ | ⟨a, n, v, b, -, rfl⟩
  · exact finishLoad_entry_zero ..
  · simp [writeBase_entry_zero]
  · simp [writeGr_entry_zero]

/-! ### A completed step -/

/-- Settles O51: a completed step is a completed instruction. -/
theorem stepKeepsLaunchAndAdvancesPc : Obligations.StepKeepsLaunchAndAdvancesPc := by
  intro s u h
  obtain ⟨w, i, -, -, hexec⟩ := step_next h
  exact ⟨exec_sameLaunch hexec, exec_pc hexec⟩

/-- A step that completes had a word at the pc, so from a pc in the text it stays there, 4 further on (R17, R128). -/
theorem step_pcInText {s u : State} (hpc : PcInText s) (h : step s = .next u) :
    s.pc.toNat / 4 < s.text.length ∧ u.pc.toNat = s.pc.toNat + 4 ∧ u.text = s.text ∧ PcInText u := by
  obtain ⟨hmod, hle, hend⟩ := hpc
  obtain ⟨hlaunch, hnext⟩ := stepKeepsLaunchAndAdvancesPc s u h
  obtain ⟨w, i, hfetch, -, -⟩ := step_next h
  have hword := (List.getElem?_eq_some_iff.mp ((fetch_eq_ok s w).mp hfetch).2).1
  have hpc4 : u.pc.toNat = s.pc.toNat + 4 := by
    rw [hnext, BitVec.toNat_add, BitVec.toNat_ofNat]; omega
  refine ⟨hword, hpc4, hlaunch.text, ?_⟩
  simp only [PcInText, hpc4, hlaunch.text]
  omega

/-- Settles O52: memory by the bytes a completed instruction stores, entry 0 by `exec_entry_zero`, and the pc by
`step_pcInText`. -/
theorem stepKeepsInv : Obligations.StepKeepsInv := by
  rintro s u ⟨hwf, hcells, hzero, hpc⟩ h
  obtain ⟨w, i, -, -, hexec⟩ := step_next h
  have halloc : u.alloc = s.alloc := (exec_sameLaunch hexec).alloc
  obtain ⟨-, -, -, hpcu⟩ := step_pcInText hpc h
  refine ⟨?_, ?_, (exec_entry_zero hexec).trans hzero, hpcu⟩
  · rcases exec_mem hexec with hmem | ⟨a, n, v, -, hmem⟩
    · rw [MemoryCanonical, hmem]; exact hwf
    · rw [MemoryCanonical, hmem]; exact writeBytes_wf a n v hwf
  · intro c hc
    rw [halloc]
    rcases exec_mem hexec with hmem | ⟨a, n, v, hall, hmem⟩
    · exact hcells c (hmem ▸ hc)
    · rcases mem_writeBytes (hmem ▸ hc) with ⟨hge, hlt⟩ | hold
      · have hcell := hall (c.1 - a) (by omega)
        rwa [Nat.add_sub_cancel' hge] at hcell
      · exact hcells c hold

/-- Settles O55: the bytes a step stores are all allocated, so it stores none that is not. -/
theorem unallocatedBytesNeverChange : Obligations.UnallocatedBytesNeverChange := by
  intro s u a h hun
  obtain ⟨w, i, -, -, hexec⟩ := step_next h
  refine ⟨?_, (exec_sameLaunch hexec).alloc ▸ hun⟩
  rcases exec_mem hexec with hmem | ⟨b, n, v, hall, hmem⟩
  · rw [hmem]
  · rw [hmem]
    apply lookupByte_writeBytes_outside
    by_contra hin
    have hbyte := hall (a - b) (by omega)
    rw [show b + (a - b) = a by omega, hun] at hbyte
    exact Bool.false_ne_true hbyte

/-! ### The fetch, and steps that do not complete (R68, R125, R128) -/

/-- Settles O48. -/
theorem stepRunsDecodedInstruction : Obligations.StepRunsDecodedInstruction :=
  fun s w _ hmod hword hdec => step_eq_exec ((fetch_eq_ok s w).mpr ⟨hmod, hword⟩) hdec

theorem step_of_rejected {s : State} {w w' : InstrWord} (hf : fetch s = .ok w)
    (hd : decodeWith s.params.decodeTable w = .error (.notInScope w')) : step s = .refused (.notInScope w') := by
  simp only [step, hf, hd]

theorem step_of_fetch_error {s : State} {f : Fault} (hf : fetch s = .error f) : step s = .fault f := by
  simp only [step, hf]

/-- At the end of the text the fetch ends the run (R128). -/
theorem fetch_at_end {s : State} (h : s.pc.toNat = 4 * s.text.length) : fetch s = .error .endOfProgram := by
  have hdiv : s.pc.toNat / 4 = s.text.length := by omega
  simp [fetch, hdiv, show s.pc.toNat % 4 = 0 by omega]

/-- Settles O49: by what the step answers where the decoder, and where the fetch, gives nothing. -/
theorem stepStopsWithoutInstruction : Obligations.StepStopsWithoutInstruction :=
  ⟨fun s w _ hmod hword hrej => step_of_rejected ((fetch_eq_ok s w).mpr ⟨hmod, hword⟩) hrej,
    fun _ hend => step_of_fetch_error (fetch_at_end hend)⟩

/-- Settles O50: the placed word is read back at the pc, and no other word of the text is replaced. -/
theorem placedWordIsFetched : Obligations.PlacedWordIsFetched := by
  intro s w i hmod hdec
  have hword : (s.withFetchWord 32 w.toNat).text = setWord s.text (s.pc.toNat / 4) w := by
    simp [State.withFetchWord, Nat.mod_eq_of_lt w.isLt]
  refine ⟨step_eq_exec ((fetch_eq_ok _ w).mpr ⟨hmod, ?_⟩) hdec, fun n hn hlt => ?_⟩
  · rw [hword]; exact setWord_get ..
  · rw [hword]; exact setWord_get_other _ _ hn hlt

/-! ### Runs (R128; D22) -/

/-- The bound of a run, by the number of words left. -/
theorem run_of_words_left (k : Nat) (s : State) (hpc : PcInText s) (hk : s.text.length - s.pc.toNat / 4 = k) :
    (∀ u, Sys2Proof.core.run (k + 1) s ≠ .next u) ∧
    (∀ u, Sys2Proof.core.run k s = .next u → step u = .fault .endOfProgram) := by
  induction k generalizing s with
  | zero =>
    have hend : step s = .fault .endOfProgram := stepStopsWithoutInstruction.2 s (by omega)
    refine ⟨run_stop 0 (by simp [hend]), fun u hu => ?_⟩
    cases hu
    exact hend
  | succ k ih =>
    cases hstep : step s with
    | next t =>
      obtain ⟨-, hpc4, htext, hpct⟩ := step_pcInText hpc hstep
      rw [run_succ _ hstep, run_succ _ hstep]
      exact ih t hpct (by rw [htext, hpc4]; omega)
    | fault f => exact ⟨run_stop _ (by simp [hstep]), fun u hu => absurd hu (run_stop k (by simp [hstep]) u)⟩
    | refused r => exact ⟨run_stop _ (by simp [hstep]), fun u hu => absurd hu (run_stop k (by simp [hstep]) u)⟩

/-- Settles O56: `run_of_words_left` at the number of words left. -/
theorem runsTerminate : Obligations.RunsTerminate := fun s hpc => run_of_words_left _ s hpc rfl

/-! ### Reset (R21, R125) -/

/-- Settles O53: the state at reset, field by field. -/
theorem resetMeetsInv : Obligations.ResetMeetsInv :=
  ⟨reset_mem_wf, fun _ hc => absurd hc List.not_mem_nil, rfl, by decide⟩

/-- Settles O54. -/
theorem resetValues : Obligations.ResetValues := ⟨rfl, rfl, rfl, rfl, rfl, rfl, rfl, rfl, rfl⟩

end Sys2Proof.Machine
end

section
/-! Where an instruction stops (60_exceptions.md R114 to R117): when each procedure faults or is refused, and that it stops in
no other way. -/

namespace Sys2Proof.Machine

open Sys2Proof Sys2Proof.Safety

/-! ### The cache control hint (R47; D11; assumption 2) -/

/-- Settles O42: the test of the hint is the first of every procedure that has one. -/
theorem cacheHintsRefusedUnderD11 : Obligations.CacheHintsRefusedUnderD11 := by
  intro i s cc hi hcc hopen
  cases i <;> simp only [hintOf, reduceCtorEq, Option.some.injEq] at hi <;> subst hi
  case ldbSl | ldhSl | ldwSl | lddSl => exact if_pos ⟨hcc, hopen⟩
  case stbSs | sthSs | stwSs | stdSs => exact if_pos ⟨hcc, hopen⟩
  case stbySs | stdbySs => exact if_pos ⟨hcc, hopen⟩
  case ldbIx | ldhIx | ldwIx | lddIx => exact if_pos ⟨hcc, hopen⟩

/-- A hint that is not admitted is the one D11 refuses. -/
theorem exec_of_hint_not_admitted {i : Instr} {s : State} {cc : BitVec 2} (hi : hintOf i = some cc)
    (h : ¬ HintAdmitted s cc) : exec i s = .refused .cacheHintNotModelled := by
  simp only [HintAdmitted, not_or, Bool.not_eq_true] at h
  exact cacheHintsRefusedUnderD11 i s cc hi h.1 h.2

/-- An instruction that completes has an admitted hint. -/
theorem hintAdmitted_of_next {i : Instr} {s u : State} {cc : BitVec 2} (hi : hintOf i = some cc)
    (h : exec i s = .next u) : HintAdmitted s cc := by
  by_contra hno
  rw [exec_of_hint_not_admitted hi hno] at h
  cases h

theorem hintOf_shortLoad {i : Instr} {f : ShortForm} (h : shortLoadForm i = some f) : hintOf i = some f.cc := by
  cases i <;> simp only [shortLoadForm, Option.some.injEq, reduceCtorEq] at h <;> subst h <;> rfl

theorem hintOf_shortStore {i : Instr} {f : ShortForm} (h : shortStoreForm i = some f) : hintOf i = some f.cc := by
  cases i <;> simp only [shortStoreForm, Option.some.injEq, reduceCtorEq] at h <;> subst h <;> rfl

theorem hintOf_indexed {i : Instr} {f : IndexForm} (h : indexForm i = some f) : hintOf i = some f.cc := by
  cases i <;> simp only [indexForm, Option.some.injEq, reduceCtorEq] at h <;> subst h <;> rfl

/-- Where the launch runs the open forms the test of the hint passes, whatever the hint. -/
theorem hint_passes_of_open {s : State} (h : s.params.runOpenForms = true) (cc : BitVec 2) :
    ¬ (cc ≠ 0#2 ∧ s.params.runOpenForms = false) := hint_passes (.inr h)

theorem shortLoad_clear_hint {s : State} (h : s.params.runOpenForms = true) (n : Size) (b t : Reg) (sp : BitVec 2)
    (c : ShortCmplt) (cc : BitVec 2) (im5 : BitVec 5) :
    shortLoad s n b t sp c cc im5 = shortLoad s n b t sp c 0#2 im5 := by
  simp only [shortLoad, if_neg (hint_passes_of_open h _)]

theorem shortStore_clear_hint {s : State} (h : s.params.runOpenForms = true) (n : Size) (b r : Reg) (sp : BitVec 2)
    (c : ShortCmplt) (cc : BitVec 2) (im5 : BitVec 5) :
    shortStore s n b r sp c cc im5 = shortStore s n b r sp c 0#2 im5 := by
  simp only [shortStore, if_neg (hint_passes_of_open h _)]

theorem storeBytes_clear_hint {s : State} (h : s.params.runOpenForms = true) (n : Size) (sp : BitVec 2) (b r : Reg)
    (c : BytesCmplt) (cc : BitVec 2) (im5 : BitVec 5) :
    storeBytes s n sp b r c cc im5 = storeBytes s n sp b r c 0#2 im5 := by
  simp only [storeBytes, if_neg (hint_passes_of_open h _)]

theorem indexedLoad_clear_hint {s : State} (h : s.params.runOpenForms = true) (n : Size) (b x t : Reg) (sp : BitVec 2)
    (c : IndexCmplt) (cc : BitVec 2) :
    indexedLoad s n b x t sp c cc = indexedLoad s n b x t sp c 0#2 := by
  simp only [indexedLoad, if_neg (hint_passes_of_open h _)]

/-- Settles O43: the hint stands in that test only, and the test passes with any hint. -/
theorem cacheHintsHaveNoEffect : Obligations.CacheHintsHaveNoEffect := by
  intro i s h
  cases i
  case ldbSl | ldhSl | ldwSl | lddSl => exact shortLoad_clear_hint h ..
  case stbSs | sthSs | stwSs | stdSs => exact shortStore_clear_hint h ..
  case stbySs | stdbySs => exact storeBytes_clear_hint h ..
  case ldbIx | ldhIx | ldwIx | lddIx => exact indexedLoad_clear_hint h ..
  all_goals rfl

/-! ### Loads -/

section Loads

variable {s : State} {n : Size} {fmt : Fmt} {sp : BitVec 2} {b t : Reg} {o off pa : Word} {nb : Option Word}

/-- The launch lets a load execute with its target and its base: it does not modify the base, or they differ, or the open
forms run (R76; D19; assumption 2). -/
abbrev LoadAdmitted (s : State) (b t : Reg) (nb : Option Word) : Prop :=
  nb.isSome = true → t = b → s.params.runOpenForms = true

/-- A load that modifies its base only where `p` holds is admitted unless it modifies its own target under D19. -/
theorem loadAdmitted_some_of {p : Prop} [Decidable p] {x : Word} (h : ¬ p ∨ t ≠ b ∨ s.params.runOpenForms = true) :
    LoadAdmitted s b t (if p then some x else none) := by
  intro hsome htb
  by_cases hp : p
  · exact (h.resolve_left (not_not_intro hp)).resolve_left (not_not_intro htb)
  · simp [hp] at hsome

/-- The same with the modification stated by its absence, as the long displacement forms have it (R75). -/
theorem loadAdmitted_none_of {p : Prop} [Decidable p] {x : Word} (h : p ∨ t ≠ b ∨ s.params.runOpenForms = true) :
    LoadAdmitted s b t (if p then none else some x) := by
  rw [← ite_not]
  exact loadAdmitted_some_of (by rwa [not_not])

/-- A load that is not admitted is refused before its address is formed (R76, R117). -/
theorem load_of_not_admitted (h : ¬ LoadAdmitted s b t nb) :
    load s n fmt sp b t o nb = .refused .loadModifySameRegister := by
  simp only [LoadAdmitted, Classical.not_imp, Bool.not_eq_true] at h
  exact if_pos h

theorem LoadAdmitted.passes (h : LoadAdmitted s b t nb) :
    ¬ (nb.isSome = true ∧ t = b ∧ s.params.runOpenForms = false) := by
  rintro ⟨hsome, htb, hopen⟩
  simp [h hsome htb] at hopen

/-- Address formation's fault is the load's (R24, R32). -/
theorem load_of_no_address {e : Fault} (h : LoadAdmitted s b t nb)
    (hd : dataAddress s .read fmt sp (readGr s b) o = .error e) : load s n fmt sp b t o nb = .fault e := by
  simp only [load, if_neg h.passes, hd]

theorem load_of_unaligned (h : LoadAdmitted s b t nb) (hd : dataAddress s .read fmt sp (readGr s b) o = .ok (off, pa))
    (ha : off.toNat % n.bytes ≠ 0) : load s n fmt sp b t o nb = .fault (.unalignedDataReference off) := by
  simp only [load, if_neg h.passes, hd, if_pos ha]

theorem load_of_unallocated (h : LoadAdmitted s b t nb) (hd : dataAddress s .read fmt sp (readGr s b) o = .ok (off, pa))
    (ha : off.toNat % n.bytes = 0) (hp : ¬ AllAllocated s pa.toNat n.bytes) :
    ∃ x, load s n fmt sp b t o nb = .refused (.unmodelledAddressSpace x) := by
  rcases memRead_cases s pa n.bytes with ⟨hall, -⟩ | ⟨x, -, -, -, -, hr⟩
  · exact absurd hall hp
  · exact ⟨_, by simp only [load, if_neg h.passes, hd, ha, hr, ne_eq, not_true, if_false]; rfl⟩

/-- Everything a load can answer. -/
theorem load_cases (s : State) (n : Size) (fmt : Fmt) (sp : BitVec 2) (b t : Reg) (o : Word) (nb : Option Word) :
    load s n fmt sp b t o nb = .refused .loadModifySameRegister ∨
    (∃ va, load s n fmt sp b t o nb = .fault (.dataTranslationFault va .read)) ∨
    (∃ off, off.toNat % n.bytes ≠ 0 ∧ load s n fmt sp b t o nb = .fault (.unalignedDataReference off)) ∨
    (∃ pa, load s n fmt sp b t o nb = .refused (.unmodelledAddressSpace pa)) ∨
    ∃ u, load s n fmt sp b t o nb = .next u := by
  by_cases hadm : LoadAdmitted s b t nb
  · right
    cases hd : dataAddress s .read fmt sp (readGr s b) o with
    | error e =>
      obtain ⟨va, rfl⟩ := dataAddress_error hd
      exact .inl ⟨va, load_of_no_address hadm hd⟩
    | ok p =>
      obtain ⟨off, pa⟩ := p
      right
      by_cases ha : off.toNat % n.bytes = 0
      · right
        by_cases hp : AllAllocated s pa.toNat n.bytes
        · exact .inr ⟨_, load_of_reaches ⟨hd, ha, hp⟩ hadm⟩
        · exact .inl (load_of_unallocated hadm hd ha hp)
      · exact .inl ⟨off, ha, load_of_unaligned hadm hd ha⟩
  · exact .inl (load_of_not_admitted hadm)

end Loads

/-! ### Stores -/

section Stores

variable {s : State} {n : Size} {fmt : Fmt} {sp : BitVec 2} {b r : Reg} {o off pa : Word} {nb : Option Word}

/-- Address formation's fault is the store's (R24, R32). -/
theorem store_of_no_address {e : Fault} (hd : dataAddress s .write fmt sp (readGr s b) o = .error e) :
    store s n fmt sp b r o nb = .fault e := by
  simp only [store, hd]

theorem store_of_unaligned (hd : dataAddress s .write fmt sp (readGr s b) o = .ok (off, pa))
    (ha : off.toNat % n.bytes ≠ 0) : store s n fmt sp b r o nb = .fault (.unalignedDataReference off) := by
  simp only [store, hd, if_pos ha]

theorem store_of_unallocated (hd : dataAddress s .write fmt sp (readGr s b) o = .ok (off, pa))
    (ha : off.toNat % n.bytes = 0) (hp : ¬ AllAllocated s pa.toNat n.bytes) :
    ∃ x, store s n fmt sp b r o nb = .refused (.unmodelledAddressSpace x) := by
  rcases memWrite_cases s pa n.bytes (readGr s r) with ⟨hall, -⟩ | ⟨x, -, -, -, -, hr⟩
  · exact absurd hall hp
  · exact ⟨_, by simp only [store, hd, ha, hr, ne_eq, not_true, if_false]; rfl⟩

/-- Everything a store can answer. -/
theorem store_cases (s : State) (n : Size) (fmt : Fmt) (sp : BitVec 2) (b r : Reg) (o : Word) (nb : Option Word) :
    (∃ va, store s n fmt sp b r o nb = .fault (.dataTranslationFault va .write)) ∨
    (∃ off, off.toNat % n.bytes ≠ 0 ∧ store s n fmt sp b r o nb = .fault (.unalignedDataReference off)) ∨
    (∃ pa, store s n fmt sp b r o nb = .refused (.unmodelledAddressSpace pa)) ∨
    ∃ u, store s n fmt sp b r o nb = .next u := by
  cases hd : dataAddress s .write fmt sp (readGr s b) o with
  | error e =>
    obtain ⟨va, rfl⟩ := dataAddress_error hd
    exact .inl ⟨va, store_of_no_address hd⟩
  | ok p =>
    obtain ⟨off, pa⟩ := p
    right
    by_cases ha : off.toNat % n.bytes = 0
    · right
      by_cases hp : AllAllocated s pa.toNat n.bytes
      · exact .inr ⟨_, store_of_reaches ⟨hd, ha, hp⟩⟩
      · exact .inl (store_of_unallocated hd ha hp)
    · exact .inl ⟨off, ha, store_of_unaligned hd ha⟩

end Stores

/-! ### Stores of bytes -/

section StoreBytes

variable {s : State} {n : Size} {sp : BitVec 2} {b r : Reg} {c : BytesCmplt} {cc : BitVec 2} {im5 : BitVec 5}
  {off pa : Word}

/-- With an admitted hint a store bytes form that may not execute is refused before its address is formed (R104, R117). -/
theorem storeBytes_of_not_admitted (hh : HintAdmitted s cc)
    (h : s.params.storeBytesModelled = false ∨ (bytesModifies c = true ∧ s.params.runOpenForms = false)) :
    storeBytes s n sp b r c cc im5 = .refused .storeBytesNotModelled := by
  rw [storeBytes, if_neg (hint_passes hh), if_pos h]

theorem BytesAdmitted.passes (h : BytesAdmitted s c cc) :
    ¬ (cc ≠ 0#2 ∧ s.params.runOpenForms = false) ∧
    ¬ (s.params.storeBytesModelled = false ∨ (bytesModifies c = true ∧ s.params.runOpenForms = false)) := by
  obtain ⟨hh, hmodelled, hopen⟩ := h
  refine ⟨hint_passes hh, ?_⟩
  rintro (hno | ⟨hmod, hno⟩)
  · simp [hmodelled] at hno
  · simp [hopen hmod] at hno

/-- Address formation's fault is the instruction's, also where no byte would be stored (D20). -/
theorem storeBytes_of_no_address {e : Fault} (h : BytesAdmitted s c cc)
    (hd : dataAddress s .write .short sp (readGr s b) (addOffset (readGr s b) (lowSignExt5 im5)) = .error e) :
    storeBytes s n sp b r c cc im5 = .fault e := by
  simp only [storeBytes, if_neg h.passes.1, if_neg h.passes.2, hd]

theorem storeBytes_of_unallocated (h : BytesAdmitted s c cc)
    (hd : dataAddress s .write .short sp (readGr s b) (addOffset (readGr s b) (lowSignExt5 im5)) = .ok (off, pa))
    (hp : ¬ AllAllocated s (bytesStart n c off pa).toNat (bytesCount n c off)) :
    ∃ x, storeBytes s n sp b r c cc im5 = .refused (.unmodelledAddressSpace x) := by
  rcases memWrite_cases s (bytesStart n c off pa) (bytesCount n c off) (bytesData n c off (readGr s r)) with
    ⟨hall, -⟩ | ⟨x, -, -, -, -, hr⟩
  · exact absurd hall hp
  · exact ⟨_, by simp only [storeBytes, if_neg h.passes.1, if_neg h.passes.2, hd, hr]; rfl⟩

/-- Everything a store of bytes can answer: `UnalignedDataReference` is not among it. -/
theorem storeBytes_cases (s : State) (n : Size) (sp : BitVec 2) (b r : Reg) (c : BytesCmplt) (cc : BitVec 2)
    (im5 : BitVec 5) :
    storeBytes s n sp b r c cc im5 = .refused .cacheHintNotModelled ∨
    storeBytes s n sp b r c cc im5 = .refused .storeBytesNotModelled ∨
    (∃ va, storeBytes s n sp b r c cc im5 = .fault (.dataTranslationFault va .write)) ∨
    (∃ pa, storeBytes s n sp b r c cc im5 = .refused (.unmodelledAddressSpace pa)) ∨
    ∃ u, storeBytes s n sp b r c cc im5 = .next u := by
  by_cases hno : cc ≠ 0#2 ∧ s.params.runOpenForms = false
  · exact .inl (if_pos hno)
  right
  have hh : HintAdmitted s cc := by
    rwa [Decidable.not_and_iff_not_or_not, Decidable.not_not, Bool.not_eq_false] at hno
  by_cases hadm : s.params.storeBytesModelled = false ∨ (bytesModifies c = true ∧ s.params.runOpenForms = false)
  · exact .inl (storeBytes_of_not_admitted hh hadm)
  right
  have hadm : BytesAdmitted s c cc := by
    simp only [not_or, not_and, Bool.not_eq_false] at hadm
    exact ⟨hh, hadm⟩
  cases hd : dataAddress s .write .short sp (readGr s b) (addOffset (readGr s b) (lowSignExt5 im5)) with
  | error e =>
    obtain ⟨va, rfl⟩ := dataAddress_error hd
    exact .inl ⟨va, storeBytes_of_no_address hadm hd⟩
  | ok p =>
    obtain ⟨off, pa⟩ := p
    right
    by_cases hp : AllAllocated s (bytesStart n c off pa).toNat (bytesCount n c off)
    · exact .inr ⟨_, storeBytes_of_address hadm hd hp⟩
    · exact .inl (storeBytes_of_unallocated hadm hd hp)

end StoreBytes

end Sys2Proof.Machine
end

section
/-! Displacements as numbers (30_encoding.md R55 to R58): the sign bit weighs the top of its field negatively, and the other
bits count as they stand. -/

namespace Sys2Proof.Machine

open Sys2Proof

/-! ### The fields as signed numbers -/

theorem bit_toInt (i : BitVec 1) : i.toInt = -(i.toNat : Int) := by revert i; decide

/-- The three leading bits of a wide displacement as a signed number. -/
theorem wideTop_toInt (i : BitVec 1) (sp : BitVec 2) :
    (wideTop i sp).toInt =
      ((i.toNat + sp.toNat / 2) % 2 : Nat) * 2 + ((i.toNat + sp.toNat) % 2 : Nat) - (i.toNat : Int) * 4 := by
  revert i sp; decide

/-- A field of two parts, the upper one signed, and then sign-extended. -/
theorem toInt_signExtend_append {n m : Nat} (x : BitVec (n + 1)) (y : BitVec m) (h : n + 1 + m ≤ 64) :
    ((x ++ y).signExtend 64).toInt = 2 ^ m * x.toInt + y.toNat := by
  rw [BitVec.toInt_signExtend_of_le h, BitVec.toInt_append]
  simp

theorem lowSignExt5_toInt (f : BitVec 5) :
    (lowSignExt5 f).toInt = (f.toNat / 2 : Nat) - (f.toNat % 2 : Nat) * 2 ^ 4 := by
  have := f.isLt
  rw [lowSignExt5, toInt_signExtend_append (n := 0) _ _ (by norm_num), bit_toInt, toNat_extract, toNat_extract]
  omega

theorem lowSignExt14_toInt (f : BitVec 14) :
    (lowSignExt14 f).toInt = (f.toNat / 2 : Nat) - (f.toNat % 2 : Nat) * 2 ^ 13 := by
  have := f.isLt
  rw [lowSignExt14, toInt_signExtend_append (n := 0) _ _ (by norm_num), bit_toInt, toNat_extract, toNat_extract]
  omega

/-- Settles O10. -/
theorem lowSignExtensionValue : Obligations.LowSignExtensionValue := ⟨lowSignExt5_toInt, lowSignExt14_toInt⟩

/-- A scaled field: `k` zero bits below `m` bits below the sign (R58). -/
theorem toInt_signExtend_scaled {n m k : Nat} (x : BitVec (n + 1)) (y : BitVec m) (h : n + 1 + m + k ≤ 64) :
    ((x ++ y ++ 0#k).signExtend 64).toInt = (2 ^ m * x.toInt + y.toNat) * 2 ^ k := by
  rw [BitVec.toInt_signExtend_of_le h, BitVec.toInt_append, BitVec.toInt_append]
  simp [mul_comm]

theorem narrowL11_toInt (f : BitVec 11) (i : BitVec 1) :
    (narrowL11 f i).toInt = (f.toNat * 4 : Nat) - (i.toNat : Int) * 2 ^ 13 := by
  rw [narrowL11, toInt_signExtend_scaled (n := 0) _ _ (by norm_num), bit_toInt]
  omega

theorem narrowL10_toInt (f : BitVec 10) (i : BitVec 1) :
    (narrowL10 f i).toInt = (f.toNat * 8 : Nat) - (i.toNat : Int) * 2 ^ 13 := by
  rw [narrowL10, toInt_signExtend_scaled (n := 0) _ _ (by norm_num), bit_toInt]
  omega

/-! ### The default packing under PSW W-bit 1 (R57, R58; assumption 7) -/

theorem dispL14_wide_toInt (sp : BitVec 2) (f : BitVec 14) :
    (dispL14 .signXor true sp f).toInt =
      (f.toNat / 2 : Nat) + ((f.toNat + sp.toNat) % 2 : Nat) * 2 ^ 13
        + ((f.toNat + sp.toNat / 2) % 2 : Nat) * 2 ^ 14 - (f.toNat % 2 : Nat) * 2 ^ 15 := by
  have := f.isLt
  simp only [dispL14, if_true]
  rw [toInt_signExtend_append (n := 2) _ _ (by norm_num), wideTop_toInt, toNat_extract, toNat_extract]
  omega

theorem dispL11_wide_toInt (sp : BitVec 2) (f : BitVec 11) (i : BitVec 1) :
    (dispL11 .signXor true sp f i).toInt =
      (f.toNat * 4 : Nat) + ((i.toNat + sp.toNat) % 2 : Nat) * 2 ^ 13
        + ((i.toNat + sp.toNat / 2) % 2 : Nat) * 2 ^ 14 - (i.toNat : Int) * 2 ^ 15 := by
  simp only [dispL11, if_true]
  rw [toInt_signExtend_scaled (n := 2) _ _ (by norm_num), wideTop_toInt]
  omega

theorem dispL10_wide_toInt (sp : BitVec 2) (f : BitVec 10) (i : BitVec 1) :
    (dispL10 .signXor true sp f i).toInt =
      (f.toNat * 8 : Nat) + ((i.toNat + sp.toNat) % 2 : Nat) * 2 ^ 13
        + ((i.toNat + sp.toNat / 2) % 2 : Nat) * 2 ^ 14 - (i.toNat : Int) * 2 ^ 15 := by
  simp only [dispL10, if_true]
  rw [toInt_signExtend_scaled (n := 2) _ _ (by norm_num), wideTop_toInt]
  omega

/-- Settles O11: under W-bit 0 the narrow field, under W-bit 1 the default packing. -/
theorem longDisplacementValues : Obligations.LongDisplacementValues :=
  ⟨fun _ sp f => ⟨lowSignExt14_toInt f, dispL14_wide_toInt sp f⟩,
    fun _ sp f i => ⟨narrowL11_toInt f i, dispL11_wide_toInt sp f i⟩,
    fun _ sp f i => ⟨narrowL10_toInt f i, dispL10_wide_toInt sp f i⟩⟩

/-- Settles O12: with `s = 0` the two bits added by the default packing are copies of the sign, and any other packing is the
narrow field by its definition. -/
theorem narrowDisplacementsAgreeAcrossWidths : Obligations.NarrowDisplacementsAgreeAcrossWidths := by
  intro a
  cases a with
  | other => exact ⟨fun _ => rfl, fun _ _ => rfl, fun _ _ => rfl⟩
  | signXor =>
    refine ⟨fun f => BitVec.eq_of_toInt_eq ?_, fun f i => BitVec.eq_of_toInt_eq ?_, fun f i => BitVec.eq_of_toInt_eq ?_⟩
    · rw [dispL14_wide_toInt, (longDisplacementValues.1 .signXor 0#2 f).1]
      simp only [BitVec.toNat_ofNat]
      omega
    · rw [dispL11_wide_toInt, (longDisplacementValues.2.1 .signXor 0#2 f i).1]
      have := i.isLt
      simp only [BitVec.toNat_ofNat]
      omega
    · rw [dispL10_wide_toInt, (longDisplacementValues.2.2 .signXor 0#2 f i).1]
      have := i.isLt
      simp only [BitVec.toNat_ofNat]
      omega

/-! ### Every packing (R57, R58; D2) -/

/-- In every packing the sign weighs `-2^15` and the bits below it are a number of 15 bits. -/
theorem dispL14_toInt (a : Assembly) (w : Bool) (sp : BitVec 2) (f : BitVec 14) :
    ∃ y : Nat, y < 2 ^ 15 ∧ (dispL14 a w sp f).toInt = y - (f.toNat % 2 : Nat) * 2 ^ 15 := by
  have hf := f.isLt
  have hnarrow : ∃ y : Nat, y < 2 ^ 15 ∧ (lowSignExt14 f).toInt = y - (f.toNat % 2 : Nat) * 2 ^ 15 :=
    ⟨f.toNat / 2 + f.toNat % 2 * (2 ^ 15 - 2 ^ 13), by omega, by rw [lowSignExt14_toInt]; omega⟩
  cases w
  case false => exact hnarrow
  cases a
  case signXor =>
    exact ⟨f.toNat / 2 + (f.toNat + sp.toNat) % 2 * 2 ^ 13 + (f.toNat + sp.toNat / 2) % 2 * 2 ^ 14, by omega,
      by rw [dispL14_wide_toInt]; omega⟩
  case other =>
    by_cases hsp : sp = 0#2
    · simpa only [dispL14, hsp, if_true] using hnarrow
    · refine ⟨(Config.otherAssemble16 sp f).toNat, BitVec.isLt _, ?_⟩
      simp only [dispL14, hsp, if_true, if_false]
      rw [toInt_signExtend_append (n := 0) _ _ (by norm_num), bit_toInt, toNat_extract]
      omega

/-- In every packing the sign weighs `-2^15` and the bits below it are a number of words of 13 bits. -/
theorem dispL11_toInt (a : Assembly) (w : Bool) (sp : BitVec 2) (f : BitVec 11) (i : BitVec 1) :
    ∃ y : Nat, y < 2 ^ 13 ∧ (dispL11 a w sp f i).toInt = (y - (i.toNat : Int) * 2 ^ 13) * 4 := by
  have hf := f.isLt
  have hi := i.isLt
  have hnarrow : ∃ y : Nat, y < 2 ^ 13 ∧ (narrowL11 f i).toInt = (y - (i.toNat : Int) * 2 ^ 13) * 4 :=
    ⟨f.toNat + i.toNat * (2 ^ 13 - 2 ^ 11), by omega, by rw [narrowL11_toInt]; omega⟩
  cases w
  case false => exact hnarrow
  cases a
  case signXor =>
    exact ⟨f.toNat + (i.toNat + sp.toNat) % 2 * 2 ^ 11 + (i.toNat + sp.toNat / 2) % 2 * 2 ^ 12, by omega,
      by rw [dispL11_wide_toInt]; omega⟩
  case other =>
    by_cases hsp : sp = 0#2
    · simpa only [dispL11, hsp, if_true] using hnarrow
    · refine ⟨(Config.otherAssemble16aWord sp f i).toNat, BitVec.isLt _, ?_⟩
      simp only [dispL11, hsp, if_true, if_false]
      rw [toInt_signExtend_scaled (n := 0) _ _ (by norm_num), bit_toInt]
      omega

/-- In every packing the sign weighs `-2^15` and the bits below it are a number of doublewords of 12 bits. -/
theorem dispL10_toInt (a : Assembly) (w : Bool) (sp : BitVec 2) (f : BitVec 10) (i : BitVec 1) :
    ∃ y : Nat, y < 2 ^ 12 ∧ (dispL10 a w sp f i).toInt = (y - (i.toNat : Int) * 2 ^ 12) * 8 := by
  have hf := f.isLt
  have hi := i.isLt
  have hnarrow : ∃ y : Nat, y < 2 ^ 12 ∧ (narrowL10 f i).toInt = (y - (i.toNat : Int) * 2 ^ 12) * 8 :=
    ⟨f.toNat + i.toNat * (2 ^ 12 - 2 ^ 10), by omega, by rw [narrowL10_toInt]; omega⟩
  cases w
  case false => exact hnarrow
  cases a
  case signXor =>
    exact ⟨f.toNat + (i.toNat + sp.toNat) % 2 * 2 ^ 10 + (i.toNat + sp.toNat / 2) % 2 * 2 ^ 11, by omega,
      by rw [dispL10_wide_toInt]; omega⟩
  case other =>
    by_cases hsp : sp = 0#2
    · simpa only [dispL10, hsp, if_true] using hnarrow
    · refine ⟨(Config.otherAssemble16aDouble sp f i).toNat, BitVec.isLt _, ?_⟩
      simp only [dispL10, hsp, if_true, if_false]
      rw [toInt_signExtend_scaled (n := 0) _ _ (by norm_num), bit_toInt]
      omega

theorem bit_eq_one_iff (i : BitVec 1) : i = 1#1 ↔ i.toNat = 1 := by revert i; decide

/-- Settles O60: range, sign and scale read off the numbers above. -/
theorem everyPackingKeepsSignRangeAndScale : Obligations.EveryPackingKeepsSignRangeAndScale := by
  intro a w sp
  refine ⟨fun f => ?_, fun f i => ?_, fun f i => ?_⟩
  · obtain ⟨y, hy, hval⟩ := dispL14_toInt a w sp f
    rw [hval]
    omega
  · obtain ⟨y, hy, hval⟩ := dispL11_toInt a w sp f i
    have := i.isLt
    rw [hval, bit_eq_one_iff]
    omega
  · obtain ⟨y, hy, hval⟩ := dispL10_toInt a w sp f i
    have := i.isLt
    rw [hval, bit_eq_one_iff]
    omega

end Sys2Proof.Machine
end

section
/-! Address formation (20_memory.md R24 to R32, R36, R39, R44): the space register selected, the bits of an offset that reach
the address, and the physical addresses no absolute address reaches. -/

namespace Sys2Proof.Machine

open Sys2Proof

/-! ### Space selection (R25, R26) -/

theorem spaceSelect_explicit {w e : Bool} {fmt : Fmt} {sp : BitVec 2} (h : sp ≠ 0#2 ∧ explicitAllowed w e fmt = true)
    (base : Word) : (spaceSelect w e fmt sp base).toNat = sp.toNat := by
  rw [spaceSelect, if_pos h, BitVec.toNat_setWidth]
  omega

theorem spaceSelect_implicit {w e : Bool} {fmt : Fmt} {sp : BitVec 2}
    (h : ¬ (sp ≠ 0#2 ∧ explicitAllowed w e fmt = true)) (base : Word) :
    (spaceSelect w e fmt sp base).toNat =
      if w = true then 4 + base.toNat / 2 ^ 62 else 4 + base.toNat / 2 ^ 30 % 4 := by
  rw [spaceSelect, if_neg h, implicitSpace_toNat]

/-- A non-zero s-field names a long displacement's register under W-bit 0 only (R25). -/
theorem spaceSelect_long (w e : Bool) (sp : BitVec 2) (base : Word) :
    (spaceSelect w e .long sp base).toNat =
      if w = true then 4 + base.toNat / 2 ^ 62
      else if sp = 0#2 then 4 + base.toNat / 2 ^ 30 % 4 else sp.toNat := by
  cases w
  case true => rw [spaceSelect_implicit (by simp [explicitAllowed])]; rfl
  case false =>
    by_cases hsp : sp = 0#2
    · rw [spaceSelect_implicit (by simp [hsp]), if_pos hsp]
    · rw [spaceSelect_explicit ⟨hsp, rfl⟩, if_neg hsp]; rfl

/-- A non-zero s-field names the register of the other formats also under W-bit 1, where `EXPLICIT_SPACE_W1` is set (R26). -/
theorem spaceSelect_not_long {fmt : Fmt} (h : fmt ≠ .long) (w e : Bool) (sp : BitVec 2) (base : Word) :
    (spaceSelect w e fmt sp base).toNat =
      if sp ≠ 0#2 ∧ (w = false ∨ e = true) then sp.toNat
      else if w = true then 4 + base.toNat / 2 ^ 62 else 4 + base.toNat / 2 ^ 30 % 4 := by
  have hallowed : explicitAllowed w e fmt = true ↔ w = false ∨ e = true := by
    cases fmt <;> simp [explicitAllowed] at h ⊢
  by_cases hexp : sp ≠ 0#2 ∧ (w = false ∨ e = true)
  · rw [if_pos hexp, spaceSelect_explicit (by rwa [hallowed])]
  · rw [if_neg hexp, spaceSelect_implicit (by rwa [hallowed])]

/-- Settles O13: the register `spaceSelect` chooses, in the address formation of R24. -/
theorem longSpaceSelection : Obligations.LongSpaceSelection := by
  intro s k sp base o
  refine ⟨fun ht => ⟨spaceSelect s.pswW s.params.explicitSpaceW1 .long sp base, spaceSelect_long .., ?_⟩,
    fun ht => dataAddress_disabled k .long sp base o ht⟩
  exact dataAddress_enabled s k .long sp base o ht

/-- Settles O14: as for long displacements, with the choice of R26, which never is register 0. -/
theorem shortAndIndexedSpaceSelection : Obligations.ShortAndIndexedSpaceSelection := by
  intro s k fmt sp base o hfmt ht
  have hn := spaceSelect_not_long hfmt s.pswW s.params.explicitSpaceW1 sp base
  refine ⟨spaceSelect s.pswW s.params.explicitSpaceW1 fmt sp base, hn, ?_, dataAddress_enabled s k fmt sp base o ht⟩
  have hsp : sp ≠ 0#2 → 1 ≤ sp.toNat := by bv_omega
  rw [hn]
  split_ifs with hexp
  · exact hsp hexp.1
  · omega
  · omega

/-! ### Physical addresses of absolute addresses (R36, R39, R40) -/

/-- What the numbers of the wide extension leave out, address space by address space. -/
theorem absToPhysW1_gaps (pdcBits : BitVec 2) (a : Word) :
    let p := (absToPhysW1 pdcBits a).toNat
    ¬ (0x3C00000000000000 ≤ p ∧ p ≤ 0xEFFFFFFFFFFFFFFF) ∧ ¬ (0xF100000000000000 ≤ p ∧ p ≤ 0xFC3FFFFFFFFFFFFF) ∧
      (p < 0x3C00000000000000 ↔ spaceOfW1 a = .memory) := by
  have hspace := spaceOfW1_eq a
  have hbits := pdcBits.isLt
  split_ifs at hspace with hpdc hio
  · simp only [absToPhysW1_toNat_of_pdc pdcBits hspace, hspace, reduceCtorEq, iff_false]
    omega
  · simp only [absToPhysW1_toNat_of_io pdcBits hspace, hspace, reduceCtorEq, iff_false]
    omega
  · simp only [absToPhysW1_toNat_of_memory pdcBits hspace, hspace, iff_true]
    omega

/-- What the numbers of the narrow extension leave out, address space by address space. -/
theorem absToPhysW0_gaps (pdcBits : BitVec 32) (a : Word) :
    let p := (absToPhysW0 pdcBits a).toNat
    ¬ (0x3C00000000000000 ≤ p ∧ p ≤ 0xEFFFFFFFFFFFFFFF) ∧ ¬ (0xF100000000000000 ≤ p ∧ p ≤ 0xFC3FFFFFFFFFFFFF) ∧
      (p < 0x3C00000000000000 ↔ spaceOfW0 a = .memory) := by
  have hspace := spaceOfW0_eq a
  have hbits := pdcBits.isLt
  split_ifs at hspace with hpdc hio
  · simp only [absToPhysW0_toNat_of_pdc pdcBits hspace, hspace, reduceCtorEq, iff_false]
    omega
  · simp only [absToPhysW0_toNat_of_io pdcBits hspace, hspace, reduceCtorEq, iff_false]
    omega
  · simp only [absToPhysW0_toNat_of_memory pdcBits hspace, hspace, iff_true]
    omega

/-- Settles O18. -/
theorem absoluteAddressesMissTheGaps : Obligations.AbsoluteAddressesMissTheGaps :=
  fun p1 p0 a => ⟨absToPhysW1_gaps p1 a, absToPhysW0_gaps p0 a⟩

/-! ### Virtual addresses (R30, R31) -/

/-- Settles O19. -/
theorem virtualAddressBits : Obligations.VirtualAddressBits :=
  ⟨vaCombine_testBit, vaCombine_nil, vaCombine_default_testBit⟩

/-! ### The low bits of an address (R44; D4) -/

theorem absToPhys_low (w : Bool) (a : Word) : (absToPhys w a).toNat % 8 = a.toNat % 8 := by
  cases w
  case true =>
    have hwide := absoluteToPhysicalWide Config.pdcBitsW1 a
    change (absToPhysW1 Config.pdcBitsW1 a).toNat % 8 = _
    rw [hwide]
    split_ifs <;> omega
  case false =>
    have hnarrow := absoluteToPhysicalNarrow Config.pdcBitsW0 a
    change (absToPhysW0 Config.pdcBitsW0 a).toNat % 8 = _
    rw [hnarrow]
    split_ifs <;> omega

/-- Everything an address formed implies: its offset is the narrowed one, and the physical address has its low bits. -/
theorem dataAddress_ok {s : State} {k : Access} {fmt : Fmt} {sp : BitVec 2} {base o off pa : Word}
    (h : dataAddress s k fmt sp base o = .ok (off, pa)) :
    off = narrowOffset s.pswW o ∧ pa.toNat % 8 = off.toNat % 8 := by
  cases ht : s.dataTranslation with
  | false =>
    rw [dataAddress_disabled k fmt sp base o ht, Except.ok.injEq, Prod.mk.injEq] at h
    obtain ⟨rfl, rfl⟩ := h
    exact ⟨rfl, absToPhys_low ..⟩
  | true =>
    rw [dataAddress_enabled s k fmt sp base o ht] at h
    split at h
    · rename_i hva
      rw [Except.ok.injEq, Prod.mk.injEq] at h
      obtain ⟨rfl, rfl⟩ := h
      exact ⟨rfl, translateVa_low hva⟩
    · cases h

/-- Settles O20: the physical address has the low bits of the narrowed offset, which narrowing kept. -/
theorem addressFormationKeepsLowBits : Obligations.AddressFormationKeepsLowBits := by
  intro s k fmt sp base o off pa h
  obtain ⟨rfl, hlow⟩ := dataAddress_ok h
  refine ⟨hlow, ?_⟩
  rw [narrowOffset_toNat]
  split_ifs
  · rfl
  · omega

/-! ### 32-bit programs (R25, R29) -/

theorem toNat_mod_of_setWidth_eq {x y : Word} (h : x.setWidth 32 = y.setWidth 32) : x.toNat % 2 ^ 32 = y.toNat % 2 ^ 32 := by
  have h := congrArg BitVec.toNat h
  simpa only [BitVec.toNat_setWidth] using h

theorem narrowOffset_congr {o o' : Word} (h : o.setWidth 32 = o'.setWidth 32) :
    narrowOffset false o = narrowOffset false o' := by
  apply BitVec.eq_of_toNat_eq
  simpa only [narrowOffset_toNat, Bool.false_eq_true, if_false] using toNat_mod_of_setWidth_eq h

/-- Bits 32..33 of the base choose an implicit pointer of a 32-bit program, so its upper half is not read (R25). -/
theorem spaceSelect_congr {base base' : Word} (h : base.setWidth 32 = base'.setWidth 32) (e : Bool) (fmt : Fmt)
    (sp : BitVec 2) : spaceSelect false e fmt sp base = spaceSelect false e fmt sp base' := by
  have hlow := toNat_mod_of_setWidth_eq h
  have himplicit : implicitSpace false base = implicitSpace false base' := by
    apply BitVec.eq_of_toNat_eq
    simp only [implicitSpace_toNat, Bool.false_eq_true, if_false]
    omega
  simp only [spaceSelect, himplicit]

/-- Settles O21: base and offset reach the address by the space selected and the narrowed offset only. -/
theorem upperHalfNeverReachesNarrowAddress : Obligations.UpperHalfNeverReachesNarrowAddress := by
  intro s k fmt sp base base' o o' hw hbase ho
  refine ⟨?_, fun off pa h => ?_⟩
  · simp only [dataAddress, dataVa, hw, narrowOffset_congr ho, spaceSelect_congr hbase]
  · obtain ⟨rfl, -⟩ := dataAddress_ok h
    rw [narrowOffset_toNat, hw]
    rfl

end Sys2Proof.Machine
end

section
/-! Registers and memory (10_state.md R11; 20_memory.md R41, R43, R74): what a completed write leaves to be read, and when an
access is refused. -/

namespace Sys2Proof.Machine

open Sys2Proof Sys2Proof.Safety

/-- Settles O22. -/
theorem registerFileLaws : Obligations.RegisterFileLaws :=
  fun s i j v => ⟨readGr_zero s, rfl, readGr_writeGr_same s i v, readGr_writeGr_other s i j v⟩

/-! ### What a write leaves to be read -/

/-- Everything a completed write implies. -/
theorem memWrite_next {s u : State} {pa : Word} {n : Nat} {v : Word} (h : memWrite s pa n v = .ok u) :
    AllAllocated s pa.toNat n ∧ u = { s with mem := writeBytes s.mem pa.toNat n v } := by
  rcases memWrite_cases s pa n v with ⟨hall, hw⟩ | ⟨x, -, -, -, -, hw⟩
  · exact ⟨hall, Except.ok.inj (h.symm.trans hw)⟩
  · cases h.symm.trans hw

/-- Settles O23: byte by byte after `writeBytes`. -/
theorem storedBytesAreBigEndian : Obligations.StoredBytesAreBigEndian := by
  intro s u pa n v h
  obtain ⟨-, rfl⟩ := memWrite_next h
  refine ⟨fun j hj => ?_, fun a ha => lookupByte_writeBytes_outside s.mem v ha, rfl⟩
  rw [lookupByte_writeBytes, if_pos (by omega), Nat.add_sub_cancel_left]

/-- Bytes written and read back spell the low-order bytes of the value. -/
theorem bigEndian_writeBytes (m : List Host.Cell) (a n : Nat) (v : Word) :
    bigEndian (writeBytes m a n v) a n = v.toNat % 2 ^ (8 * n) := by
  induction n generalizing v with
  | zero => simp [bigEndian, Nat.mod_one]
  | succ n ih =>
    have hhigh : bigEndian (writeBytes m a (n + 1) v) a n = bigEndian (writeBytes m a n (v >>> 8)) a n :=
      bigEndian_congr fun j hj => by rw [writeBytes, lookupByte_storeByte, if_neg (by omega)]
    have hlow : lookupByte (writeBytes m a (n + 1) v) (a + n) = v.setWidth 8 := by
      rw [writeBytes, lookupByte_storeByte, if_pos rfl]
    rw [bigEndian, hhigh, hlow, ih, BitVec.toNat_setWidth, BitVec.toNat_ushiftRight, Nat.shiftRight_eq_div_pow,
      show 2 ^ (8 * (n + 1)) = 2 ^ 8 * 2 ^ (8 * n) by rw [← pow_add]; ring_nf, Nat.mod_mul]
    ring

/-- A read of up to 8 bytes depends on the bytes it reads only. -/
theorem readBytes_congr {m m' : List Host.Cell} {a n : Nat} (hn : n ≤ 8)
    (h : ∀ j, j < n → lookupByte m' (a + j) = lookupByte m (a + j)) : readBytes m' a n = readBytes m a n := by
  apply BitVec.eq_of_toNat_eq
  rw [readBytes_toNat _ _ _ hn, readBytes_toNat _ _ _ hn, bigEndian_congr h]

/-- Settles O24: a read of the bytes written spells them, and a read of other bytes sees neither them nor, in the allocation,
any change. -/
theorem readAfterWrite : Obligations.ReadAfterWrite := by
  intro s u pa n v hn h
  obtain ⟨hall, rfl⟩ := memWrite_next h
  refine ⟨⟨_, memRead_ok hall, ?_⟩, fun pa' m hm hdisj => ?_⟩
  · rw [readBytes_toNat _ _ _ hn]
    exact bigEndian_writeBytes ..
  · have hsame : readBytes (writeBytes s.mem pa.toNat n v) pa'.toNat m = readBytes s.mem pa'.toNat m :=
      readBytes_congr hm fun j hj => lookupByte_writeBytes_outside _ _ (by omega)
    simp only [memRead, hsame]

/-! ### Refused accesses -/

theorem memRead_of_missing {s : State} {pa : Word} {n x : Nat} (h : firstUnallocated s.alloc pa.toNat n = some x) :
    memRead s pa n = .error (.unmodelledAddressSpace (BitVec.ofNat 64 x)) := by
  simp only [memRead, h]

theorem memWrite_of_missing {s : State} {pa : Word} {n x : Nat} (v : Word)
    (h : firstUnallocated s.alloc pa.toNat n = some x) :
    memWrite s pa n v = .error (.unmodelledAddressSpace (BitVec.ofNat 64 x)) := by
  simp only [memWrite, h]

/-- Settles O25: read and write are refused at the same first missing byte, and complete where none is missing. -/
theorem unallocatedBytesRefuseTheAccess : Obligations.UnallocatedBytesRefuseTheAccess := by
  intro s pa n v hfit
  refine ⟨fun hmiss => ?_, fun hall => ⟨⟨_, memRead_ok hall⟩, _, memWrite_ok v hall⟩⟩
  cases hfirst : firstUnallocated s.alloc pa.toNat n with
  | none => exact absurd ((firstUnallocated_eq_none ..).mp hfirst) hmiss
  | some x =>
    obtain ⟨hge, hlt, hun, -⟩ := firstUnallocated_eq_some hfirst
    have hx : (BitVec.ofNat 64 x).toNat = x := by rw [BitVec.toNat_ofNat, Nat.mod_eq_of_lt (by omega)]
    refine ⟨BitVec.ofNat 64 x, ?_, ?_, ?_, memRead_of_missing hfirst, memWrite_of_missing v hfirst⟩
    · rwa [hx]
    · rwa [hx]
    · rwa [hx]

/-- An access whose first byte is not allocated is refused there. -/
theorem firstUnallocated_first {regions : List Region} {a n : Nat} (h : allocated regions a = false) (hn : 0 < n) :
    firstUnallocated regions a n = some a := by
  cases hfirst : firstUnallocated regions a n with
  | none =>
    have ha := (firstUnallocated_eq_none ..).mp hfirst 0 hn
    simp [h] at ha
  | some x =>
    obtain ⟨hge, -, -, hbefore⟩ := firstUnallocated_eq_some hfirst
    by_cases hx : x = a
    · rw [hx]
    · have ha := hbefore a le_rfl (by omega)
      simp [h] at ha

/-- No launch allocates an address past the Memory Address Space (R41; assumption 31). -/
theorem allocated_of_memorySpaceEnd_le {regions : List Region} {a : Nat} (h : memorySpaceEnd ≤ a) :
    allocated regions a = false := by
  simp [allocated, Nat.not_lt.mpr h]

/-- An absolute address of the I/O or the PDC Address Space is extended past the Memory Address Space (R40). -/
theorem memorySpaceEnd_le_absToPhys {w : Bool} {a : Word}
    (h : (if w = true then spaceOfW1 a else spaceOfW0 a) ≠ .memory) : memorySpaceEnd ≤ (absToPhys w a).toNat := by
  cases w
  case true => exact Nat.le_of_not_lt fun hlt => h ((absToPhysW1_gaps Config.pdcBitsW1 a).2.2.mp hlt)
  case false => exact Nat.le_of_not_lt fun hlt => h ((absToPhysW0_gaps Config.pdcBitsW0 a).2.2.mp hlt)

/-- Settles O26: the first byte of such an access lies past the Memory Address Space. -/
theorem ioAndPdcAccessesRefused : Obligations.IoAndPdcAccessesRefused := by
  intro s k fmt sp base o off pa v n ht hd hspace hn
  rw [dataAddress_disabled k fmt sp base o ht, Except.ok.injEq, Prod.mk.injEq] at hd
  obtain ⟨rfl, rfl⟩ := hd
  have hfirst := firstUnallocated_first (regions := s.alloc)
    (allocated_of_memorySpaceEnd_le (memorySpaceEnd_le_absToPhys hspace)) hn
  have hpa : BitVec.ofNat 64 (absToPhys s.pswW (narrowOffset s.pswW o)).toNat =
      absToPhys s.pswW (narrowOffset s.pswW o) := BitVec.ofNat_toNat .. |>.trans (BitVec.setWidth_eq _)
  exact ⟨by rw [memRead_of_missing hfirst, hpa], by rw [memWrite_of_missing v hfirst, hpa]⟩

end Sys2Proof.Machine
end

section
/-! What the loads and the ordinary stores do (40_long_displacement.md, 41_short_displacement.md, 43_indexed.md): each family
is `load` or `store` with its offset and its new base, so what these leave is what the family leaves. -/

namespace Sys2Proof.Machine

open Sys2Proof Sys2Proof.Safety

/-! ### They complete -/

/-- Settles O27. -/
theorem longLoadsComplete : Obligations.LongLoadsComplete := by
  intro i s f off pa hf hmod hr
  obtain ⟨u, hu, htarget, hbase, hframe⟩ := load_completes hr (t := f.other)
    (nb := if f.mod = .none then none else some (readGr s f.b + f.d))
    (fun hsome => hmod.resolve_left fun hno => by simp [hno] at hsome)
  refine ⟨u, (exec_longLoad_eq hf).trans hu, htarget, fun h0 hne => ?_, hframe⟩
  rw [hbase h0 hne]
  split_ifs <;> rfl

/-- Settles O28. -/
theorem longStoresComplete : Obligations.LongStoresComplete := by
  intro i s f off pa hf hr
  obtain ⟨u, hu, hstored, hother, hbase, hframe⟩ := store_completes hr (r := f.other)
    (nb := if f.mod = .none then none else some (readGr s f.b + f.d))
  refine ⟨u, (exec_longStore_eq hf).trans hu, hstored, hother, fun h0 => ?_, hframe⟩
  rw [hbase h0]
  split_ifs <;> rfl

/-- Settles O29. -/
theorem shortLoadsComplete : Obligations.ShortLoadsComplete := by
  intro i s f off pa hf hh hmod hr
  obtain ⟨u, hu, htarget, hbase, hframe⟩ := load_completes hr (t := f.other)
    (nb := if f.modifies then some (readGr s f.b + lowSignExt5 f.im5) else none)
    (fun hsome => hmod (by by_contra hno; simp [hno] at hsome))
  refine ⟨u, (exec_shortLoad_eq hf hh).trans hu, htarget, fun h0 hne => ?_, hframe⟩
  rw [hbase h0 hne]
  split_ifs <;> rfl

/-- Settles O30. -/
theorem shortStoresComplete : Obligations.ShortStoresComplete := by
  intro i s f off pa hf hh hr
  obtain ⟨u, hu, hstored, hother, hbase, hframe⟩ := store_completes hr (r := f.other)
    (nb := if f.modifies then some (readGr s f.b + lowSignExt5 f.im5) else none)
  refine ⟨u, (exec_shortStore_eq hf hh).trans hu, hstored, hother, fun h0 => ?_, hframe⟩
  rw [hbase h0]
  split_ifs <;> rfl

/-- Settles O31. -/
theorem indexedLoadsComplete : Obligations.IndexedLoadsComplete := by
  intro i s f off pa hf hh hmod hr
  obtain ⟨u, hu, htarget, hbase, hframe⟩ := load_completes hr (t := f.t)
    (nb := if f.modifies then some (readGr s f.b + f.index s) else none)
    (fun hsome => hmod (by by_contra hno; simp [hno] at hsome))
  refine ⟨u, (exec_indexed_eq hf hh).trans hu, htarget, fun h0 hne => ?_, hframe⟩
  rw [hbase h0 hne]
  split_ifs <;> rfl

/-- A free value in a base register and nothing else but the pc and the counter (assumption 3). -/
theorem advance_writeFreeBase_effect (s : State) (b : Reg) :
    let u := advance (writeFreeBase s b)
    (b ≠ 0#5 → readGr u b = Config.freeBase s.freeCount) ∧ (∀ g, g ≠ b → readGr u g = readGr s g) ∧
      u.mem = s.mem ∧ u.pc = s.pc + 4#64 ∧ u.freeCount = s.freeCount + 1 ∧ SameLaunch s u := by
  refine ⟨fun h0 => ?_, fun g hg => ?_, by simp, by simp, by simp, by constructor <;> simp⟩
  · rw [readGr_advance, readGr_writeFreeBase, readGr_writeGr_same _ _ _ h0]
  · rw [readGr_advance, readGr_writeFreeBase, readGr_writeGr_other _ _ _ _ hg]

/-- Settles O34: in each family the load with `t = b` and a new base is `load_same_completes`. -/
theorem sameRegisterLoadsComplete : Obligations.SameRegisterLoadsComplete := by
  intro i s b off pa hopen hform
  refine ⟨advance (writeFreeBase s b), ?_, advance_writeFreeBase_effect s b⟩
  rcases hform with ⟨f, hf, rfl, ht, hmod, hr⟩ | ⟨f, hf, rfl, ht, hmod, hr⟩ | ⟨f, hf, rfl, ht, hmod, hr⟩
  · rw [exec_longLoad_eq hf, ht, if_neg hmod]
    exact load_same_completes hr hopen
  · rw [exec_shortLoad_eq hf (.inr hopen), ht, if_pos hmod]
    exact load_same_completes hr hopen
  · rw [exec_indexed_eq hf (.inr hopen), ht, if_pos hmod]
    exact load_same_completes hr hopen

/-! ### The ordered completer (R46; D10) -/

/-- With displacement 0 the ordered form addresses the sum the plain form addresses, and writes no base either. -/
theorem shortOffset_ordered (base : Word) :
    shortOffset .o base (addOffset base (lowSignExt5 0)) = shortOffset .plain base (addOffset base (lowSignExt5 0)) := by
  have hzero : lowSignExt5 0 = 0#64 := by decide
  simp only [shortOffset, addOffset, hzero]
  exact (BitVec.add_zero base).symm

theorem shortLoad_ordered (s : State) (n : Size) (b t : Reg) (sp cc : BitVec 2) :
    shortLoad s n b t sp .o cc 0 = shortLoad s n b t sp .plain cc 0 := by
  simp only [shortLoad, shortOffset_ordered]
  rfl

theorem shortStore_ordered (s : State) (n : Size) (b r : Reg) (sp cc : BitVec 2) :
    shortStore s n b r sp .o cc 0 = shortStore s n b r sp .plain cc 0 := by
  simp only [shortStore, shortOffset_ordered]
  rfl

/-- Settles O35. -/
theorem orderedAccessIsPlainAccess : Obligations.OrderedAccessIsPlainAccess :=
  fun s b x sp cc =>
    ⟨shortLoad_ordered s .byte b x sp cc, shortLoad_ordered s .half b x sp cc, shortLoad_ordered s .word b x sp cc,
      shortLoad_ordered s .double b x sp cc, shortStore_ordered s .byte b x sp cc, shortStore_ordered s .half b x sp cc,
      shortStore_ordered s .word b x sp cc, shortStore_ordered s .double b x sp cc⟩

/-! ### Their frames -/

/-- The frame of a load, from the state `load_next` says it leaves. -/
theorem load_frame {s u : State} {n : Size} {fmt : Fmt} {sp : BitVec 2} {b t : Reg} {o : Word} {nb : Option Word}
    {modifies : Prop} (h : load s n fmt sp b t o nb = .next u) (hm : nb.isSome = true ↔ modifies) :
    LoadFrame s u b t modifies := by
  obtain ⟨off, pa, -, -, rfl⟩ := load_next h
  exact {
    registers := fun g ht hb => readGr_finishLoad_other _ _ _ _ _ _ ht fun hsome => hb (hm.mp hsome)
    memory := fun a => by rw [finishLoad_mem]
    pc := finishLoad_pc ..
    launch := sameLaunch_finishLoad ..
    free := fun hno => by
      rw [finishLoad_freeCount]
      exact if_neg fun hyes => hno (hyes.imp_left hm.mp) }

/-- Settles O36: family by family, `load_frame` with the completer's modification. -/
theorem loadsKeepTheirFrame : Obligations.LoadsKeepTheirFrame := by
  intro i s u h
  refine ⟨fun f hf => ?_, fun f hf => ?_, fun f hf => ?_⟩
  · rw [exec_longLoad_eq hf] at h
    exact load_frame h (by split_ifs <;> simp [*])
  · rw [exec_shortLoad_eq hf (hintAdmitted_of_next (hintOf_shortLoad hf) h)] at h
    exact load_frame h (by split_ifs <;> simp [*])
  · rw [exec_indexed_eq hf (hintAdmitted_of_next (hintOf_indexed hf) h)] at h
    exact load_frame h (by split_ifs <;> simp [*])

/-- The frame of a store, from the state `store_next` says it leaves. -/
theorem store_frame {s u : State} {n : Size} {fmt : Fmt} {sp : BitVec 2} {b r : Reg} {o off pa : Word}
    {nb : Option Word} {modifies : Prop} (h : store s n fmt sp b r o nb = .next u)
    (hd : dataAddress s .write fmt sp (readGr s b) o = .ok (off, pa)) (hm : nb.isSome = true ↔ modifies) :
    StoreFrame s u b modifies pa n.bytes := by
  obtain ⟨off', pa', hr, rfl⟩ := store_next h
  obtain ⟨rfl, rfl⟩ : off' = off ∧ pa' = pa := by simpa using hr.address.symm.trans hd
  exact {
    registers := fun g hb => by
      rw [readGr_advance, readGr_writeBase]
      cases nb with
      | none => exact ite_self _
      | some x => exact if_neg fun hg => hb (hm.mp rfl) hg.1
    memory := fun a ha => by
      rw [advance_mem, writeBase_mem]
      exact lookupByte_writeBytes_outside _ _ ha
    pc := by simp
    launch := by constructor <;> simp
    free := by simp }

/-- Settles O37: family by family, `store_frame` with the completer's modification. -/
theorem storesKeepTheirFrame : Obligations.StoresKeepTheirFrame := by
  intro i s u off pa h
  refine ⟨fun f hf hd => ?_, fun f hf hd => ?_⟩
  · rw [exec_longStore_eq hf] at h
    exact store_frame h hd (by split_ifs <;> simp [*])
  · rw [exec_shortStore_eq hf (hintAdmitted_of_next (hintOf_shortStore hf) h)] at h
    exact store_frame h hd (by split_ifs <;> simp [*])

end Sys2Proof.Machine
end

section
/-! STBY and STDBY (42_store_bytes.md R105, R106; assumption 18): the bytes stored are a part of the word or doubleword that
holds the effective byte, each in its own place. -/

namespace Sys2Proof.Machine

open Sys2Proof Sys2Proof.Safety

section Lanes

variable {f : BytesForm} {s : State} {off pa : Word}

/-- The word or doubleword of the effective byte does not begin below address 0: the physical address has the low bits of the
offset. -/
theorem position_le_and_lt (hlow : pa.toNat % 8 = off.toNat % 8) :
    f.position off ≤ pa.toNat ∧ f.position off < f.size.bytes := by
  unfold BytesForm.position
  cases f.size <;> simp only [Size.bytes] <;> omega

theorem bytesCount_eq (f : BytesForm) (off : Word) :
    bytesCount f.size f.c off = if f.ending then f.position off else f.size.bytes - f.position off := by
  simp only [bytesCount, bytesEnding_iff]
  rfl

theorem bytesStart_toNat (hlow : pa.toNat % 8 = off.toNat % 8) :
    (bytesStart f.size f.c off pa).toNat = if f.ending then pa.toNat - f.position off else pa.toNat := by
  obtain ⟨hle, -⟩ := position_le_and_lt (f := f) hlow
  have hpa := pa.isLt
  simp only [bytesStart, bytesEnding_iff]
  split_ifs
  · change (pa - BitVec.ofNat 64 (f.position off)).toNat = _
    rw [BitVec.toNat_sub_of_le (by rw [BitVec.le_def, BitVec.toNat_ofNat]; omega), BitVec.toNat_ofNat]
    omega
  · rfl

/-- The addresses stored to are those of the bytes the form stores (R105, R106). -/
theorem stores_iff (hlow : pa.toNat % 8 = off.toNat % 8) (j : Nat) :
    f.stores off j ↔
      (bytesStart f.size f.c off pa).toNat ≤ pa.toNat - f.position off + j ∧
      pa.toNat - f.position off + j < (bytesStart f.size f.c off pa).toNat + bytesCount f.size f.c off := by
  obtain ⟨hle, hlt⟩ := position_le_and_lt (f := f) hlow
  rw [bytesStart_toNat hlow, bytesCount_eq, BytesForm.stores]
  split_ifs <;> omega

/-- The bytes to be stored are allocated when each byte the form stores is. -/
theorem allAllocated_iff_stores (hlow : pa.toNat % 8 = off.toNat % 8) :
    AllAllocated s (bytesStart f.size f.c off pa).toNat (bytesCount f.size f.c off) ↔
      ∀ j, f.stores off j → allocated s.alloc (pa.toNat - f.position off + j) = true := by
  obtain ⟨hle, -⟩ := position_le_and_lt (f := f) hlow
  have hstart : pa.toNat - f.position off ≤ (bytesStart f.size f.c off pa).toNat := by
    rw [bytesStart_toNat hlow]; split_ifs <;> omega
  constructor
  · intro hall j hj
    obtain ⟨hge, hlt⟩ := (stores_iff hlow j).mp hj
    have hbyte := hall (pa.toNat - f.position off + j - (bytesStart f.size f.c off pa).toNat) (by omega)
    rwa [Nat.add_sub_cancel' hge] at hbyte
  · intro hall j hj
    have hadd : pa.toNat - f.position off +
        ((bytesStart f.size f.c off pa).toNat + j - (pa.toNat - f.position off)) =
        (bytesStart f.size f.c off pa).toNat + j := by omega
    have hbyte := hall _ ((stores_iff hlow _).mpr (by rw [hadd]; omega))
    rwa [hadd] at hbyte

/-- Memory after a store bytes form. -/
def BytesForm.written (f : BytesForm) (s : State) (off pa : Word) : List Host.Cell :=
  writeBytes s.mem (bytesStart f.size f.c off pa).toNat (bytesCount f.size f.c off)
    (bytesData f.size f.c off (readGr s f.r))

/-- A byte stored is the byte of the source at the same place of the word or doubleword (R105, R106). -/
theorem byteOf_bytesData {j : Nat} (hj : f.stores off j) (v : Word) :
    byteOf (bytesCount f.size f.c off) (if f.ending then j else j - f.position off) (bytesData f.size f.c off v) =
      byteOf f.size.bytes j v := by
  obtain ⟨hlt, hplace⟩ := hj
  rw [bytesCount_eq]
  simp only [bytesData, bytesEnding_iff]
  split_ifs at hplace ⊢
  · have hk : f.position off < f.size.bytes := Nat.mod_lt _ (size_bytes_pos f.size)
    unfold byteOf
    ext k hk8
    simp only [BitVec.getElem_extractLsb', BitVec.getLsbD_ushiftRight]
    congr 1
    change 8 * (f.size.bytes - f.position off) + _ = _
    omega
  · unfold byteOf
    congr 1
    omega

theorem lookupByte_written (hlow : pa.toNat % 8 = off.toNat % 8) {j : Nat} (hj : f.stores off j) :
    lookupByte (BytesForm.written f s off pa) (pa.toNat - f.position off + j) = byteOf f.size.bytes j (readGr s f.r) := by
  obtain ⟨hle, -⟩ := position_le_and_lt (f := f) hlow
  rw [BytesForm.written, lookupByte_writeBytes, if_pos ((stores_iff hlow j).mp hj), ← byteOf_bytesData hj]
  congr 1
  rw [bytesStart_toNat hlow]
  split_ifs <;> omega

theorem lookupByte_written_other (hlow : pa.toNat % 8 = off.toNat % 8) {a : Nat}
    (ha : ∀ j, f.stores off j → a ≠ pa.toNat - f.position off + j) :
    lookupByte (BytesForm.written f s off pa) a = lookupByte s.mem a := by
  apply lookupByte_writeBytes_outside
  by_contra hin
  have hstart : pa.toNat - f.position off ≤ (bytesStart f.size f.c off pa).toNat := by
    rw [bytesStart_toNat hlow]; split_ifs <;> omega
  have hadd : pa.toNat - f.position off + (a - (pa.toNat - f.position off)) = a := by omega
  exact ha _ ((stores_iff hlow _).mpr (by rw [hadd]; omega)) hadd.symm

/-- An address formed for a store bytes form has the low bits of its offset. -/
theorem addresses_low (h : f.addresses s off pa) : pa.toNat % 8 = off.toNat % 8 := (dataAddress_ok h).2

end Lanes

/-! ### They complete -/

/-- A store bytes form that may execute completes, in either case (R105, R106). -/
theorem exec_storeBytes_of_addresses {i : Instr} {s : State} {f : BytesForm} {off pa : Word} (hf : bytesForm i = some f)
    (hadm : BytesAdmitted s f.c f.cc) (haddr : f.addresses s off pa)
    (hall : ∀ j, f.stores off j → allocated s.alloc (pa.toNat - f.position off + j) = true) :
    exec i s = .next (advance (if f.modifies then writeFreeBase { s with mem := BytesForm.written f s off pa } f.b
      else { s with mem := BytesForm.written f s off pa })) := by
  rw [exec_storeBytes hf, storeBytes_of_address hadm haddr ((allAllocated_iff_stores (addresses_low haddr)).mpr hall)]
  simp only [bytesModifies_iff]
  rfl

/-- Settles O32. -/
theorem storeBytesComplete : Obligations.StoreBytesComplete := by
  intro i s f off pa hf hh hmodelled hmod haddr hall
  have hlow := addresses_low haddr
  have hexec := exec_storeBytes_of_addresses hf
    ⟨hh, hmodelled, fun hyes => absurd ((bytesModifies_iff f).mp hyes) hmod⟩ haddr hall
  rw [if_neg hmod] at hexec
  exact ⟨_, hexec, fun j hj => lookupByte_written hlow hj, fun a ha => lookupByte_written_other hlow ha, fun _ => rfl,
    rfl, rfl, by constructor <;> rfl⟩

/-- Settles O33. -/
theorem storeBytesModifyComplete : Obligations.StoreBytesModifyComplete := by
  intro i s f off pa hf hmodelled hopen hmod haddr hall
  have hlow := addresses_low haddr
  have hexec := exec_storeBytes_of_addresses hf ⟨.inr hopen, hmodelled, fun _ => hopen⟩ haddr hall
  rw [if_pos hmod] at hexec
  obtain ⟨hbase, hother, hmem, hpc, hfree, hlaunch⟩ :=
    advance_writeFreeBase_effect { s with mem := BytesForm.written f s off pa } f.b
  refine ⟨_, hexec, fun j hj => ?_, fun a ha => ?_, hbase, hother, hpc, hfree, ?_⟩
  · rw [hmem]; exact lookupByte_written hlow hj
  · rw [hmem]; exact lookupByte_written_other hlow ha
  · exact ⟨hlaunch.sr, hlaunch.pswW, hlaunch.dataTranslation, hlaunch.text, hlaunch.alloc, hlaunch.params⟩

/-! ### Their frame -/

/-- Everything a completed store bytes form implies. -/
theorem exec_storeBytes_next {i : Instr} {s u : State} {f : BytesForm} {off pa : Word} (h : exec i s = .next u)
    (hf : bytesForm i = some f) (haddr : f.addresses s off pa) :
    u = advance (if f.modifies then writeFreeBase { s with mem := BytesForm.written f s off pa } f.b
      else { s with mem := BytesForm.written f s off pa }) := by
  rw [exec_storeBytes hf] at h
  obtain ⟨off', pa', -, hd, -, rfl⟩ := storeBytes_next h
  obtain ⟨rfl, rfl⟩ : off' = off ∧ pa' = pa := by simpa using hd.symm.trans haddr
  simp only [bytesModifies_iff]
  rfl

/-- Settles O38. -/
theorem storeBytesKeepTheirFrame : Obligations.StoreBytesKeepTheirFrame := by
  intro i s u f off pa h hf haddr
  have hlow := addresses_low haddr
  have hpc := exec_pc h
  have hlaunch := exec_sameLaunch h
  obtain rfl := exec_storeBytes_next h hf haddr
  refine ⟨fun a ha => ?_, fun g hg => ?_, hpc, hlaunch, fun hmod => by rw [if_neg hmod]; rfl⟩
  · have hmem := lookupByte_written_other (s := s) hlow ha
    split_ifs
    · simpa using hmem
    · exact hmem
  · split_ifs with hmod
    · rw [readGr_advance, readGr_writeFreeBase, readGr_writeGr_other _ _ _ _ (hg hmod)]
      rfl
    · rfl

end Sys2Proof.Machine
end

section
/-! Where the instructions of each family stop (60_exceptions.md R116, R117): the causes of the procedures, at the operands of
the family. -/

namespace Sys2Proof.Machine

open Sys2Proof Sys2Proof.Safety

/-! ### The causes of each family -/

/-- Settles O39: the offset is tested once the address is formed. -/
theorem unalignedAccessesFault : Obligations.UnalignedAccessesFault := by
  intro i s off pa
  refine ⟨fun f hf hadm hd ha => ?_, fun f hf hd ha => ?_, fun f hf hh hadm hd ha => ?_, fun f hf hh hd ha => ?_,
    fun f hf hh hadm hd ha => ?_⟩
  · rw [exec_longLoad_eq hf]; exact load_of_unaligned (loadAdmitted_none_of hadm) hd ha
  · rw [exec_longStore_eq hf]; exact store_of_unaligned hd ha
  · rw [exec_shortLoad_eq hf hh]; exact load_of_unaligned (loadAdmitted_some_of hadm) hd ha
  · rw [exec_shortStore_eq hf hh]; exact store_of_unaligned hd ha
  · rw [exec_indexed_eq hf hh]; exact load_of_unaligned (loadAdmitted_some_of hadm) hd ha

/-- A store bytes form that the launch lets execute, with its completer as the table has it (R62, R104). -/
theorem bytesAdmitted_of {s : State} {f : BytesForm} (hh : HintAdmitted s f.cc)
    (hmodelled : s.params.storeBytesModelled = true) (hopen : f.modifies → s.params.runOpenForms = true) :
    BytesAdmitted s f.c f.cc := ⟨hh, hmodelled, fun hmod => hopen ((bytesModifies_iff f).mp hmod)⟩

/-- Settles O40: a fault of address formation is the instruction's, and `dataAddress_error` says which it is. -/
theorem translationFailuresFault : Obligations.TranslationFailuresFault := by
  intro i s e
  refine ⟨fun f hf hadm hd => ⟨?_, dataAddress_error hd⟩, fun f hf hd => ⟨?_, dataAddress_error hd⟩,
    fun f hf hh hadm hd => ⟨?_, dataAddress_error hd⟩, fun f hf hh hd => ⟨?_, dataAddress_error hd⟩,
    fun f hf hh hmodelled hopen hd => ⟨?_, dataAddress_error hd⟩, fun f hf hh hadm hd => ⟨?_, dataAddress_error hd⟩⟩
  · rw [exec_longLoad_eq hf]; exact load_of_no_address (loadAdmitted_none_of hadm) hd
  · rw [exec_longStore_eq hf]; exact store_of_no_address hd
  · rw [exec_shortLoad_eq hf hh]; exact load_of_no_address (loadAdmitted_some_of hadm) hd
  · rw [exec_shortStore_eq hf hh]; exact store_of_no_address hd
  · rw [exec_storeBytes hf]; exact storeBytes_of_no_address (bytesAdmitted_of hh hmodelled hopen) hd
  · rw [exec_indexed_eq hf hh]; exact load_of_no_address (loadAdmitted_some_of hadm) hd

/-- Settles O41: the access itself is refused, once its address is formed and tested. -/
theorem unallocatedAccessesAreRefused : Obligations.UnallocatedAccessesAreRefused := by
  intro i s off pa
  refine ⟨fun f hf hadm hd ha hp => ?_, fun f hf hd ha hp => ?_, fun f hf hh hadm hd ha hp => ?_,
    fun f hf hh hd ha hp => ?_, fun f hf hh hmodelled hopen haddr ⟨j, hj, hun⟩ => ?_, fun f hf hh hadm hd ha hp => ?_⟩
  · rw [exec_longLoad_eq hf]; exact load_of_unallocated (loadAdmitted_none_of hadm) hd ha hp
  · rw [exec_longStore_eq hf]; exact store_of_unallocated hd ha hp
  · rw [exec_shortLoad_eq hf hh]; exact load_of_unallocated (loadAdmitted_some_of hadm) hd ha hp
  · rw [exec_shortStore_eq hf hh]; exact store_of_unallocated hd ha hp
  · rw [exec_storeBytes hf]
    refine storeBytes_of_unallocated (bytesAdmitted_of hh hmodelled hopen) haddr fun hall => ?_
    have hbyte := (allAllocated_iff_stores (addresses_low haddr)).mp hall j hj
    exact Bool.false_ne_true (hun.symm.trans hbyte)
  · rw [exec_indexed_eq hf hh]; exact load_of_unallocated (loadAdmitted_some_of hadm) hd ha hp

/-- Settles O44: the three families' loads with a new base and `t = b` are not admitted. -/
theorem sameRegisterLoadsRefusedUnderD19 : Obligations.SameRegisterLoadsRefusedUnderD19 := by
  intro i s hopen
  have hno {b t : Reg} {x : Word} (htb : t = b) : ¬ LoadAdmitted s b t (some x) := fun hadm => by
    simp [hadm rfl htb] at hopen
  refine ⟨fun f hf hmod htb => ?_, fun f hf hcc hmod htb => ?_, fun f hf hcc hmod htb => ?_⟩
  · rw [exec_longLoad_eq hf, if_neg hmod]; exact load_of_not_admitted (hno htb)
  · rw [exec_shortLoad_eq hf (.inl hcc), if_pos hmod]; exact load_of_not_admitted (hno htb)
  · rw [exec_indexed_eq hf (.inl hcc), if_pos hmod]; exact load_of_not_admitted (hno htb)

/-- Settles O45: the second test of `storeBytes`. -/
theorem storeBytesRefusedUnderD20 : Obligations.StoreBytesRefusedUnderD20 := by
  intro i s f hf hh hno
  rw [exec_storeBytes hf]
  exact storeBytes_of_not_admitted hh (hno.imp_right fun h => ⟨(bytesModifies_iff f).mpr h.1, h.2⟩)

/-! ### No other causes -/

theorem load_byte_aligned (s : State) (fmt : Fmt) (sp : BitVec 2) (b t : Reg) (o : Word) (nb : Option Word) (off : Word) :
    load s .byte fmt sp b t o nb ≠ .fault (.unalignedDataReference off) := by
  rcases load_cases s .byte fmt sp b t o nb with h | ⟨va, h⟩ | ⟨off', ha, -⟩ | ⟨pa, h⟩ | ⟨u, h⟩
  · simp [h]
  · simp [h]
  · exact absurd (Nat.mod_one _) ha
  · simp [h]
  · simp [h]

theorem store_byte_aligned (s : State) (fmt : Fmt) (sp : BitVec 2) (b r : Reg) (o : Word) (nb : Option Word) (off : Word) :
    store s .byte fmt sp b r o nb ≠ .fault (.unalignedDataReference off) := by
  rcases store_cases s .byte fmt sp b r o nb with ⟨va, h⟩ | ⟨off', ha, -⟩ | ⟨pa, h⟩ | ⟨u, h⟩
  · simp [h]
  · exact absurd (Nat.mod_one _) ha
  · simp [h]
  · simp [h]

theorem storeBytes_aligned (s : State) (n : Size) (sp : BitVec 2) (b r : Reg) (c : BytesCmplt) (cc : BitVec 2)
    (im5 : BitVec 5) (off : Word) : storeBytes s n sp b r c cc im5 ≠ .fault (.unalignedDataReference off) := by
  rcases storeBytes_cases s n sp b r c cc im5 with h | h | ⟨va, h⟩ | ⟨pa, h⟩ | ⟨u, h⟩ <;> simp [h]

/-- Settles O46: with one byte every offset is a multiple of the size, and a store of bytes has no such test. -/
theorem byteAccessesNeverUnaligned : Obligations.ByteAccessesNeverUnaligned := by
  rintro i s off (⟨f, hf⟩ | ⟨f, hf, hn⟩ | ⟨f, hf, hn⟩ | ⟨f, hf, hn⟩ | ⟨f, hf, hn⟩ | ⟨f, hf, hn⟩)
  · rw [exec_storeBytes hf]; apply storeBytes_aligned
  · rw [exec_longLoad_eq hf, hn]; apply load_byte_aligned
  · rw [exec_longStore_eq hf, hn]; apply store_byte_aligned
  · by_cases hh : HintAdmitted s f.cc
    · rw [exec_shortLoad_eq hf hh, hn]; apply load_byte_aligned
    · simp [exec_of_hint_not_admitted (hintOf_shortLoad hf) hh]
  · by_cases hh : HintAdmitted s f.cc
    · rw [exec_shortStore_eq hf hh, hn]; apply store_byte_aligned
    · simp [exec_of_hint_not_admitted (hintOf_shortStore hf) hh]
  · by_cases hh : HintAdmitted s f.cc
    · rw [exec_indexed_eq hf hh, hn]; apply load_byte_aligned
    · simp [exec_of_hint_not_admitted (hintOf_indexed hf) hh]

/-- The outcome is a next state or stops for a cause of the closed list (R116). -/
def StopsAsListed (r : Result) : Prop :=
  (∀ e, r = .fault e → (∃ off, e = .unalignedDataReference off) ∨ ∃ va k, e = .dataTranslationFault va k) ∧
  (∀ x, r = .refused x → x = .cacheHintNotModelled ∨ x = .loadModifySameRegister ∨ x = .storeBytesNotModelled ∨
    ∃ pa, x = .unmodelledAddressSpace pa)

theorem load_stopsAsListed (s : State) (n : Size) (fmt : Fmt) (sp : BitVec 2) (b t : Reg) (o : Word) (nb : Option Word) :
    StopsAsListed (load s n fmt sp b t o nb) := by
  rcases load_cases s n fmt sp b t o nb with h | ⟨va, h⟩ | ⟨off, -, h⟩ | ⟨pa, h⟩ | ⟨u, h⟩ <;>
    rw [h] <;> simp [StopsAsListed]

theorem store_stopsAsListed (s : State) (n : Size) (fmt : Fmt) (sp : BitVec 2) (b r : Reg) (o : Word)
    (nb : Option Word) : StopsAsListed (store s n fmt sp b r o nb) := by
  rcases store_cases s n fmt sp b r o nb with ⟨va, h⟩ | ⟨off, -, h⟩ | ⟨pa, h⟩ | ⟨u, h⟩ <;>
    rw [h] <;> simp [StopsAsListed]

theorem storeBytes_stopsAsListed (s : State) (n : Size) (sp : BitVec 2) (b r : Reg) (c : BytesCmplt) (cc : BitVec 2)
    (im5 : BitVec 5) : StopsAsListed (storeBytes s n sp b r c cc im5) := by
  rcases storeBytes_cases s n sp b r c cc im5 with h | h | ⟨va, h⟩ | ⟨pa, h⟩ | ⟨u, h⟩ <;>
    rw [h] <;> simp [StopsAsListed]

theorem hintRefusal_stopsAsListed : StopsAsListed (.refused .cacheHintNotModelled) := by simp [StopsAsListed]

/-- Settles O47: an instruction whose hint is not admitted is refused for it, and any other is a procedure, which stops as
listed. -/
theorem instructionsStopOnlyForListedCauses : Obligations.InstructionsStopOnlyForListedCauses := by
  intro i s
  change StopsAsListed (exec i s)
  rcases family_cases s i with ⟨f, hf⟩ | ⟨f, hf⟩ | ⟨f, hf⟩ | ⟨f, hf⟩ | ⟨f, hf⟩ | ⟨f, hf⟩
  · rw [exec_longLoad_eq hf]; exact load_stopsAsListed ..
  · rw [exec_longStore_eq hf]; exact store_stopsAsListed ..
  · by_cases hh : HintAdmitted s f.cc
    · rw [exec_shortLoad_eq hf hh]; exact load_stopsAsListed ..
    · rw [exec_of_hint_not_admitted (hintOf_shortLoad hf) hh]; exact hintRefusal_stopsAsListed
  · by_cases hh : HintAdmitted s f.cc
    · rw [exec_shortStore_eq hf hh]; exact store_stopsAsListed ..
    · rw [exec_of_hint_not_admitted (hintOf_shortStore hf) hh]; exact hintRefusal_stopsAsListed
  · rw [exec_storeBytes hf]; exact storeBytes_stopsAsListed ..
  · by_cases hh : HintAdmitted s f.cc
    · rw [exec_indexed_eq hf hh]; exact load_stopsAsListed ..
    · rw [exec_of_hint_not_admitted (hintOf_indexed hf) hh]; exact hintRefusal_stopsAsListed

end Sys2Proof.Machine
end

section
/-! With data translation disabled no space register is selected (20_memory.md R28): every procedure commutes with a change of
the space registers and of the parameters that only translation reads. -/

namespace Sys2Proof.Machine

open Sys2Proof Sys2Proof.Safety

/-- The state with other space registers, another width of them, layout and translation, and another `EXPLICIT_SPACE_W1`. -/
def changeSpaces (sr : Vector Nat 8) (n : Nat) (layout : List VaField) (ts : List Translation) (e : Bool) (u : State) :
    State :=
  { u with sr := sr, params :=
      { u.params with spaceBits := n, vaLayout := layout, translations := ts, explicitSpaceW1 := e } }

section Change

variable (sr : Vector Nat 8) (n : Nat) (layout : List VaField) (ts : List Translation) (e : Bool)

/-! ### What does not see the change -/

@[simp] theorem changeSpaces_runOpenForms (s : State) :
    (changeSpaces sr n layout ts e s).params.runOpenForms = s.params.runOpenForms := rfl
@[simp] theorem changeSpaces_storeBytesModelled (s : State) :
    (changeSpaces sr n layout ts e s).params.storeBytesModelled = s.params.storeBytesModelled := rfl
@[simp] theorem changeSpaces_decodeTable (s : State) :
    (changeSpaces sr n layout ts e s).params.decodeTable = s.params.decodeTable := rfl

@[simp] theorem readGr_changeSpaces (s : State) (i : Reg) : readGr (changeSpaces sr n layout ts e s) i = readGr s i := rfl

@[simp] theorem fetch_changeSpaces (s : State) : fetch (changeSpaces sr n layout ts e s) = fetch s := rfl

@[simp] theorem memRead_changeSpaces (s : State) (pa : Word) (m : Nat) :
    memRead (changeSpaces sr n layout ts e s) pa m = memRead s pa m := rfl

theorem dataAddress_changeSpaces {s : State} (h : s.dataTranslation = false) (k : Access) (fmt : Fmt) (sp : BitVec 2)
    (base o : Word) :
    dataAddress (changeSpaces sr n layout ts e s) k fmt sp base o = dataAddress s k fmt sp base o := by
  rw [dataAddress_disabled k fmt sp base o h,
    dataAddress_disabled (s := changeSpaces sr n layout ts e s) k fmt sp base o h]
  rfl

theorem longLoadForm_changeSpaces (s : State) (i : Instr) :
    longLoadForm (changeSpaces sr n layout ts e s) i = longLoadForm s i := by cases i <;> rfl

theorem longStoreForm_changeSpaces (s : State) (i : Instr) :
    longStoreForm (changeSpaces sr n layout ts e s) i = longStoreForm s i := by cases i <;> rfl

/-! ### Updates commute with the change -/

theorem advance_changeSpaces (s : State) :
    advance (changeSpaces sr n layout ts e s) = changeSpaces sr n layout ts e (advance s) := rfl

theorem writeGr_changeSpaces (s : State) (i : Reg) (v : Word) :
    writeGr (changeSpaces sr n layout ts e s) i v = changeSpaces sr n layout ts e (writeGr s i v) := by
  unfold writeGr; split <;> rfl

theorem writeFreeBase_changeSpaces (s : State) (b : Reg) :
    writeFreeBase (changeSpaces sr n layout ts e s) b = changeSpaces sr n layout ts e (writeFreeBase s b) := by
  unfold writeFreeBase; rw [writeGr_changeSpaces]; rfl

theorem writeBase_changeSpaces (s : State) (b : Reg) (nb : Option Word) :
    writeBase (changeSpaces sr n layout ts e s) b nb = changeSpaces sr n layout ts e (writeBase s b nb) := by
  cases nb with
  | none => rfl
  | some v => exact writeGr_changeSpaces sr n layout ts e s b v

theorem finishLoad_changeSpaces (s : State) (b t : Reg) (nb : Option Word) (v : Word) :
    finishLoad (changeSpaces sr n layout ts e s) b t nb v = changeSpaces sr n layout ts e (finishLoad s b t nb v) := by
  cases nb with
  | none => simp only [finishLoad_none, writeGr_changeSpaces, advance_changeSpaces]
  | some sum =>
    simp only [finishLoad_some, writeGr_changeSpaces, writeFreeBase_changeSpaces, advance_changeSpaces]
    split <;> rfl

theorem memWrite_changeSpaces (s : State) (pa : Word) (m : Nat) (v : Word) :
    memWrite (changeSpaces sr n layout ts e s) pa m v = (memWrite s pa m v).map (changeSpaces sr n layout ts e) := by
  cases h : firstUnallocated s.alloc pa.toNat m with
  | none =>
    have hall := (firstUnallocated_eq_none ..).mp h
    rw [memWrite_ok v hall, memWrite_ok (s := changeSpaces sr n layout ts e s) v hall]
    rfl
  | some x =>
    rw [memWrite_of_missing v h, memWrite_of_missing (s := changeSpaces sr n layout ts e s) v h]
    rfl

/-! ### The procedures commute with the change -/

theorem load_changeSpaces {s : State} (h : s.dataTranslation = false) (m : Size) (fmt : Fmt) (sp : BitVec 2) (b t : Reg)
    (o : Word) (nb : Option Word) :
    load (changeSpaces sr n layout ts e s) m fmt sp b t o nb =
      mapNext (changeSpaces sr n layout ts e) (load s m fmt sp b t o nb) := by
  simp only [load, changeSpaces_runOpenForms, readGr_changeSpaces, memRead_changeSpaces,
    dataAddress_changeSpaces sr n layout ts e h, finishLoad_changeSpaces]
  split
  · rfl
  · split
    · rfl
    · split
      · rfl
      · split <;> rfl

theorem store_changeSpaces {s : State} (h : s.dataTranslation = false) (m : Size) (fmt : Fmt) (sp : BitVec 2) (b r : Reg)
    (o : Word) (nb : Option Word) :
    store (changeSpaces sr n layout ts e s) m fmt sp b r o nb =
      mapNext (changeSpaces sr n layout ts e) (store s m fmt sp b r o nb) := by
  simp only [store, readGr_changeSpaces, dataAddress_changeSpaces sr n layout ts e h, memWrite_changeSpaces]
  split
  · rfl
  · split
    · rfl
    · cases memWrite s _ _ _ with
      | error r => rfl
      | ok s' => simp only [Except.map, writeBase_changeSpaces, advance_changeSpaces]; rfl

theorem storeBytes_changeSpaces {s : State} (h : s.dataTranslation = false) (m : Size) (sp : BitVec 2) (b r : Reg)
    (c : BytesCmplt) (cc : BitVec 2) (im5 : BitVec 5) :
    storeBytes (changeSpaces sr n layout ts e s) m sp b r c cc im5 =
      mapNext (changeSpaces sr n layout ts e) (storeBytes s m sp b r c cc im5) := by
  simp only [storeBytes, changeSpaces_runOpenForms, changeSpaces_storeBytesModelled, readGr_changeSpaces,
    dataAddress_changeSpaces sr n layout ts e h, memWrite_changeSpaces]
  split
  · rfl
  · split
    · rfl
    · split
      · rfl
      · cases memWrite s _ _ _ with
        | error r => rfl
        | ok s' =>
          simp only [Except.map, writeFreeBase_changeSpaces, ← apply_ite (changeSpaces sr n layout ts e),
            advance_changeSpaces]
          rfl

theorem exec_changeSpaces {s : State} (h : s.dataTranslation = false) (i : Instr) :
    exec i (changeSpaces sr n layout ts e s) = mapNext (changeSpaces sr n layout ts e) (exec i s) := by
  by_cases hh : ∀ cc, hintOf i = some cc → HintAdmitted s cc
  · rcases family_cases s i with ⟨f, hf⟩ | ⟨f, hf⟩ | ⟨f, hf⟩ | ⟨f, hf⟩ | ⟨f, hf⟩ | ⟨f, hf⟩
    · rw [exec_longLoad_eq hf, exec_longLoad_eq ((longLoadForm_changeSpaces sr n layout ts e s i).trans hf)]
      exact load_changeSpaces sr n layout ts e h ..
    · rw [exec_longStore_eq hf, exec_longStore_eq ((longStoreForm_changeSpaces sr n layout ts e s i).trans hf)]
      exact store_changeSpaces sr n layout ts e h ..
    · have hadm := hh f.cc (hintOf_shortLoad hf)
      rw [exec_shortLoad_eq hf hadm, exec_shortLoad_eq (s := changeSpaces sr n layout ts e s) hf hadm]
      exact load_changeSpaces sr n layout ts e h ..
    · have hadm := hh f.cc (hintOf_shortStore hf)
      rw [exec_shortStore_eq hf hadm, exec_shortStore_eq (s := changeSpaces sr n layout ts e s) hf hadm]
      exact store_changeSpaces sr n layout ts e h ..
    · rw [exec_storeBytes hf, exec_storeBytes hf]
      exact storeBytes_changeSpaces sr n layout ts e h ..
    · have hadm := hh f.cc (hintOf_indexed hf)
      rw [exec_indexed_eq hf hadm, exec_indexed_eq (s := changeSpaces sr n layout ts e s) hf hadm]
      exact load_changeSpaces sr n layout ts e h ..
  · simp only [not_forall] at hh
    obtain ⟨cc, hi, hno⟩ := hh
    rw [exec_of_hint_not_admitted hi hno,
      exec_of_hint_not_admitted (s := changeSpaces sr n layout ts e s) hi hno]
    rfl

theorem step_changeSpaces {s : State} (h : s.dataTranslation = false) :
    step (changeSpaces sr n layout ts e s) = mapNext (changeSpaces sr n layout ts e) (step s) := by
  simp only [step, fetch_changeSpaces, changeSpaces_decodeTable, exec_changeSpaces sr n layout ts e h]
  split
  · rfl
  · split <;> rfl

end Change

/-- Settles O57: `step_changeSpaces`, from the address formation of R28, which reads none of what is changed. -/
theorem disabledTranslationHidesSpaces : Obligations.DisabledTranslationHidesSpaces :=
  fun _ sr n layout ts e h => step_changeSpaces sr n layout ts e h

end Sys2Proof.Machine
end
